-- ==== Sys2Proof/Word.lean ====
section
/-! DEFINITION. The word types of the LZSS-11 codec core: bytes (rule R10 of 00_scope.md) and the type of
the hash parameter. Positions, lengths and counters of unbounded width are natural numbers (rule R40, decision D4). -/

namespace Sys2Proof

/-- A byte: 8 bits, numbered 7 down to 0 (rule R10). -/
abbrev Byte := BitVec 8

/-- The type of the OPEN parameter `HASH4` (rules R8 and R191): a total function of four bytes whose
value is a 16-bit slot index. -/
abbrev Hash4 := Byte → Byte → Byte → Byte → BitVec 16

end Sys2Proof
end

