-- ==== Sys2Proof/Syntax.lean ====
section
/-! DEFINITION. The syntax: one constructor of `Instr` per row of spec/opcode_table.json (the eight elements
of the encoded stream and the three job commands), the values of the `CMD` field, and the tokens a host
supplies to ENCODE_TOKENS. -/

namespace Sys2Proof

/-- The three commands of the job interface (rule R22). -/
inductive Command where
  | compress
  | decompress
  | encodeTokens
  deriving DecidableEq, Repr, Inhabited

/-- The content of the `CMD` field. In the abstract interface only the three commands can be expressed
(rule R23); an integration that encodes `CMD` in bits can also hold an unused code, which it must reject
(rules R23, R254 and R281). -/
inductive CmdField where
  /-- One of the three commands. -/
  | known (c : Command)
  /-- A code that names none of the three commands. -/
  | unused (code : Nat)
  deriving DecidableEq, Repr, Inhabited

/-- The rows of spec/opcode_table.json. Operands are the fields of the encodings, before the tier's base is added. -/
inductive Instr where
  /-- MAGIC, rule R71. -/
  | magic
  /-- SIZE_SHORT, rule R72: `n` is the declared length, 24 bits. -/
  | sizeShort (n : BitVec 24)
  /-- SIZE_ESCAPE, rule R73: `n` is the declared length, 32 bits. -/
  | sizeEscape (n : BitVec 32)
  /-- GROUP_HDR, rule R78: bit `7 - i` is the tag of token `i`. -/
  | groupHdr (tags : Byte)
  /-- LIT, rule R80. -/
  | lit (v : Byte)
  /-- MATCH2 (Tier A), rule R81: `la` is length - 1 and `da` is distance - 1. -/
  | match2 (la : BitVec 4) (da : BitVec 12)
  /-- MATCH3 (Tier B), rule R82: `lb` is length - 17 and `da` is distance - 1. -/
  | match3 (lb : BitVec 8) (da : BitVec 12)
  /-- MATCH4 (Tier C), rule R83: `lc` is length - 273 and `da` is distance - 1. -/
  | match4 (lc : BitVec 16) (da : BitVec 12)
  /-- COMPRESS, rule R220. -/
  | compress
  /-- DECOMPRESS, rule R150. -/
  | decompress
  /-- ENCODE_TOKENS, rule R230. -/
  | encodeTokens
  deriving DecidableEq, Repr, Inhabited

/-- The token notation of rule R15, as a host writes it into `TOKENS`. The numbers are unbounded, because a
sequence outside the contract can be supplied and is then rejected (rule R231). -/
inductive Token where
  /-- `LIT(b)`. -/
  | lit (b : Byte)
  /-- `MATCH(d, l)`: distance `d`, length `l`. -/
  | copy (d l : Nat)
  deriving DecidableEq, Repr, Inhabited

/-- The instruction a command is. -/
def Command.toInstr : Command → Instr
  | .compress => .compress
  | .decompress => .decompress
  | .encodeTokens => .encodeTokens

/-- Whether the instruction is an element of the encoded stream, not a job command. -/
def Instr.isStream : Instr → Bool
  | .magic => true
  | .sizeShort _ => true
  | .sizeEscape _ => true
  | .groupHdr _ => true
  | .lit _ => true
  | .match2 _ _ => true
  | .match3 _ _ => true
  | .match4 _ _ => true
  | .compress => false
  | .decompress => false
  | .encodeTokens => false

end Sys2Proof
end

