-- ==== Sys2Proof/Machine/Types.lean ====
section
/-! DEFINITION. The closed types of the job interface and of the block's control: status and rejection codes
(rules R250 and R254), the temporaries (rules R33 and R38), and the points of a job's pseudocode. -/

namespace Sys2Proof.Machine

/-- STATUS (rule R250). -/
inductive Status where
  | ok
  | invalidMagic
  | invalidIndex
  | tooShort
  | rejected
  deriving DecidableEq, Repr, Inhabited

/-- Why a job is rejected (rule R254). -/
inductive Reason where
  | inputTooLarge
  | badToken
  | outputTooLarge
  | aliased
  | unknownCommand
  deriving DecidableEq, Repr, Inhabited

/-- The temporaries of a token decode or copy (rule R33) and of a match-finder step (rule R38). -/
structure Temps where
  b0 : Byte
  b1 : Byte
  b2 : Byte
  b3 : Byte
  /-- The decoded distance, 13 bits. -/
  dist : BitVec 13
  /-- The decoded length, 17 bits. -/
  len : BitVec 17
  /-- The copy's source index. -/
  src : Nat
  /-- The copy counter, 17 bits. -/
  k : BitVec 17
  /-- The hash of the window at `cur`. -/
  h : BitVec 16
  /-- The slot's content: EMPTY is `none`. -/
  cand : Option Nat
  /-- `L`, the common-prefix length, 17 bits. -/
  mlen : BitVec 17
  /-- The registration index. -/
  p : Nat
  deriving DecidableEq, Repr, Inhabited

/-- Where a running DECOMPRESS stands: before the magic test (R153), before the size header (R154), or at the
head of the token loop (R155). -/
inductive DecPoint where
  | magic
  | size
  | loop
  deriving DecidableEq, Repr, Inhabited

/-- The two jobs that write a stream. -/
inductive EncJob where
  | compress
  | tokens
  deriving DecidableEq, Repr, Inhabited

/-- Where a running COMPRESS or ENCODE_TOKENS stands: before the magic byte, before the size header (both of
R221), before FRAMER_INIT (R131), or at the head of the token loop (R222, R232). -/
inductive EncPoint where
  | magic
  | size
  | init
  | loop
  deriving DecidableEq, Repr, Inhabited

/-- The block's place in the sequential pseudocode of its job (rules R18 and R63). The job is fixed at its start
(rule R280 takes CMD as an argument). -/
inductive Phase where
  /-- No job runs. -/
  | idle
  | dec (p : DecPoint)
  | enc (j : EncJob) (p : EncPoint)
  deriving DecidableEq, Repr, Inhabited

/-- OVERRUN (rules R8 and R161). -/
inductive Overrun where
  | truncate
  | error
  deriving DecidableEq, Repr, Inhabited

end Sys2Proof.Machine
end

