-- ==== Sys2Proof/Config.lean ====
section
/-! DEFINITION. What an integration fixes (the OPEN parameters of rule R8), as one constant without a body, the
fixed constants of rule R7, and the free values (the `draw` of rule R14). Nothing about an open value can be proved. -/

namespace Sys2Proof

open Machine (Status Temps Overrun)

/-- The OPEN parameters of rule R8 that some rule reads. -/
structure Config where
  /-- `HASH4` (rule R191, decision D6). -/
  hash4 : Hash4
  /-- `OVERRUN` (rule R161, decision D15). -/
  overrun : Overrun
  /-- `MAX_OUT`, the largest declared length (rule R154, decision D16). -/
  maxOut : Nat
  /-- `MAX_IN`, the largest input buffer (rule R254, decision D5). -/
  maxIn : Nat
  /-- `ADDR_BITS`, the width of every position (rule R40, decision D4). -/
  addrBits : Nat
  /-- `CMD_CODE`, the numeric code of each command where `CMD` is encoded in bits (decision D2). -/
  cmdCode : Command → Nat
  deriving Inhabited

/-- The configuration of the machine at hand: a constant without a body (log entry 6). -/
opaque Config.here : Config

/-- What rule R35 and decision D4 ask of the widths: every position below `MAX_IN` leaves one value unused. -/
def Config.Adequate (cfg : Config) : Prop := cfg.maxIn < 2 ^ cfg.addrBits - 1

/-- A free STATUS: its value while a job runs (rule R22). The argument is the draw's number (log entry 5). -/
opaque Config.freeStatus : Nat → Status

/-- A free ERR_PAYLOAD (rules R22, R159, R161 and R250). -/
opaque Config.freePayload : Nat → Nat

/-- A free OUT_LEN (rules R22 and R282). -/
opaque Config.freeOutLen : Nat → Nat

/-- A free declared length: `D` before the header is parsed (rules R30 and R41). -/
opaque Config.freeDeclared : Nat → BitVec 32

/-- Free temporaries: their value at a job's start (rule R41). -/
opaque Config.freeTemps : Nat → Temps

/-- A free byte of `OUT`, by its index: what a host that reads a buffer which was not handed over gets (rule R296). -/
opaque Config.freeOut : Nat → Nat → Byte

/-- HASH_COUNT (rule R7). -/
abbrev Config.hashCount : Nat := 65536

/-- MIN_WIN (rule R7). -/
abbrev Config.minWin : Nat := 4

/-- MIN_MATCH_EMIT (rule R7). -/
abbrev Config.minMatchEmit : Nat := 4

/-- MAX_MATCH (rule R7). -/
abbrev Config.maxMatch : Nat := 65808

/-- MAX_DIST_EMIT (rule R7). -/
abbrev Config.maxDistEmit : Nat := 4095

/-- SHORT_SIZE_LIMIT (rule R7). -/
abbrev Config.shortSizeLimit : Nat := 0xFFFFFF

/-- The largest uncompressed length a stream can declare (rule R9). -/
abbrev Config.maxDeclared : Nat := 0xFFFFFFFF

end Sys2Proof
end

