-- ==== Sys2Proof/WellFormed.lean ====
section
/-! DEFINITION. When an instruction is one the encoding has (rules R81 to R83 and R89), and when a token is in
the operand range of the token encoder (rule R100) or inside the match-sink contract (rule R231). -/

namespace Sys2Proof

/-- An instruction of the format. Only a Tier A length field has excluded values: `b0[7:4]` is neither 0 nor 1
(rule R81); every other field may hold any value (rule R89). -/
def Instr.wf : Instr → Bool
  | .magic => true
  | .sizeShort _ => true
  | .sizeEscape _ => true
  | .groupHdr _ => true
  | .lit _ => true
  | .match2 la _ => la != 0 && la != 1
  | .match3 _ _ => true
  | .match4 _ _ => true
  | .compress => true
  | .decompress => true
  | .encodeTokens => true

/-- The operand range of TOKEN_ENCODE (rule R100): distances 1..4096 and lengths 3..65808. -/
def Token.encodable : Token → Bool
  | .lit _ => true
  | .copy d l => decide (1 ≤ d ∧ d ≤ 4096 ∧ 3 ≤ l ∧ l ≤ 65808)

/-- The match-sink contract of rule R231 for one token, `produced` bytes having been produced before it. -/
def Token.inContract (produced : Nat) : Token → Bool
  | .lit _ => true
  | .copy d l => decide (1 ≤ d ∧ d ≤ 4095 ∧ 3 ≤ l ∧ l ≤ 65808 ∧ d ≤ produced)

/-- How many bytes a token stands for: 1 for a literal, `l` for a match (rule R230). -/
def Token.size : Token → Nat
  | .lit _ => 1
  | .copy _ l => l

end Sys2Proof
end

