-- ==== Sys2Proof/Decode.lean ====
section
/-! DEFINITION. The decoder and the encoder of the stream's elements (30_encoding.md and 40_token_codec.md), the
reading of a numeric `CMD` code, and the decoder of a word numbered as spec/opcode_table.json numbers it.
An element is selected by its PLACE in the stream, not by its value (rules R71, R88 and R93). -/

namespace Sys2Proof

/-- The place in the stream at which bytes are read: it selects the element (rule R93). -/
inductive Place where
  /-- Offset 0. -/
  | magic
  /-- Offset 1, right after the magic byte. -/
  | size
  /-- No tags remain: a group header follows. -/
  | groupHdr
  /-- A token whose tag is given: `true` is a match. -/
  | token (tag : Bool)
  deriving DecidableEq, Repr

/-- Why bytes are not an element. Rule R89: nothing else can go wrong. -/
inductive DecodeError where
  /-- The byte at offset 0 is not 0x11 (rule R71). -/
  | badMagic
  /-- The bytes end before the element does. -/
  | truncated
  deriving DecidableEq, Repr

/-- The decoder's answer: the element and how many bytes it took, or the reason there is none. -/
inductive DecodeResult where
  | ok (i : Instr) (consumed : Nat)
  | bad (e : DecodeError)
  deriving DecidableEq, Repr

/-- The field `b[7:4]`. -/
def hiNibble (b : Byte) : BitVec 4 := b.extractLsb' 4 4

/-- The field `b[3:0]`. -/
def loNibble (b : Byte) : BitVec 4 := b.extractLsb' 0 4

/-- `LE24` of three bytes (rule R11): the first byte is least significant. -/
def le24 (b1 b2 b3 : Byte) : BitVec 24 := b3 ++ b2 ++ b1

/-- `LE32` of four bytes (rule R11). -/
def le32 (b4 b5 b6 b7 : Byte) : BitVec 32 := b7 ++ b6 ++ b5 ++ b4

/-- The size header's form and value (rule R75), from the bytes at offset 1. The escape is taken when the 24-bit
field is 0 and four more bytes exist, that is, when the stream has at least 8 bytes. -/
def decodeSize : List Byte → DecodeResult
  | b1 :: b2 :: b3 :: b4 :: b5 :: b6 :: b7 :: _ =>
    if le24 b1 b2 b3 = 0 then .ok (.sizeEscape (le32 b4 b5 b6 b7)) 7 else .ok (.sizeShort (le24 b1 b2 b3)) 3
  | b1 :: b2 :: b3 :: _ => .ok (.sizeShort (le24 b1 b2 b3)) 3
  | _ => .bad .truncated

/-- Tier selection and field assembly of a match token (rules R85, R94 and R111 to R114). -/
def decodeMatch : List Byte → DecodeResult
  | b0 :: b1 :: rest =>
    if hiNibble b0 = 0 then
      match rest with
      | b2 :: _ => .ok (.match3 (loNibble b0 ++ hiNibble b1) (loNibble b1 ++ b2)) 3
      | [] => .bad .truncated
    else if hiNibble b0 = 1 then
      match rest with
      | b2 :: b3 :: _ => .ok (.match4 (loNibble b0 ++ b1 ++ hiNibble b2) (loNibble b2 ++ b3)) 4
      | _ => .bad .truncated
    else .ok (.match2 (hiNibble b0) (loNibble b0 ++ b1)) 2
  | _ => .bad .truncated

/-- The decoder: what the bytes at a place are. Total on any bytes. -/
def decode : Place → List Byte → DecodeResult
  | .magic, b :: _ => if b = 0x11 then .ok .magic 1 else .bad .badMagic
  | .magic, [] => .bad .truncated
  | .size, bs => decodeSize bs
  | .groupHdr, b :: _ => .ok (.groupHdr b) 1
  | .groupHdr, [] => .bad .truncated
  | .token false, b :: _ => .ok (.lit b) 1
  | .token false, [] => .bad .truncated
  | .token true, bs => decodeMatch bs

/-- Byte `k` of a value, `v[8k+7 : 8k]`. -/
def byteOf {w : Nat} (v : BitVec w) (k : Nat) : Byte := v.extractLsb' (8 * k) 8

/-- The encoder: the bytes of an element, in stream order (rules R71 to R73, R78 and R101 to R104). A job
command has no bytes: it stands in the `CMD` field, whose code is the OPEN parameter `CMD_CODE`. -/
def encode : Instr → List Byte
  | .magic => [0x11]
  | .sizeShort n => [byteOf n 0, byteOf n 1, byteOf n 2]
  | .sizeEscape n => [0, 0, 0, byteOf n 0, byteOf n 1, byteOf n 2, byteOf n 3]
  | .groupHdr tags => [tags]
  | .lit v => [v]
  | .match2 la da => [la ++ da.extractLsb' 8 4, da.extractLsb' 0 8]
  | .match3 lb da => [(0 : BitVec 4) ++ lb.extractLsb' 4 4, lb.extractLsb' 0 4 ++ da.extractLsb' 8 4, da.extractLsb' 0 8]
  | .match4 lc da =>
    [(1 : BitVec 4) ++ lc.extractLsb' 12 4, lc.extractLsb' 4 8, lc.extractLsb' 0 4 ++ da.extractLsb' 8 4,
     da.extractLsb' 0 8]
  | .compress => []
  | .decompress => []
  | .encodeTokens => []

/-- The place at which an element stands; none for a job command. -/
def placeOf : Instr → Option Place
  | .magic => some .magic
  | .sizeShort _ => some .size
  | .sizeEscape _ => some .size
  | .groupHdr _ => some .groupHdr
  | .lit _ => some (.token false)
  | .match2 _ _ => some (.token true)
  | .match3 _ _ => some (.token true)
  | .match4 _ _ => some (.token true)
  | .compress => none
  | .decompress => none
  | .encodeTokens => none

/-- The `CMD` field that a numeric code stands for, under an integration's `CMD_CODE` (rules R8, R23 and R254). -/
def decodeCommand (codes : Command → Nat) (code : Nat) : CmdField :=
  if code = codes .compress then .known .compress
  else if code = codes .decompress then .known .decompress
  else if code = codes .encodeTokens then .known .encodeTokens
  else .unused code

/-- The longest element of the stream after the magic byte, in bytes (SIZE_ESCAPE). -/
def maxElementBytes : Nat := 7

/-- The bytes of a word numbered as the opcode table numbers it: the first byte is bits 7..0, and every bit at
or above `nbits` is 0, up to the longest element. -/
def tableBytes (nbits w : Nat) : List Byte :=
  (List.range maxElementBytes).map fun k => BitVec.ofNat 8 ((w % 2 ^ nbits) / 2 ^ (8 * k))

/-- The place a word of the opcode table is read at. The stream selects an element by position, which a word
alone does not show, so the row's width and its fixed bits choose the place (DESIGN CHOICE, log entry 11): 56 bits is the
escaped size; 24 bits is a match token when its fixed nibble is 0 and the short size otherwise; an 8-bit 0x11 is the magic
byte; every other word is a match token. -/
def tablePlace (nbits w : Nat) : Place :=
  if nbits = 56 then .size
  else if nbits = 24 then (if w / 16 % 16 = 0 then .token true else .size)
  else if nbits = 8 ∧ w % 256 = 0x11 then .magic
  else .token true

/-- What the decoder reads from a word of the opcode table. -/
def decodeTableWord (nbits w : Nat) : Option Instr :=
  match decode (tablePlace nbits w) (tableBytes nbits w) with
  | .ok i _ => some i
  | .bad _ => none

end Sys2Proof
end

