-- ==== Sys2Proof/Machine/State.lean ====
section
/-! DEFINITION. The block's state as plain data (10_state.md), the reasons a step stops, and the state at power-on. -/

namespace Sys2Proof.Machine

/-- A byte buffer: address and byte pairs in canonical form (strictly rising addresses, no entry equal to 0x00,
which is what an unlisted address reads as; log entry 7). -/
abbrev Memory := List Host.Cell

/-- The match candidate table (rule R34): slot and position pairs with strictly rising slots. An unlisted slot is
EMPTY (rule R35). -/
abbrev HashTable := List (Nat × Nat)

/-- The state of the block (rule R20). -/
structure State where
  /-- `CMD` (R22). -/
  cmd : CmdField
  /-- The bytes of `IN` (R22, R50). -/
  inMem : Memory
  /-- `N_in`, the length of `IN` (R22). -/
  inLen : Nat
  /-- Whether the descriptor `IN` overlaps `OUT` in platform memory (R61). -/
  inOverlapsOut : Bool
  /-- `TOKENS` (R22, R230). -/
  tokens : List Token
  /-- `BUSY` (R22). -/
  busy : Bool
  /-- `STATUS` (R22, R250). -/
  status : Status
  /-- `ERR_PAYLOAD` (R22). -/
  errPayload : Nat
  /-- The model's own: whether a rule gave `ERR_PAYLOAD` its value, which is then no draw (R298, log entry 24). -/
  payloadGiven : Bool
  /-- The bytes of `OUT` (R22, R50). -/
  outMem : Memory
  /-- `OUT_LEN` (R22, R282). -/
  outLenReg : Nat
  /-- `cur` (R24). -/
  cur : Nat
  /-- `pos` (R25). -/
  pos : Nat
  /-- `out_len` (R26). -/
  outLen : Nat
  /-- `acc` (R27). -/
  acc : Byte
  /-- `cnt` (R28). -/
  cnt : BitVec 4
  /-- `ph` (R29). -/
  ph : Nat
  /-- `D` (R30). -/
  dlen : BitVec 32
  /-- `hdr` (R31). -/
  hdr : Byte
  /-- `rem` (R32). -/
  rem : BitVec 4
  /-- The temporaries (R33, R38). -/
  temps : Temps
  /-- `HT` (R34). -/
  ht : HashTable
  /-- The model's own: where the running job stands (log entry 2). -/
  phase : Phase
  /-- The model's own: the host's start event (R280, log entry 3). -/
  startReq : Bool
  /-- The model's own: the platform's reset event (R284, log entry 3). -/
  resetReq : Bool
  /-- The model's own: the loop index `j` of ENCODE_TOKENS (R232, log entry 2). -/
  tokIdx : Nat
  /-- The model's own: the number of draws made (R14, log entry 5). -/
  draws : Nat
  deriving DecidableEq, Repr, Inhabited

/-- Why the machine stops without a next state. -/
inductive Fault where
  /-- Raised by `step` when no job runs and neither a start nor a reset has been asked for: rule R283 enables no
  other step (a stuck state, JB-1). Safe: the hardware does nothing either. -/
  | idle
  deriving DecidableEq, Repr, Inhabited

/-- Why a meaning or a host operation is given none. -/
inductive Refusal where
  /-- Raised by `exec` for an instruction that has no meaning yet. Safe. -/
  | notModelled (mnemonic : String)
  /-- Raised by the meaning of a job command, and by the host's start, while BUSY = 1: rule R290 gives such a start
  no transition. Unsafe in the way rule R290 itself says (claims hold for hosts that keep the duty). -/
  | startWhileBusy
  /-- Raised by the meaning of a stream element when the running job is at no point that decodes or emits it (rules R71 to
  R83 select an element by its position). `step` never asks for one there. Safe. -/
  | outOfPlace
  /-- Raised by a host access that rule R291 forbids while BUSY = 1. Unsafe in the way rule R291 itself says. -/
  | hostDuty
  deriving DecidableEq, Repr, Inhabited

/-- Power-on (rules R42 and R283): BUSY = 0. The spec gives no other value; every other field holds the value that log
entries 1 to 5 and 24 name. -/
def State.reset : State where
  cmd := .known .decompress
  inMem := []
  inLen := 0
  inOverlapsOut := false
  tokens := []
  busy := false
  status := .ok
  errPayload := 0
  payloadGiven := false
  outMem := []
  outLenReg := 0
  cur := 0
  pos := 0
  outLen := 0
  acc := 0
  cnt := 0
  ph := 0
  dlen := 0
  hdr := 0
  rem := 0
  temps := { b0 := 0, b1 := 0, b2 := 0, b3 := 0, dist := 0, len := 0, src := 0, k := 0, h := 0, cand := none, mlen := 0, p := 0 }
  ht := []
  phase := .idle
  startReq := false
  resetReq := false
  tokIdx := 0
  draws := 0

end Sys2Proof.Machine
end

