-- ==== Sys2Proof/Machine/Ops.lean ====
section
/-! DEFINITION. The named operations over the buffers, the hash table and the job interface: the memory primitives of rule
R13, the slot accesses of rule R36, the end of a job (the error entry of rules R252 and R282) and the platform reset. -/

namespace Sys2Proof

/-- Every piece of state at an unspecified value (rule R284); the argument is the draw's number (log entry 5). -/
opaque Config.freeState : Nat → Machine.State

end Sys2Proof

namespace Sys2Proof.Machine

/-! ### Buffers -/

/-- The byte an address holds; an unlisted address reads as 0x00 (log entry 7). -/
def Memory.read : Memory → Nat → Byte
  | [], _ => 0
  | (a', b) :: m, a => if a = a' then b else Memory.read m a

/-- Drop what is listed at an address, so that it reads as 0x00. -/
def Memory.erase (m : Memory) (a : Nat) : Memory := m.filter fun c => c.1 != a

/-- List a byte at an address, in the address's place. -/
def Memory.insert : Memory → Nat → Byte → Memory
  | [], a, v => [(a, v)]
  | (a', b) :: m, a, v =>
    if a < a' then (a, v) :: (a', b) :: m
    else if a = a' then (a, v) :: m
    else (a', b) :: Memory.insert m a v

/-- Write one byte, keeping the canonical form: 0x00 is not listed. -/
def Memory.write (m : Memory) (a : Nat) (v : Byte) : Memory :=
  if v = 0 then Memory.erase m a else Memory.insert m a v

/-- The canonical form at and above an address: strictly rising addresses and no entry equal to 0x00. -/
def Memory.wfFrom : Nat → Memory → Bool
  | _, [] => true
  | lo, (a, b) :: m => decide (lo ≤ a) && b != 0 && Memory.wfFrom (a + 1) m

/-- The canonical form. -/
def Memory.wf (m : Memory) : Bool := Memory.wfFrom 0 m

/-- Write consecutive bytes from an address on, the lowest first. -/
def Memory.writeBytes : Memory → Nat → List Byte → Memory
  | m, _, [] => m
  | m, a, v :: vs => Memory.writeBytes (Memory.write m a v) (a + 1) vs

/-- The buffer that holds the given bytes from index 0 on. -/
def Memory.ofBytes (bs : List Byte) : Memory := Memory.writeBytes [] 0 bs

/-- The bytes at `n` consecutive indices from `a` on. -/
def Memory.readBytes (m : Memory) : Nat → Nat → List Byte
  | _, 0 => []
  | a, n + 1 => Memory.read m a :: Memory.readBytes m (a + 1) n

/-- The canonical form of any list of cells, kept below a length: the buffer that an unspecified buffer is. -/
def Memory.canon (m : Memory) (len : Nat) : Memory :=
  (m.filter fun c => decide (c.1 < len)).foldl (fun acc c => Memory.write acc c.1 c.2) []

/-! ### The hash table -/

/-- LOOKUP (rule R192): the slot's content. -/
def HashTable.lookup : HashTable → Nat → Option Nat
  | [], _ => none
  | (h', q) :: t, h => if h = h' then some q else HashTable.lookup t h

/-- Overwrite a slot, keeping the slots strictly rising. -/
def HashTable.insert : HashTable → Nat → Nat → HashTable
  | [], h, q => [(h, q)]
  | (h', q') :: t, h, q =>
    if h < h' then (h, q) :: (h', q') :: t
    else if h = h' then (h, q) :: t
    else (h', q') :: HashTable.insert t h q

/-- The canonical form at and above a slot: strictly rising slots, all below 65536 (rule R34). -/
def HashTable.wfFrom : Nat → HashTable → Bool
  | _, [] => true
  | lo, (h, _) :: t => decide (lo ≤ h) && decide (h < Config.hashCount) && HashTable.wfFrom (h + 1) t

/-- The canonical form. -/
def HashTable.wf (t : HashTable) : Bool := HashTable.wfFrom 0 t

/-- The canonical form of any list of slots: the table that an unspecified table is. -/
def HashTable.canon (t : HashTable) : HashTable :=
  (t.filter fun c => decide (c.1 < Config.hashCount)).foldl (fun acc c => HashTable.insert acc c.1 c.2) []

/-! ### The memory primitives of rule R13 -/

/-- `MemRead(IN, a, 1)`. -/
def State.inByte (s : State) (a : Nat) : Byte := Memory.read s.inMem a

/-- The bytes of `IN` from `a` on: at most `n` of them, and none at or after `N_in` (rules R60 and R152). -/
def State.inBytes (s : State) (a n : Nat) : List Byte := Memory.readBytes s.inMem a (min n (s.inLen - a))

/-- `MemRead(OUT, a, 1)`. -/
def State.outByte (s : State) (a : Nat) : Byte := Memory.read s.outMem a

/-- `MemWrite(OUT, a, 1, v)`, the framer's placeholder write-back. -/
def State.rewrite (a : Nat) (v : Byte) (s : State) : State := { s with outMem := Memory.write s.outMem a v }

/-- `Append(v)`. -/
def State.append (v : Byte) (s : State) : State :=
  { s with outMem := Memory.write s.outMem s.outLen v, outLen := s.outLen + 1 }

/-- Append bytes in order. -/
def State.appendBytes : List Byte → State → State
  | [], s => s
  | v :: vs, s => State.appendBytes vs (State.append v s)

/-! ### The end of a job -/

/-- The numeric code of a STATUS (rule R250). -/
def Status.code : Status → Nat
  | .ok => 0
  | .invalidMagic => 1
  | .invalidIndex => 2
  | .tooShort => 3
  | .rejected => 4

/-- The numeric code of a rejection reason (rule R254). -/
def Reason.code : Reason → Nat
  | .inputTooLarge => 1
  | .badToken => 2
  | .outputTooLarge => 3
  | .aliased => 4
  | .unknownCommand => 5

/-- JOB_END (rules R282 and R252), the ONE way a started job ends. A payload of `none` is unspecified, a draw;
OUT_LEN is unspecified unless the status is OK. Nothing else is written, and the block is idle again. Whether the payload was
given is kept for the observation of rule R298 (log entry 24). -/
def jobEnd (st : Status) (payload : Option Nat) (s : State) : State :=
  { s with
    status := st
    errPayload := payload.getD (Config.freePayload s.draws)
    payloadGiven := payload.isSome
    outLenReg := if st = .ok then s.outLen else Config.freeOutLen s.draws
    busy := false
    phase := .idle
    draws := s.draws + 1 }

/-- `finish` (rule R14). -/
def finish (s : State) : State := jobEnd .ok none s

/-- `raise K(p)` (rules R14 and R252). -/
def raise (k : Status) (payload : Option Nat) (s : State) : State := jobEnd k payload s

/-- `reject(reason)` inside a job (rules R14 and R154). -/
def reject (r : Reason) (s : State) : State := jobEnd .rejected (some r.code) s

/-- `reject(reason)` at a job's start: it changes nothing but STATUS, ERR_PAYLOAD and BUSY (rule R281), and the start
event is taken. -/
def rejectAtStart (r : Reason) (s : State) : State :=
  { s with status := .rejected, errPayload := r.code, payloadGiven := true, busy := false, startReq := false }

/-! ### The platform reset -/

/-- A platform reset (rule R284): BUSY <- 0, a running job is abandoned, and every other piece of state is unspecified.
The model's own fields say that no job runs and that the event is taken; the buffers and the table are brought to their
canonical form, which changes no content below their lengths (log entry 9). -/
def platformReset (s : State) : State :=
  let u := Config.freeState s.draws
  { u with
    inMem := Memory.canon u.inMem u.inLen
    outMem := Memory.canon u.outMem u.outLen
    ht := HashTable.canon u.ht
    payloadGiven := false
    busy := false
    phase := .idle
    startReq := false
    resetReq := false
    draws := s.draws + 1 }

end Sys2Proof.Machine
end

