-- ==== Sys2Proof/Machine/Operands.lean ====
section
/-! DEFINITION. The operands of a token: field values to distance and length (rule R85), tier selection from distance
and length (rules R86 and R100), the form of the size header (rule R74), and the temporaries a token's bytes go to (rule R33). -/

namespace Sys2Proof.Machine

/-- Distance of a match: every tier carries distance - 1 in 12 bits (rule R85). -/
def matchDist (da : BitVec 12) : Nat := da.toNat + 1

/-- Length of a Tier A match (rule R112). -/
def lenA (la : BitVec 4) : Nat := la.toNat + 1

/-- Length of a Tier B match (rule R113). -/
def lenB (lb : BitVec 8) : Nat := lb.toNat + 17

/-- Length of a Tier C match (rule R114). -/
def lenC (lc : BitVec 16) : Nat := lc.toNat + 273

/-- Tier selection by length (rules R86 and R100 to R103). -/
def matchInstr (d l : Nat) : Instr :=
  if l ≤ 16 then .match2 (BitVec.ofNat 4 (l - 1)) (BitVec.ofNat 12 (d - 1))
  else if l ≤ 272 then .match3 (BitVec.ofNat 8 (l - 17)) (BitVec.ofNat 12 (d - 1))
  else .match4 (BitVec.ofNat 16 (l - 273)) (BitVec.ofNat 12 (d - 1))

/-- The stream element a token is encoded as (rule R100). -/
def tokenInstr : Token → Instr
  | .lit b => .lit b
  | .copy d l => matchInstr d l

/-- The token a stream element stands for (rule R15); none for an element that is no token. -/
def instrToken : Instr → Option Token
  | .lit v => some (.lit v)
  | .match2 la da => some (.copy (matchDist da) (lenA la))
  | .match3 lb da => some (.copy (matchDist da) (lenB lb))
  | .match4 lc da => some (.copy (matchDist da) (lenC lc))
  | .magic => none
  | .sizeShort _ => none
  | .sizeEscape _ => none
  | .groupHdr _ => none
  | .compress => none
  | .decompress => none
  | .encodeTokens => none

/-- The form of the size header the encoder writes for an uncompressed length (rule R74). -/
def sizeInstr (n : Nat) : Instr :=
  if n < Config.shortSizeLimit then .sizeShort (BitVec.ofNat 24 n) else .sizeEscape (BitVec.ofNat 32 n)

/-- `hdr_len` (rules R70, R72 and R73): where the token stream starts. -/
abbrev hdrLenShort : Nat := 4

/-- `hdr_len` of the escape form. -/
abbrev hdrLenEscape : Nat := 8

/-- The bytes of a match token go to `b0` to `b3`, in the order they are read; a byte that is not read leaves its
temporary alone (rules R33 and R111 to R114). -/
def Temps.noteBytes (t : Temps) : List Byte → Temps
  | [] => t
  | [x0] => { t with b0 := x0 }
  | [x0, x1] => { t with b0 := x0, b1 := x1 }
  | [x0, x1, x2] => { t with b0 := x0, b1 := x1, b2 := x2 }
  | x0 :: x1 :: x2 :: x3 :: _ => { t with b0 := x0, b1 := x1, b2 := x2, b3 := x3 }

end Sys2Proof.Machine
end

