-- ==== Sys2Proof/Machine/Flags.lean ====
section
/-! DEFINITION. The block has no flags and no condition codes (rule R39); its only predicate-like state is the tag bit.
The tag computations: the tag test and the advance of the decoder (rules R157 and R162), the accumulator of the framer
(rules R132 and R134). -/

namespace Sys2Proof.Machine

/-- TAG_TEST (rule R157): the tag of the next token is bit 7 of `hdr`; `true` is a match. -/
def tagOf (hdr : Byte) : Bool := hdr.getLsbD 7

/-- The shift of TAG_ADVANCE (rule R162), keeping 8 bits. -/
def shiftHdr (hdr : Byte) : Byte := hdr <<< 1

/-- TAG_ADVANCE (rule R162), the last part of every decoder iteration. -/
def tagAdvance (s : State) : State := { s with hdr := shiftHdr s.hdr, rem := s.rem - 1 }

/-- The bit a tag is: 1 for a match and 0 for a literal (rule R15). -/
def tagBit (tag : Bool) : Byte := if tag then 1 else 0

/-- The accumulator after one more tag (rule R132): `((acc << 1) | t) mod 256`. -/
def accPush (acc : Byte) (tag : Bool) : Byte := (acc <<< 1) ||| tagBit tag

/-- The header of the last group (rule R134): `(acc << (8 - cnt)) mod 256`. -/
def accFinish (acc : Byte) (cnt : BitVec 4) : Byte := acc <<< (8 - cnt.toNat)

/-- The tag of a stream element that is a token: a match's is 1 (rule R15). -/
def instrTag : Instr → Bool
  | .match2 _ _ => true
  | .match3 _ _ => true
  | .match4 _ _ => true
  | .magic => false
  | .sizeShort _ => false
  | .sizeEscape _ => false
  | .groupHdr _ => false
  | .lit _ => false
  | .compress => false
  | .decompress => false
  | .encodeTokens => false

end Sys2Proof.Machine
end

