-- ==== Sys2Proof/Machine/Header.lean ====
section
/-! DEFINITION. The meanings of MAGIC, SIZE_SHORT and SIZE_ESCAPE: parsed by DECOMPRESS (rules R153 and R154), written
by COMPRESS and ENCODE_TOKENS (WRITE_HEADER, rule R221). -/

namespace Sys2Proof.Machine

/-- What follows a good magic byte (rule R153): the stream must hold the 4 bytes of the least header. -/
def decMagic (s : State) : State :=
  if s.inLen < 4 then raise .tooShort none s else { s with phase := .dec .size }

/-- The parse of a size header that declares `d`, the token stream starting at `hdrLen` (rule R154). -/
def decSize (cfg : Config) (hdrLen : Nat) (d : BitVec 32) (s : State) : State :=
  let s1 := { s with dlen := d, pos := hdrLen }
  if cfg.maxOut < d.toNat then reject .outputTooLarge s1
  else { s1 with outLen := 0, hdr := 0, rem := 0, phase := .dec .loop }

/-- Append the bytes of a header element and go on to the next point of the job (rule R221). -/
def encHeader (j : EncJob) (i : Instr) (next : EncPoint) (s : State) : State :=
  { State.appendBytes (encode i) s with phase := .enc j next }

/-- MAGIC (rules R71, R153 and R221). -/
def execMagic (s : State) : Host.Outcome State Fault Refusal :=
  match s.phase with
  | .dec .magic => .next (decMagic s)
  | .enc j .magic => .next (encHeader j .magic .size s)
  | _ => .refused .outOfPlace

/-- SIZE_SHORT (rules R72, R154 and R221). -/
def execSizeShort (n : BitVec 24) (s : State) : Host.Outcome State Fault Refusal :=
  match s.phase with
  | .dec .size => .next (decSize Config.here hdrLenShort (n.setWidth 32) s)
  | .enc j .size => .next (encHeader j (.sizeShort n) .init s)
  | _ => .refused .outOfPlace

/-- SIZE_ESCAPE (rules R73, R76, R154 and R221). -/
def execSizeEscape (n : BitVec 32) (s : State) : Host.Outcome State Fault Refusal :=
  match s.phase with
  | .dec .size => .next (decSize Config.here hdrLenEscape n s)
  | .enc j .size => .next (encHeader j (.sizeEscape n) .init s)
  | _ => .refused .outOfPlace

end Sys2Proof.Machine
end

