-- ==== Sys2Proof/Machine/Framer.lean ====
section
/-! DEFINITION. The group header framer (41_group_framer.md) and the meaning of GROUP_HDR, which the decoder loads
(rule R156) and the framer writes back (rules R132 and R134). -/

namespace Sys2Proof.Machine

/-- FRAMER_INIT (rule R131): reserve the first placeholder. -/
def framerInit (s : State) : State := { State.append 0 { s with ph := s.outLen } with acc := 0, cnt := 0 }

/-- The flush inside PUSH_TAG (rule R132): write the full accumulator to its placeholder and open a new group. -/
def flushGroup (s : State) : State := framerInit (State.rewrite s.ph s.acc s)

/-- The flush, when the accumulator is full: it happens lazily, at the ninth tag (rule R132). -/
def flushIfFull (s : State) : State := if s.cnt = 8 then flushGroup s else s

/-- PUSH_TAG (rule R132). -/
def pushTag (tag : Bool) (s : State) : State :=
  let s' := flushIfFull s
  { s' with acc := accPush s'.acc tag, cnt := s'.cnt + 1 }

/-- EMIT (rule R133): the token's tag, then its bytes. -/
def emit (i : Instr) (s : State) : State := State.appendBytes (encode i) (pushTag (instrTag i) s)

/-- FRAMER_FINISH (rule R134) and the `finish` that follows it in both jobs (rules R222 and R232); the header byte is
the one rule R134 computes. -/
def framerFinish (tags : Byte) (s : State) : State := finish (State.rewrite s.ph tags s)

/-- HEADER_LOAD (rule R156), the header byte having been read at `pos`. -/
def headerLoad (tags : Byte) (s : State) : State := { s with pos := s.pos + 1, hdr := tags, rem := 8 }

/-- GROUP_HDR (rules R78, R156 and R134): the decoder loads it; the framer writes it to its placeholder when the stream
ends. The flush of a full group writes its header inside the next token's EMIT (rule R132). -/
def execGroupHdr (tags : Byte) (s : State) : Host.Outcome State Fault Refusal :=
  match s.phase with
  | .dec .loop => .next (headerLoad tags s)
  | .enc _ .loop => .next (framerFinish tags s)
  | _ => .refused .outOfPlace

end Sys2Proof.Machine
end

