-- ==== Sys2Proof/Machine/MatchFinder.lean ====
section
/-! DEFINITION. The match finder (43_match_finder.md): hashing, lookup, candidate test, common prefix and registration,
and the decision of MF_STEP. The hash function is an argument (rule R191). -/

namespace Sys2Proof.Machine

/-- Whether the window at a position exists: at least 4 bytes remain (rule R190). -/
abbrev HasWindow (s : State) (p : Nat) : Prop := p + Config.minWin ≤ s.inLen

/-- HASH_WINDOW (rule R191). -/
def hashWindow (h4 : Hash4) (s : State) (p : Nat) : BitVec 16 :=
  h4 (s.inByte p) (s.inByte (p + 1)) (s.inByte (p + 2)) (s.inByte (p + 3))

/-- LOOKUP (rule R192). -/
def lookup (s : State) (h : BitVec 16) : Option Nat := HashTable.lookup s.ht h.toNat

/-- REGISTER (rule R194): a position without a window is not registered. -/
def register (h4 : Hash4) (p : Nat) (s : State) : State :=
  if HasWindow s p then
    { s with ht := HashTable.insert s.ht (hashWindow h4 s p).toNat p, temps := { s.temps with p := p } }
  else { s with temps := { s.temps with p := p } }

/-- Register `n` positions from `p` on, in increasing order (rules R197 and R293). -/
def registerSpan (h4 : Hash4) : Nat → Nat → State → State
  | _, 0, s => s
  | p, n + 1, s => registerSpan h4 (p + 1) n (register h4 p s)

/-- The number of equal bytes of `IN` from `a` and from `b` on, `b` staying below `N_in`, and at most `fuel`. -/
def commonBytes (s : State) : Nat → Nat → Nat → Nat
  | 0, _, _ => 0
  | fuel + 1, a, b => if b < s.inLen ∧ s.inByte a = s.inByte b then commonBytes s fuel (a + 1) (b + 1) + 1 else 0

/-- COMMON_PREFIX (rule R196), with its cap of 65808 and its stop at the end of the input. -/
def commonPrefix (s : State) (c : Nat) : Nat := commonBytes s Config.maxMatch c s.cur

/-- CANDIDATE_TEST (rule R193): a position within the maximum distance. -/
abbrev Usable (s : State) (c : Nat) : Prop := s.cur - c ≤ Config.maxDistEmit

/-- The decision of MF_STEP (rule R197) once the window at `cur` is known to exist: hash, look up, test, compare. The
answer is the token's element, and the state with the temporaries `h`, `cand` and `L` written. -/
def searchWindow (h4 : Hash4) (s : State) : Instr × State :=
  let h := hashWindow h4 s s.cur
  let literal : Instr := .lit (s.inByte s.cur)
  let s1 := { s with temps := { s.temps with h := h, cand := lookup s h } }
  match lookup s h with
  | none => (literal, s1)
  | some c =>
    if Usable s c then
      let l := commonPrefix s c
      let s2 := { s1 with temps := { s1.temps with mlen := BitVec.ofNat 17 l } }
      if Config.minMatchEmit ≤ l then (matchInstr (s.cur - c) l, s2) else (literal, s2)
    else (literal, s1)

/-- The decision of MF_STEP (rules R197 and R199): with fewer than 4 bytes left it is a literal, whatever the table holds. -/
def search (h4 : Hash4) (s : State) : Instr × State :=
  if HasWindow s s.cur then searchWindow h4 s else (.lit (s.inByte s.cur), s)

/-- The rest of MF_STEP after the decision (rule R197): emit the token, register the positions it covers in increasing
order, and advance `cur` past them. -/
def finderEmit (h4 : Hash4) (i : Instr) (len : Nat) (s : State) : State :=
  let s' := registerSpan h4 s.cur len (emit i s)
  { s' with cur := s.cur + len }

end Sys2Proof.Machine
end

