-- ==== Sys2Proof/Machine/Tokens.lean ====
section
/-! DEFINITION. The meanings of LIT, MATCH2, MATCH3 and MATCH4: decoded by DECOMPRESS (rules R110 to R115 and R157 to
R162), emitted by COMPRESS (rule R197) and ENCODE_TOKENS (rule R232). -/

namespace Sys2Proof.Machine

/-- One iteration of BACKREF_COPY (rule R160): append the byte `dist` back and count it. -/
def copyByte (dist : Nat) (s : State) : State :=
  let s' := State.append (s.outByte (s.outLen - dist)) s
  { s' with temps := { s'.temps with k := s'.temps.k + 1 } }

/-- BACKREF_COPY (rule R160) of the bytes that remain, one at a time in increasing order. The flag says that
OVERRUN_HANDLE was reached (rule R161): `out_len = D` with bytes left to copy. -/
def backrefCopy (dist : Nat) : Nat → State → State × Bool
  | 0, s => (s, false)
  | r + 1, s => if s.outLen = s.dlen.toNat then (s, true) else backrefCopy dist r (copyByte dist s)

/-- The registers a copy starts with (rules R159 and R160): the source index, and a count of 0. -/
def beginCopy (dist : Nat) (s : State) : State := { s with temps := { s.temps with src := s.outLen - dist, k := 0 } }

/-- What follows a copy: OVERRUN_HANDLE where it was reached (rule R161), else TAG_ADVANCE (rule R162). Truncate drops the
bytes that remain, and the iteration ends as usual. -/
def endCopy (overrun : Overrun) (r : State × Bool) : State :=
  match r.2, overrun with
  | true, .error => raise .invalidIndex none r.1
  | true, .truncate => tagAdvance r.1
  | false, _ => tagAdvance r.1

/-- BACKREF_CHECK (rule R159), then the copy, the token having been decoded. -/
def decBackref (cfg : Config) (dist len : Nat) (s : State) : State :=
  if s.outLen < dist then raise .invalidIndex none s
  else endCopy cfg.overrun (backrefCopy dist len (beginCopy dist s))

/-- The decode of a match token (rules R111 to R114): its bytes go to `b0` to `b3`, `pos` passes them, and `dist` and `len`
are written. -/
def noteMatch (bytes : List Byte) (dist len : Nat) (s : State) : State :=
  { s with
    pos := s.pos + bytes.length
    temps := { Temps.noteBytes s.temps bytes with dist := BitVec.ofNat 13 dist, len := BitVec.ofNat 17 len } }

/-- A match token in DECOMPRESS. -/
def decMatch (cfg : Config) (i : Instr) (dist len : Nat) (s : State) : State :=
  decBackref cfg dist len (noteMatch (encode i) dist len s)

/-- A literal token in DECOMPRESS (rules R110, R158 and R162). -/
def decLit (v : Byte) (s : State) : State := tagAdvance (State.append v { s with pos := s.pos + 1 })

/-- A token of `len` bytes in an encoder job: COMPRESS emits and registers (rule R197), ENCODE_TOKENS emits and goes on to
the next token (rule R232). -/
def encToken (h4 : Hash4) (i : Instr) (len : Nat) : EncJob → State → State
  | .compress, s => finderEmit h4 i len s
  | .tokens, s => { emit i s with tokIdx := s.tokIdx + 1 }

/-- LIT (rules R80, R104 and R110). -/
def execLit (v : Byte) (s : State) : Host.Outcome State Fault Refusal :=
  match s.phase with
  | .dec .loop => .next (decLit v s)
  | .enc j .loop => .next (encToken Config.here.hash4 (.lit v) 1 j s)
  | _ => .refused .outOfPlace

/-- A match token at whichever point the job is; the tiers differ only in their element and their operands. -/
def matchToken (i : Instr) (dist len : Nat) (s : State) : Host.Outcome State Fault Refusal :=
  match s.phase with
  | .dec .loop => .next (decMatch Config.here i dist len s)
  | .enc j .loop => .next (encToken Config.here.hash4 i len j s)
  | _ => .refused .outOfPlace

/-- MATCH2 (rules R81, R101 and R112). -/
def execMatch2 (la : BitVec 4) (da : BitVec 12) (s : State) : Host.Outcome State Fault Refusal :=
  matchToken (.match2 la da) (matchDist da) (lenA la) s

/-- MATCH3 (rules R82, R102 and R113). -/
def execMatch3 (lb : BitVec 8) (da : BitVec 12) (s : State) : Host.Outcome State Fault Refusal :=
  matchToken (.match3 lb da) (matchDist da) (lenB lb) s

/-- MATCH4 (rules R83, R103 and R114). -/
def execMatch4 (lc : BitVec 16) (da : BitVec 12) (s : State) : Host.Outcome State Fault Refusal :=
  matchToken (.match4 lc da) (matchDist da) (lenC lc) s

end Sys2Proof.Machine
end

