-- ==== Sys2Proof/Machine/Jobs.lean ====
section
/-! DEFINITION. Job start and admission (rules R280 and R281), the validation of TOKENS (rule R231), and the meanings of
the three job commands: each is the atomic start step of its job, whose operations are the steps that follow (log entry 8). -/

namespace Sys2Proof.Machine

/-- The walk of rule R231: the bytes produced by all tokens, or `none` if one breaks the contract. -/
def walkTokens : List Token → Nat → Option Nat
  | [], produced => some produced
  | t :: ts, produced => if t.inContract produced then walkTokens ts (produced + t.size) else none

/-- The uncompressed length of a token sequence (rule R230). -/
def tokensLength (ts : List Token) : Nat := (ts.map Token.size).sum

/-- The whole of rule R231: every token inside the contract, and the total within the bounds. -/
def tokensOk (maxIn : Nat) (ts : List Token) : Bool :=
  match walkTokens ts 0 with
  | none => false
  | some n => decide (n ≤ Config.maxDeclared ∧ n ≤ maxIn)

/-- Check 3 of rule R281: the input is not too large. -/
def inputOk (maxIn : Nat) (c : Command) (n : Nat) : Bool :=
  decide (n ≤ maxIn) && (c != .compress || decide (n ≤ Config.maxDeclared))

/-- ADMIT (rule R281), checks 2 to 4 in their order: the first that fails gives the reason. Check 1, an unknown command,
is made before there is a command (`select`). -/
def admission (cfg : Config) (c : Command) (s : State) : Option Reason :=
  if s.inOverlapsOut then some .aliased
  else if !inputOk cfg.maxIn c s.inLen then some .inputTooLarge
  else if c = .encodeTokens ∧ !tokensOk cfg.maxIn s.tokens then some .badToken
  else none

/-- What every admitted start writes (rules R280, R41 and R22): BUSY, `out_len`, an empty `OUT`; STATUS, ERR_PAYLOAD,
OUT_LEN and the temporaries are unspecified from here on. -/
def beginJob (s : State) : State :=
  { s with
    busy := true
    startReq := false
    outMem := []
    outLen := 0
    status := Config.freeStatus s.draws
    errPayload := Config.freePayload s.draws
    payloadGiven := false
    outLenReg := Config.freeOutLen s.draws
    temps := Config.freeTemps s.draws
    draws := s.draws + 1 }

/-- The start of COMPRESS: every slot EMPTY, `cur`, `acc` and `cnt` 0 (rules R280 and R41). -/
def beginCompress (s : State) : State :=
  { beginJob s with ht := [], cur := 0, acc := 0, cnt := 0, phase := .enc .compress .magic }

/-- The start of ENCODE_TOKENS (rules R280, R41 and R232). -/
def beginTokens (s : State) : State :=
  { beginJob s with acc := 0, cnt := 0, tokIdx := 0, phase := .enc .tokens .magic }

/-- The start of DECOMPRESS; `D` is unspecified until the header is parsed (rules R280 and R41). -/
def beginDecompress (s : State) : State :=
  { beginJob s with pos := 0, hdr := 0, rem := 0, dlen := Config.freeDeclared s.draws, phase := .dec .magic }

/-- The start of a job that is admitted. -/
def begin : Command → State → State
  | .compress, s => beginCompress s
  | .decompress, s => beginDecompress s
  | .encodeTokens, s => beginTokens s

/-- JOB_START (rule R280) with ADMIT (rule R281), one atomic step. -/
def jobStart (cfg : Config) (c : Command) (s : State) : State :=
  match admission cfg c s with
  | some r => rejectAtStart r s
  | none => begin c s

/-- A start has a transition only while BUSY = 0 (rule R290). -/
def startCommand (c : Command) (s : State) : Host.Outcome State Fault Refusal :=
  if s.busy then .refused .startWhileBusy else .next (jobStart Config.here c s)

/-- COMPRESS (rules R220 and R280). -/
def execCompress (s : State) : Host.Outcome State Fault Refusal := startCommand .compress s

/-- DECOMPRESS (rules R150 and R280). -/
def execDecompress (s : State) : Host.Outcome State Fault Refusal := startCommand .decompress s

/-- ENCODE_TOKENS (rules R230 and R280). -/
def execEncodeTokens (s : State) : Host.Outcome State Fault Refusal := startCommand .encodeTokens s

end Sys2Proof.Machine
end

