-- ==== Sys2Proof/Machine/Dispatch.lean ====
section
/-! DEFINITION. exec: one arm per row of spec/opcode_table.json. -/

namespace Sys2Proof.Machine

def exec (i : Instr) (s : State) : Host.Outcome State Fault Refusal :=
  match i with
  | .magic => Sys2Proof.Machine.execMagic s
  | .sizeShort n => Sys2Proof.Machine.execSizeShort n s
  | .sizeEscape n => Sys2Proof.Machine.execSizeEscape n s
  | .groupHdr tags => Sys2Proof.Machine.execGroupHdr tags s
  | .lit v => Sys2Proof.Machine.execLit v s
  | .match2 la da => Sys2Proof.Machine.execMatch2 la da s
  | .match3 lb da => Sys2Proof.Machine.execMatch3 lb da s
  | .match4 lc da => Sys2Proof.Machine.execMatch4 lc da s
  | .compress => Sys2Proof.Machine.execCompress s
  | .decompress => Sys2Proof.Machine.execDecompress s
  | .encodeTokens => Sys2Proof.Machine.execEncodeTokens s

end Sys2Proof.Machine
end

