-- ==== Sys2Proof/Machine/Select.lean ====
section
/-! DEFINITION. What the block does next (rules R166, R222, R232 and R280): which stream element the running job decodes or
emits, which job command a start runs, or which operation that is no element of the opcode table it performs. `step`
only calls this. -/

namespace Sys2Proof.Machine

/-- What comes next. -/
inductive Action where
  /-- Run an instruction on a state. -/
  | exec (i : Instr) (s : State)
  /-- An operation that is no row of the opcode table gives this next state. -/
  | move (s : State)
  /-- No step is enabled. -/
  | stuck (f : Fault)
  deriving DecidableEq, Repr

/-- The most bytes the decoder reads at a place. -/
def placeBytes : Place → Nat
  | .magic => 1
  | .size => maxElementBytes
  | .groupHdr => 1
  | .token false => 1
  | .token true => 4

/-- The offset in `IN` at which a place stands: 0 and 1 for the header (rules R71 and R72), `pos` for the token stream. -/
def placeOffset (s : State) : Place → Nat
  | .magic => 0
  | .size => 1
  | .groupHdr => s.pos
  | .token _ => s.pos

/-- The bytes of `IN` the decoder may read at a place: none at or after `N_in` (rule R152). -/
def fetchBytes (pl : Place) (s : State) : List Byte := s.inBytes (placeOffset s pl) (placeBytes pl)

/-- A read past the end of the stream (rule R152): the bytes before it have been read and `pos` has passed them, and
the payload is `pos`, the index of the read that failed. -/
def readPastEnd (got : List Byte) (s : State) : State :=
  let s' := { s with pos := s.pos + got.length }
  raise .invalidIndex (some s'.pos) s'

/-- What happens when the bytes at a place are no element: the magic byte is missing or wrong (rule R153), the size header
is cut short (rules R153 and R251), or a read of the token stream is past the end (rules R110 to R114, R152 and R156). -/
def decodeFailure : Place → DecodeError → List Byte → State → State
  | .magic, .truncated, _, s => raise .tooShort none s
  | .magic, .badMagic, _, s => raise .invalidMagic none s
  | .size, _, _, s => raise .tooShort none s
  | .groupHdr, _, got, s => readPastEnd got s
  | .token false, _, got, s => readPastEnd got s
  | .token true, _, got, s => readPastEnd got { s with temps := Temps.noteBytes s.temps got }

/-- Decode the element at a place of `IN`. -/
def fetch (pl : Place) (s : State) : Action :=
  match decode pl (fetchBytes pl s) with
  | .ok i _ => .exec i s
  | .bad e => .move (decodeFailure pl e (fetchBytes pl s) s)

/-- The place the token loop of DECOMPRESS reads at (rules R156 and R157). -/
def loopPlace (s : State) : Place := if s.rem = 0 then .groupHdr else .token (tagOf s.hdr)

/-- DECOMPRESS (rules R153 to R163). -/
def selectDec : DecPoint → State → Action
  | .magic, s => fetch .magic s
  | .size, s => fetch .size s
  | .loop, s => if s.outLen < s.dlen.toNat then fetch (loopPlace s) s else .move (finish s)

/-- The uncompressed length a job's size header declares (rules R222 and R232). -/
def encLength : EncJob → State → Nat
  | .compress, s => s.inLen
  | .tokens, s => tokensLength s.tokens

/-- The next token of a job, and the state with the temporaries of its search; none when the tokens are done. -/
def nextToken (h4 : Hash4) : EncJob → State → Option (Instr × State)
  | .compress, s => if s.cur < s.inLen then some (search h4 s) else none
  | .tokens, s => (s.tokens[s.tokIdx]?).map fun t => (tokenInstr t, s)

/-- COMPRESS and ENCODE_TOKENS (rules R221, R222 and R232). After the last token the last group's header is written
(rule R134). -/
def selectEnc (h4 : Hash4) (j : EncJob) : EncPoint → State → Action
  | .magic, s => .exec .magic s
  | .size, s => .exec (sizeInstr (encLength j s)) s
  | .init, s => .move { framerInit s with phase := .enc j .loop }
  | .loop, s =>
    match nextToken h4 j s with
    | some r => .exec r.1 r.2
    | none => .exec (.groupHdr (accFinish s.acc s.cnt)) s

/-- A job start (rules R280 and R281); check 1 of ADMIT rejects a code that names no command. -/
def selectStart (s : State) : Action :=
  match s.cmd with
  | .known c => .exec c.toInstr s
  | .unused _ => .move (rejectAtStart .unknownCommand s)

/-- While no job runs, the only enabled step is a start that the host has asked for (rule R283). -/
def selectIdle (s : State) : Action := if s.startReq then selectStart s else .stuck .idle

/-- The next action of a running job. -/
def selectBusy (h4 : Hash4) (s : State) : Action :=
  match s.phase with
  | .idle => .stuck .idle
  | .dec p => selectDec p s
  | .enc j p => selectEnc h4 j p s

/-- The next action: a platform reset comes first, whenever it is asserted (rule R284). -/
def select (cfg : Config) (s : State) : Action :=
  if s.resetReq then .move (platformReset s)
  else if s.busy then selectBusy cfg.hash4 s
  else selectIdle s

/-! ### Placing one instruction, for the host of this model -/

/-- What a job must have reached for the element at a place to be fetched next (log entry 10). -/
def atPlace (pl : Place) (s : State) : State :=
  match pl with
  | .magic => { s with phase := .dec .magic }
  | .size => { s with phase := .dec .size }
  | .groupHdr => { s with phase := .dec .loop, rem := 0, dlen := BitVec.allOnes 32 }
  | .token tag => { s with phase := .dec .loop, rem := 8, hdr := if tag then 0x80 else 0, dlen := BitVec.allOnes 32 }

/-- The state with bytes put into `IN` where the element at a place is fetched, and a DECOMPRESS running there. -/
def placeInstr (pl : Place) (bs : List Byte) (s : State) : State :=
  let s' := atPlace pl { s with busy := true, startReq := false, resetReq := false }
  let a := placeOffset s' pl
  { s' with inMem := Memory.writeBytes s'.inMem a bs, inLen := max s'.inLen (a + bs.length) }

end Sys2Proof.Machine
end

