-- ==== Sys2Proof/Machine/Step.lean ====
section
/-! DEFINITION. One step of the block, and the state in which the next step runs a given instruction. -/

namespace Sys2Proof.Machine

/-- One step (rule R19): the next action of the block. -/
def step (s : State) : Host.Outcome State Fault Refusal :=
  match select Config.here s with
  | .exec i s' => exec i s'
  | .move s' => .next s'
  | .stuck f => .fault f

/-- The state with a word of the opcode table placed where the next step fetches it (log entry 10). -/
def State.withFetchWord (s : State) (nbits w : Nat) : State := placeInstr (tablePlace nbits w) (tableBytes nbits w) s

end Sys2Proof.Machine
end

