-- ==== Sys2Proof/Machine/HostPort.lean ====
section
/-! DEFINITION. What the host and the platform may do to the block, and what the host may see (rules R22, R23, R64, R284,
R286, R290, R291, R296 and R298). `step` calls none of this. -/

namespace Sys2Proof.Machine

/-- The host writes `CMD`. A running job does not read it, since the job is fixed at its start (rule R280). -/
def hostSetCmd (c : CmdField) (s : State) : State := { s with cmd := c }

/-- The host writes a numeric code into `CMD`, in an integration that encodes it in bits (rules R23 and R254). -/
def hostSetCmdCode (code : Nat) (s : State) : State := hostSetCmd (decodeCommand Config.here.cmdCode code) s

/-- The host provides `IN`, whose place may overlap that of `OUT`: not while BUSY = 1 (rule R291). -/
def hostSetIn (bs : List Byte) (overlap : Bool) (s : State) : Host.Outcome State Fault Refusal :=
  if s.busy then .refused .hostDuty
  else .next { s with inMem := Memory.ofBytes bs, inLen := bs.length, inOverlapsOut := overlap }

/-- The host provides `TOKENS`: not while BUSY = 1 (rule R291). -/
def hostSetTokens (ts : List Token) (s : State) : Host.Outcome State Fault Refusal :=
  if s.busy then .refused .hostDuty else .next { s with tokens := ts }

/-- The host asks for a job start: not while BUSY = 1 (rule R290). The block takes it in its next step (rule R280). -/
def hostStart (s : State) : Host.Outcome State Fault Refusal :=
  if s.busy then .refused .startWhileBusy else .next { s with startReq := true }

/-- The platform asserts a reset, at any time (rule R284). The block takes it in its next step. -/
def assertReset (s : State) : State := { s with resetReq := true }

/-- The host reads STATUS: as a result only while BUSY = 0 (rule R291). -/
def hostReadStatus (s : State) : Host.Outcome Status Fault Refusal :=
  if s.busy then .refused .hostDuty else .next s.status

/-- The host reads ERR_PAYLOAD (rule R291). -/
def hostReadPayload (s : State) : Host.Outcome Nat Fault Refusal :=
  if s.busy then .refused .hostDuty else .next s.errPayload

/-- The host reads OUT_LEN (rule R291). -/
def hostReadOutLen (s : State) : Host.Outcome Nat Fault Refusal :=
  if s.busy then .refused .hostDuty else .next s.outLenReg

/-- The host reads byte `a` of `OUT`: not while BUSY = 1 (rule R291); the result's byte where the job handed one over, and an
unspecified byte otherwise (rules R22, R252 and R296). -/
def hostReadOut (a : Nat) (s : State) : Host.Outcome Byte Fault Refusal :=
  if s.busy then .refused .hostDuty
  else if s.status = .ok ∧ a < s.outLenReg then .next (s.outByte a)
  else .next (Config.freeOut s.draws a)

/-- The observation of a run (rule R298): STATUS, the payload where it is part of the observation, and the result where there is
one. -/
structure Observation where
  status : Status
  payload : Option Nat
  result : Option (List Byte)
  deriving DecidableEq, Repr

/-- The result `OUT[0..OUT_LEN]`. -/
def State.result (s : State) : List Byte := Memory.readBytes s.outMem 0 s.outLenReg

/-- What the host observes; nothing while a job runs (rules R291 and R298). The payload of an InvalidIndex that a backreference
check or an overrun raised is a draw, and no part of the observation (rules R159, R161 and R298). -/
def observe (s : State) : Option Observation :=
  if s.busy then none
  else some
    { status := s.status
      payload := if s.payloadGiven ∧ (s.status = .invalidIndex ∨ s.status = .rejected) then some s.errPayload else none
      result := if s.status = .ok then some s.result else none }

end Sys2Proof.Machine
end

