-- ==== Sys2Proof/Safety.lean ====
section
/-! DEFINITION. The terms that claims use: the invariant of the block, and the meaning of a token sequence and of a framed
stream as plain functions on lists (rules R77, R78, R135 and R234), against which the jobs are stated. -/

namespace Sys2Proof.Machine

/-! ### The invariant -/

/-- What holds of the input side of an encoder job, wherever the job stands: for COMPRESS the cursor bound of rule R24 and
the candidate invariant of rules R34 and R195; for ENCODE_TOKENS the validation of rule R231. -/
def JobOk (cfg : Config) (s : State) : EncJob → Prop
  | .compress =>
    s.cur ≤ s.inLen ∧ s.inLen ≤ Config.maxDeclared ∧
      ∀ c ∈ s.ht, c.2 < s.cur ∧ c.2 + Config.minWin ≤ s.inLen ∧ c.1 = (hashWindow cfg.hash4 s c.2).toNat
  | .tokens => s.tokIdx ≤ s.tokens.length ∧ tokensOk cfg.maxIn s.tokens = true

/-- What holds at each point of a job: the bounds of rules R25, R26, R28, R29, R32 and R161. -/
def PointOk (cfg : Config) (s : State) : Prop :=
  match s.phase with
  | .idle => True
  | .dec .magic => s.pos = 0 ∧ s.outLen = 0
  | .dec .size => s.pos = 0 ∧ s.outLen = 0 ∧ 4 ≤ s.inLen
  | .dec .loop => 4 ≤ s.pos ∧ s.pos ≤ s.inLen ∧ s.outLen ≤ s.dlen.toNat ∧ s.dlen.toNat ≤ cfg.maxOut ∧ s.rem.toNat ≤ 8
  | .enc j .magic => JobOk cfg s j ∧ s.outLen = 0
  | .enc j .size => JobOk cfg s j ∧ s.outLen = 1
  | .enc j .init => JobOk cfg s j ∧ (s.outLen = hdrLenShort ∨ s.outLen = hdrLenEscape)
  | .enc j .loop =>
    JobOk cfg s j ∧ hdrLenShort ≤ s.ph ∧ s.ph < s.outLen ∧ s.cnt.toNat ≤ 8 ∧ s.acc.toNat < 2 ^ s.cnt.toNat

/-- The invariant of the block under a configuration. -/
structure State.Inv (cfg : Config) (s : State) : Prop where
  /-- The buffers and the table are in canonical form. -/
  inWf : Memory.wf s.inMem = true
  outWf : Memory.wf s.outMem = true
  htWf : HashTable.wf s.ht = true
  /-- BUSY says whether a job runs (rule R22). -/
  busyIff : s.busy = true ↔ s.phase ≠ .idle
  /-- No start is pending while a job runs (rule R290). -/
  noStart : s.busy = true → s.startReq = false
  /-- A running job was admitted (rule R281). -/
  admitted : s.busy = true → s.inOverlapsOut = false ∧ s.inLen ≤ cfg.maxIn
  /-- `OUT` holds nothing at or after `out_len` while a job runs (rules R13 and R26). -/
  outBound : s.busy = true → ∀ c ∈ s.outMem, c.1 < s.outLen
  /-- A payload that a rule gave is that of an ended job, in which rule R298 lets it be observed. -/
  given : s.payloadGiven = true → s.busy = false ∧ (s.status = .invalidIndex ∨ s.status = .rejected)
  /-- The bounds at the point the job has reached. -/
  point : PointOk cfg s

/-- Every position of a state fits in `ADDR_BITS` bits (rules R24, R25, R34 and R40). -/
def State.PositionsFit (cfg : Config) (s : State) : Prop :=
  (∀ j p, s.phase = .enc j p → j = .compress → s.cur < 2 ^ cfg.addrBits ∧ ∀ c ∈ s.ht, c.2 < 2 ^ cfg.addrBits - 1) ∧
    (∀ p, s.phase = .dec p → s.pos < 2 ^ cfg.addrBits)

/-- The stream ends inside what the token loop of a DECOMPRESS reads next: the group header, the literal, or a byte of the match
token that its first byte selects (rules R110 to R114, R152 and R156). -/
def State.RunsOut (s : State) : Prop :=
  (s.rem = 0 ∧ s.pos = s.inLen) ∨
    (s.rem ≠ 0 ∧ tagOf s.hdr = false ∧ s.pos = s.inLen) ∨
    (s.rem ≠ 0 ∧ tagOf s.hdr = true ∧
      (s.inLen < s.pos + 2 ∨
        ((s.inByte s.pos).toNat / 16 = 0 ∧ s.inLen < s.pos + 3) ∨
        ((s.inByte s.pos).toNat / 16 = 1 ∧ s.inLen < s.pos + 4)))

/-! ### The meaning of tokens and of a framed stream -/

/-- Append `n` bytes, each copied from `d` bytes back (rule R160). -/
def expandCopy (d : Nat) : Nat → List Byte → List Byte
  | 0, out => out
  | n + 1, out => expandCopy d n (out ++ [out.getD (out.length - d) 0])

/-- The output after one more token (rule R234). -/
def expandToken (out : List Byte) : Token → List Byte
  | .lit b => out ++ [b]
  | .copy d l => expandCopy d l out

/-- The expansion of a token sequence (rule R234). -/
def expand (ts : List Token) : List Byte := ts.foldl expandToken []

/-- The tag of a token (rule R15). -/
def tokenTag : Token → Bool
  | .lit _ => false
  | .copy _ _ => true

/-- The bytes of a token (rule R100). -/
def tokenBytes (t : Token) : List Byte := encode (tokenInstr t)

/-- The header of a group from position `i` on: the tag of token `i` at bit `7 - i`, unused low bits 0 (rules R78, R79 and R135). -/
def groupBits : Nat → List Token → Byte
  | _, [] => 0
  | i, t :: ts => (tagBit (tokenTag t) <<< (7 - i)) ||| groupBits (i + 1) ts

/-- One group: its header and the bytes of its tokens (rule R77). -/
def groupBytes (ts : List Token) : List Byte := groupBits 0 ts :: (ts.map tokenBytes).flatten

/-- The groups of a token sequence, 8 tokens each but the last (rule R77); the first argument is at least the number of groups. -/
def groups : Nat → List Token → List (List Token)
  | 0, _ => []
  | _ + 1, [] => []
  | n + 1, t :: ts => (t :: ts).take 8 :: groups n ((t :: ts).drop 8)

/-- The token stream of a token sequence: one empty group when there are no tokens (rules R77 and R134). -/
def frame (ts : List Token) : List Byte :=
  if ts = [] then groupBytes [] else ((groups ts.length ts).map groupBytes).flatten

/-- The encoded stream of a token sequence: `MAGIC ++ SIZE_HEADER ++ TOKEN_STREAM` (rules R70, R74 and R77). -/
def streamOf (ts : List Token) : List Byte :=
  encode .magic ++ encode (sizeInstr (tokensLength ts)) ++ frame ts

/-- A token as the match finder emits it (rule R198). -/
def tokenEmitted : Token → Prop
  | .lit _ => True
  | .copy d l => 1 ≤ d ∧ d ≤ 4095 ∧ 4 ≤ l ∧ l ≤ 65808

/-- The content of the input buffer. -/
def State.input (s : State) : List Byte := Memory.readBytes s.inMem 0 s.inLen

/-! ### Runs -/

/-- A job of a command is asked for, and the block is idle. -/
def State.Ready (c : Command) (s : State) : Prop :=
  s.cmd = .known c ∧ s.busy = false ∧ s.startReq = true ∧ s.resetReq = false

/-- From `s` the block reaches `t` in some positive number of steps, and no job runs in `t`. -/
def RunsTo (s t : State) : Prop := ∃ k, Host.Core.run Sys2Proof.core (k + 1) s = .next t ∧ t.busy = false

/-- From `s` the block reaches the end of a job that finishes with OK and this result. -/
def FinishesWith (s : State) (result : List Byte) : Prop :=
  ∃ t, RunsTo s t ∧ t.status = .ok ∧ t.outLenReg = result.length ∧ t.result = result

end Sys2Proof.Machine
end

