-- ==== Sys2Proof/Certificates/Slice0/Obligations.lean ====
section
/-! DEFINITION. The statements for the provers, from the numbered rules of spec/. Each is about every state, operand or
byte sequence it quantifies over; none is about a program. -/

open Sys2Proof Sys2Proof.Machine

/-! ### Encoding -/

/-- Decoding, at its place, what an element encodes to gives the element back, with every operand at every value the
encoding admits, and takes exactly its bytes (rules R71 to R73, R78, R80 to R83 and R87). A zero short size is the one
element whose reading depends on what follows: four more bytes make it an escape (rule R75). -/
def Obligations.DecodeOfEncodeIsTheElement : Prop :=
  ∀ (i : Instr) (pl : Place) (rest : List Byte), i.wf = true → placeOf i = some pl →
    (i = .sizeShort 0 → rest.length < 4) →
    decode pl (encode i ++ rest) = .ok i (encode i).length

/-- The other direction: whatever decodes is well formed, stands at that place, and encodes to exactly the bytes that
were taken, so that no two byte strings are one element (rules R85, R87, R89 and R117). -/
def Obligations.EncodeOfDecodeIsTheBytes : Prop :=
  ∀ (pl : Place) (bs : List Byte) (i : Instr) (n : Nat), decode pl bs = .ok i n →
    i.wf = true ∧ placeOf i = some pl ∧ n ≤ bs.length ∧ encode i = bs.take n ∧ n = (encode i).length

/-- The token round trip of rule R116, for every distance and length of the wire format and every literal, whatever
follows the token. -/
def Obligations.TokenRoundTrip : Prop :=
  (∀ (d l : Nat) (rest : List Byte), 1 ≤ d → d ≤ 4096 → 3 ≤ l → l ≤ 65808 →
    ∃ i, decode (.token true) (tokenBytes (.copy d l) ++ rest) = .ok i (tokenBytes (.copy d l)).length ∧
      instrToken i = some (.copy d l)) ∧
  ∀ (b : Byte) (rest : List Byte), decode (.token false) (tokenBytes (.lit b) ++ rest) = .ok (.lit b) 1

/-- The field assembly of rule R85, as numbers, for every byte string of the selected length. -/
def Obligations.DecodedFieldsOfEachTier : Prop :=
  ∀ (b0 b1 : Byte) (rest : List Byte),
    (b0.toNat / 16 = 0 → ∀ b2 : Byte,
      ∃ i, decode (.token true) (b0 :: b1 :: b2 :: rest) = .ok i 3 ∧
        instrToken i = some (.copy (b1.toNat % 16 * 256 + b2.toNat + 1) (b0.toNat % 16 * 16 + b1.toNat / 16 + 17))) ∧
    (b0.toNat / 16 = 1 → ∀ b2 b3 : Byte,
      ∃ i, decode (.token true) (b0 :: b1 :: b2 :: b3 :: rest) = .ok i 4 ∧
        instrToken i = some (.copy (b2.toNat % 16 * 256 + b3.toNat + 1)
          (b0.toNat % 16 * 4096 + b1.toNat * 16 + b2.toNat / 16 + 273))) ∧
    (2 ≤ b0.toNat / 16 →
      ∃ i, decode (.token true) (b0 :: b1 :: rest) = .ok i 2 ∧
        instrToken i = some (.copy (b0.toNat % 16 * 256 + b1.toNat + 1) (b0.toNat / 16 + 1)))

/-- The bytes of every token the encoder may be given, as numbers, tier by tier (rules R81 to R83, R86 and R101 to R104). -/
def Obligations.EncodedBytesOfEachTier : Prop :=
  (∀ d l : Nat, 1 ≤ d → d ≤ 4096 → 3 ≤ l → l ≤ 65808 →
    (tokenBytes (.copy d l)).map BitVec.toNat =
      if l ≤ 16 then [(l - 1) * 16 + (d - 1) / 256, (d - 1) % 256]
      else if l ≤ 272 then [(l - 17) / 16, (l - 17) % 16 * 16 + (d - 1) / 256, (d - 1) % 256]
      else [16 + (l - 273) / 4096, (l - 273) / 16 % 256, (l - 273) % 16 * 16 + (d - 1) / 256, (d - 1) % 256]) ∧
  ∀ b : Byte, tokenBytes (.lit b) = [b]

/-- The encoder's choice and bytes of the size header (rule R74), its length with the magic byte, and the reading back of
the empty input's header. -/
def Obligations.SizeHeaderWritten : Prop :=
  (∀ n : Nat, n ≤ 0xFFFFFFFF →
    (encode (sizeInstr n)).map BitVec.toNat =
        (if n < 0xFFFFFF then [n % 256, n / 256 % 256, n / 65536]
         else [0, 0, 0, n % 256, n / 256 % 256, n / 65536 % 256, n / 16777216]) ∧
      (encode (sizeInstr n)).length + 1 = if n < 0xFFFFFF then 4 else 8) ∧
  ∀ rest : List Byte, rest.length < 4 → decode .size (encode (sizeInstr 0) ++ rest) = .ok (.sizeShort 0) 3

/-- A few words written out from the encodings of the spec (rules R71 to R73, R78, R80 to R83). -/
def Obligations.SpecWordsDecode : Prop :=
  decode .magic [0x11] = .ok .magic 1 ∧
  decode .magic [0x10] = .bad .badMagic ∧
  decode .size [0xFE, 0xFF, 0xFF] = .ok (.sizeShort 0xFFFFFE) 3 ∧
  decode .size [0, 0, 0, 0xFF, 0xFF, 0xFF, 0x00] = .ok (.sizeEscape 0x00FFFFFF) 7 ∧
  decode .groupHdr [0x40] = .ok (.groupHdr 0x40) 1 ∧
  decode (.token false) [0x11] = .ok (.lit 0x11) 1 ∧
  decode (.token true) [0x2F, 0xFF] = .ok (.match2 2 0xFFF) 2 ∧
  decode (.token true) [0x00, 0xF1, 0x23] = .ok (.match3 0x0F 0x123) 3 ∧
  decode (.token true) [0x10, 0xEE, 0xF0, 0x09] = .ok (.match4 0x0EEF 0x009) 4 ∧
  decodeTableWord 8 0x11 = some .magic ∧
  decodeTableWord 8 0x10 = some (.match4 0 0)

/-! ### What a step runs -/

/-- In a running DECOMPRESS, a step runs the element whose bytes stand where the job reads: at offset 0, at offset 1, and at
`pos` while output is still needed (rules R71, R72, R155 to R157). Nothing is added around `exec`. -/
def Obligations.StepRunsTheFetchedElement : Prop :=
  ∀ (s : State) (i : Instr) (n : Nat), s.resetReq = false → s.busy = true →
    (s.phase = .dec .magic → decode .magic (s.inBytes 0 1) = .ok i n → step s = exec i s) ∧
    (s.phase = .dec .size → decode .size (s.inBytes 1 7) = .ok i n → step s = exec i s) ∧
    (s.phase = .dec .loop → s.outLen < s.dlen.toNat → s.rem = 0 →
      decode .groupHdr (s.inBytes s.pos 1) = .ok i n → step s = exec i s) ∧
    (s.phase = .dec .loop → s.outLen < s.dlen.toNat → s.rem ≠ 0 → tagOf s.hdr = false →
      decode (.token false) (s.inBytes s.pos 1) = .ok i n → step s = exec i s) ∧
    (s.phase = .dec .loop → s.outLen < s.dlen.toNat → s.rem ≠ 0 → tagOf s.hdr = true →
      decode (.token true) (s.inBytes s.pos 4) = .ok i n → step s = exec i s)

/-- A start that the host has asked for runs the command in `CMD` (rule R280). -/
def Obligations.StepRunsTheStartedCommand : Prop :=
  ∀ (s : State) (c : Command), s.Ready c → step s = exec c.toInstr s

/-- In a running encoder job, a step emits the next element of the stream: MAGIC, the size header of the uncompressed
length, each token in order, and at the end the last group's header; between header and tokens it is FRAMER_INIT (rules
R221, R222, R232 and R134). -/
def Obligations.StepEmitsTheNextElement : Prop :=
  ∀ (s : State) (j : EncJob), s.resetReq = false → s.busy = true →
    (s.phase = .enc j .magic → step s = exec .magic s) ∧
    (s.phase = .enc j .size → step s = exec (sizeInstr (encLength j s)) s) ∧
    (s.phase = .enc j .init → step s = .next { framerInit s with phase := .enc j .loop }) ∧
    (s.phase = .enc j .loop → ∀ i s', nextToken Config.here.hash4 j s = some (i, s') → step s = exec i s') ∧
    (s.phase = .enc j .loop → nextToken Config.here.hash4 j s = none →
      step s = exec (.groupHdr (accFinish s.acc s.cnt)) s)

/-- At power-on BUSY is 0, and while no job runs and neither a start nor a reset is asked for, no step is enabled (rule R283). -/
def Obligations.NoStepWithoutAStart : Prop :=
  State.reset.busy = false ∧ step State.reset = .fault .idle ∧
  ∀ s : State, s.busy = false → s.startReq = false → s.resetReq = false → step s = .fault .idle

/-- A platform reset, whatever runs: BUSY is 0, no job runs, and the buffers are in canonical form; nothing else is said,
because every other piece of state is unspecified (rule R284). -/
def Obligations.ResetAbandonsTheJob : Prop :=
  ∀ s : State, s.resetReq = true → ∃ t, step s = .next t ∧ t.busy = false ∧ t.phase = .idle ∧ t.startReq = false ∧
    t.resetReq = false ∧ Memory.wf t.inMem = true ∧ Memory.wf t.outMem = true ∧ HashTable.wf t.ht = true

/-- A code in `CMD` that names no command is rejected with reason 5 (rules R254 and R281), and nothing else changes. The model's
readings it rests on: an unused code is a value of `CMD` (log entry 21), the start is an event bit (log entry 3), and OUT_LEN
keeps its value, by rule R281 over rule R282 (log entry 13). -/
def Obligations.UnknownCommandIsRejected : Prop :=
  ∀ (s : State) (n : Nat), s.resetReq = false → s.busy = false → s.startReq = true → s.cmd = .unused n →
    step s = .next
        { s with status := .rejected, errPayload := 5, payloadGiven := true, busy := false, startReq := false }

/-! ### The header -/

/-- The magic and minimum-length tests in their order (rule R153). On an error the output is untouched and only the
result fields change; otherwise the job goes on to the size header. -/
def Obligations.HeaderErrorsInOrder : Prop :=
  ∀ s : State, s.resetReq = false → s.busy = true → s.phase = .dec .magic →
    ∃ t, step s = .next t ∧
      if s.inLen = 0 ∨ (s.inByte 0 = 0x11 ∧ s.inLen < 4) then
        t = { s with status := .tooShort, errPayload := t.errPayload, payloadGiven := t.payloadGiven,
                     outLenReg := t.outLenReg, busy := false,
                     phase := .idle, draws := t.draws }
      else if s.inByte 0 ≠ 0x11 then
        t = { s with status := .invalidMagic, errPayload := t.errPayload, payloadGiven := t.payloadGiven,
                     outLenReg := t.outLenReg, busy := false,
                     phase := .idle, draws := t.draws }
      else t = { s with phase := .dec .size }

/-- MAGIC in DECOMPRESS, the byte having been read: on to the size header when the stream holds 4 bytes (rule R153). -/
def Obligations.MagicIsParsed : Prop :=
  ∀ s : State, s.phase = .dec .magic → 4 ≤ s.inLen → exec .magic s = .next { s with phase := .dec .size }

/-- SIZE_SHORT and SIZE_ESCAPE in DECOMPRESS (rule R154): `D`, `pos` and the cleared registers, or the rejection of a length
above MAX_OUT with reason 3, which changes only `D`, `pos` and the result fields. -/
def Obligations.SizeHeaderIsParsed : Prop :=
  ∀ s : State, s.phase = .dec .size →
    (∀ n : BitVec 24, ∃ t, exec (.sizeShort n) s = .next t ∧
      if n.toNat ≤ Config.here.maxOut then
        t = { s with dlen := n.setWidth 32, pos := 4, outLen := 0, hdr := 0, rem := 0, phase := .dec .loop }
      else
        t = { s with dlen := n.setWidth 32, pos := 4, status := .rejected, errPayload := 3, payloadGiven := true,
                     outLenReg := t.outLenReg,
                     busy := false, phase := .idle, draws := t.draws }) ∧
    (∀ n : BitVec 32, ∃ t, exec (.sizeEscape n) s = .next t ∧
      if n.toNat ≤ Config.here.maxOut then
        t = { s with dlen := n, pos := 8, outLen := 0, hdr := 0, rem := 0, phase := .dec .loop }
      else
        t = { s with dlen := n, pos := 8, status := .rejected, errPayload := 3, payloadGiven := true,
                     outLenReg := t.outLenReg, busy := false,
                     phase := .idle, draws := t.draws })

/-- The size-header parse of rule R154 from the bytes of `IN`: LE24, the escape when it is 0 and the stream has 8 bytes,
and the check against MAX_OUT. -/
def Obligations.DeclaredLengthFromTheStream : Prop :=
  ∀ s : State, s.resetReq = false → s.busy = true → s.phase = .dec .size → 4 ≤ s.inLen →
    ∀ le24 le32 : Nat,
      le24 = (s.inByte 1).toNat + 256 * (s.inByte 2).toNat + 65536 * (s.inByte 3).toNat →
      le32 = (s.inByte 4).toNat + 256 * (s.inByte 5).toNat + 65536 * (s.inByte 6).toNat +
        16777216 * (s.inByte 7).toNat →
      ∃ t, step s = .next t ∧
        t.dlen.toNat = (if le24 = 0 ∧ 8 ≤ s.inLen then le32 else le24) ∧
        t.pos = (if le24 = 0 ∧ 8 ≤ s.inLen then 8 else 4) ∧
        (t.dlen.toNat ≤ Config.here.maxOut →
          t = { s with dlen := t.dlen, pos := t.pos, outLen := 0, hdr := 0, rem := 0, phase := .dec .loop }) ∧
        (Config.here.maxOut < t.dlen.toNat → t.status = .rejected ∧ t.errPayload = 3 ∧ t.busy = false)

/-- MAGIC, SIZE_SHORT and SIZE_ESCAPE in an encoder job (rule R221): their bytes are appended, every byte of `OUT` outside
them reads as before, and nothing else changes but the point of the job. -/
def Obligations.HeaderElementsAreWritten : Prop :=
  ∀ (s : State) (j : EncJob),
    (s.phase = .enc j .magic → ∃ t, exec .magic s = .next t ∧
      t = { s with outMem := t.outMem, outLen := s.outLen + 1, phase := .enc j .size } ∧
      ∀ x, t.outByte x = if x = s.outLen then 0x11 else s.outByte x) ∧
    (s.phase = .enc j .size →
      (∀ n : BitVec 24, ∃ t, exec (.sizeShort n) s = .next t ∧
        t = { s with outMem := t.outMem, outLen := s.outLen + 3, phase := .enc j .init } ∧
        (∀ k, k < 3 → (t.outByte (s.outLen + k)).toNat = n.toNat / 256 ^ k % 256) ∧
        ∀ x, x < s.outLen ∨ s.outLen + 3 ≤ x → t.outByte x = s.outByte x) ∧
      ∀ n : BitVec 32, ∃ t, exec (.sizeEscape n) s = .next t ∧
        t = { s with outMem := t.outMem, outLen := s.outLen + 7, phase := .enc j .init } ∧
        (∀ k, k < 3 → t.outByte (s.outLen + k) = 0) ∧
        (∀ k, k < 4 → (t.outByte (s.outLen + 3 + k)).toNat = n.toNat / 256 ^ k % 256) ∧
        ∀ x, x < s.outLen ∨ s.outLen + 7 ≤ x → t.outByte x = s.outByte x)

/-! ### The group header -/

/-- GROUP_HDR in DECOMPRESS (rule R156): `hdr` is the byte, `rem` is 8, `pos` has passed it; nothing else changes. -/
def Obligations.GroupHeaderIsLoaded : Prop :=
  ∀ (s : State) (tags : Byte), s.phase = .dec .loop →
    exec (.groupHdr tags) s = .next { s with pos := s.pos + 1, hdr := tags, rem := 8 }

/-- GROUP_HDR at the end of an encoder job (rules R134 and R282): the byte at `ph` is the header, every other byte of `OUT`
reads as before, and the job ends with OK and `OUT_LEN = out_len`; nothing else changes. -/
def Obligations.LastGroupHeaderEndsTheJob : Prop :=
  ∀ (s : State) (j : EncJob) (tags : Byte), s.phase = .enc j .loop →
    ∃ t, exec (.groupHdr tags) s = .next t ∧
      t = { s with outMem := t.outMem, status := .ok, errPayload := t.errPayload, payloadGiven := false,
                   outLenReg := s.outLen, busy := false,
                   phase := .idle, draws := t.draws } ∧
      ∀ x, t.outByte x = if x = s.ph then tags else s.outByte x

/-- The header of the last group, as a number (rule R134). -/
def Obligations.LastGroupHeaderIsLeftAligned : Prop :=
  ∀ (acc : Byte) (cnt : BitVec 4), cnt.toNat ≤ 8 →
    (accFinish acc cnt).toNat = acc.toNat * 2 ^ (8 - cnt.toNat) % 256

/-- FRAMER_INIT (rule R131), as the step of an encoder job after its size header: `ph` is the old `out_len`, a placeholder 0x00 is
appended there, `acc` and `cnt` are 0; every other byte of `OUT` reads as before and nothing else changes. -/
def Obligations.FirstPlaceholderIsReserved : Prop :=
  ∀ (s : State) (j : EncJob), s.resetReq = false → s.busy = true → s.phase = .enc j .init →
    ∃ t, step s = .next t ∧
      t = { s with outMem := t.outMem, ph := s.outLen, outLen := s.outLen + 1, acc := 0, cnt := 0,
                   phase := .enc j .loop } ∧
      ∀ x, t.outByte x = if x = s.outLen then 0 else s.outByte x

/-- PUSH_TAG (rule R132): into an open group the tag is shifted in; into a full one the old header is written back, a new
placeholder is opened at `out_len`, and the tag is the first of the new group. -/
def Obligations.TagIsPushed : Prop :=
  ∀ (s : State) (tag : Bool),
    (s.cnt ≠ 8 →
      pushTag tag s = { s with acc := (pushTag tag s).acc, cnt := s.cnt + 1 } ∧
        (pushTag tag s).acc.toNat = (2 * s.acc.toNat + tag.toNat) % 256) ∧
    (s.cnt = 8 → s.ph < s.outLen →
      pushTag tag s =
          { s with outMem := (pushTag tag s).outMem, outLen := s.outLen + 1, ph := s.outLen,
                   acc := (pushTag tag s).acc, cnt := 1 } ∧
        (pushTag tag s).acc.toNat = tag.toNat ∧
        ∀ x, (pushTag tag s).outByte x =
          if x = s.ph then s.acc else if x = s.outLen then 0 else s.outByte x)

/-! ### Tokens in DECOMPRESS -/

/-- LIT in DECOMPRESS (rules R110, R158 and R162): one byte is appended, `pos` passes the token, the tag is used up; every
other byte of `OUT` reads as before and nothing else changes. -/
def Obligations.LiteralIsDecoded : Prop :=
  ∀ (s : State) (v : Byte), s.phase = .dec .loop →
    ∃ t, exec (.lit v) s = .next t ∧
      t = { s with outMem := t.outMem, outLen := s.outLen + 1, pos := s.pos + 1, hdr := t.hdr, rem := s.rem - 1 } ∧
      t.hdr.toNat = 2 * s.hdr.toNat % 256 ∧
      ∀ x, t.outByte x = if x = s.outLen then v else s.outByte x

/-- MATCH2, MATCH3 and MATCH4 in DECOMPRESS where the backreference and the declared length allow the whole copy (rules R111
to R114, R159, R160 and R162): `len` bytes are appended, each the one `dist` before it, also where that one is copied by
the same token (rule R67); `pos` passes the token, the tag is used up, the temporaries hold the token; every other byte of
`OUT` reads as before and nothing else changes. -/
def Obligations.MatchIsCopied : Prop :=
  ∀ (s : State) (i : Instr) (d l : Nat), s.phase = .dec .loop → i.wf = true → instrToken i = some (.copy d l) →
    d ≤ s.outLen → s.outLen + l ≤ s.dlen.toNat →
    ∃ t, exec i s = .next t ∧
      t = { s with outMem := t.outMem, outLen := s.outLen + l, pos := s.pos + (encode i).length, hdr := t.hdr,
                   rem := s.rem - 1, temps := t.temps } ∧
      t.hdr.toNat = 2 * s.hdr.toNat % 256 ∧
      t.temps.dist.toNat = d ∧ t.temps.len.toNat = l ∧ t.temps.src = s.outLen - d ∧ t.temps.k.toNat = l ∧
      (∀ x, s.outLen ≤ x → x < s.outLen + l → t.outByte x = t.outByte (x - d)) ∧
      ∀ x, x < s.outLen ∨ s.outLen + l ≤ x → t.outByte x = s.outByte x

/-- BACKREF_CHECK (rule R159): a distance beyond the bytes produced raises InvalidIndex with nothing written to `OUT`; any
other distance gives the source index, whether or not the copy then meets the declared length. That `src` still holds the
index after the token's step, where rule R33 leaves it unspecified, is the model's choice (log entry 14). -/
def Obligations.BackreferenceIsChecked : Prop :=
  ∀ (s : State) (i : Instr) (d l : Nat), s.phase = .dec .loop → i.wf = true → instrToken i = some (.copy d l) →
    ∃ t, exec i s = .next t ∧
      (s.outLen < d →
        t = { s with pos := s.pos + (encode i).length, temps := t.temps, status := .invalidIndex,
                     errPayload := t.errPayload, payloadGiven := false, outLenReg := t.outLenReg, busy := false,
                     phase := .idle, draws := t.draws }) ∧
      (d ≤ s.outLen → t.temps.src = s.outLen - d)

/-- OVERRUN_HANDLE (rule R161), for a match that would carry `out_len` past `D`: the copy stops at `D`, and under Truncate
the loop goes on from there, under Error the job ends with InvalidIndex. -/
def Obligations.OverrunStopsAtTheDeclaredLength : Prop :=
  ∀ (s : State) (i : Instr) (d l : Nat), s.phase = .dec .loop → i.wf = true → instrToken i = some (.copy d l) →
    d ≤ s.outLen → s.outLen ≤ s.dlen.toNat → s.dlen.toNat < s.outLen + l →
    ∃ t, exec i s = .next t ∧ t.outLen = s.dlen.toNat ∧
      (∀ x, s.outLen ≤ x → x < s.dlen.toNat → t.outByte x = t.outByte (x - d)) ∧
      (∀ x, x < s.outLen ∨ s.dlen.toNat ≤ x → t.outByte x = s.outByte x) ∧
      match Config.here.overrun with
      | .truncate =>
        t = { s with outMem := t.outMem, outLen := s.dlen.toNat, pos := s.pos + (encode i).length, hdr := t.hdr,
                     rem := s.rem - 1, temps := t.temps } ∧
          t.hdr.toNat = 2 * s.hdr.toNat % 256
      | .error =>
        t = { s with outMem := t.outMem, outLen := s.dlen.toNat, pos := s.pos + (encode i).length, temps := t.temps,
                     status := .invalidIndex, errPayload := t.errPayload, payloadGiven := false,
                     outLenReg := t.outLenReg, busy := false,
                     phase := .idle, draws := t.draws }

/-- A read past the end of the stream (rule R152): while output is needed, an element whose bytes run out raises InvalidIndex
with the index of the failed read, which is `N_in`; `OUT` is untouched. -/
def Obligations.ReadPastTheEndRaises : Prop :=
  ∀ s : State, s.resetReq = false → s.busy = true → s.phase = .dec .loop → s.outLen < s.dlen.toNat → s.pos ≤ s.inLen →
    s.RunsOut →
    ∃ t, step s = .next t ∧
      t = { s with pos := s.inLen, temps := t.temps, status := .invalidIndex, errPayload := s.inLen,
                   payloadGiven := true,
                   outLenReg := t.outLenReg, busy := false, phase := .idle, draws := t.draws }

/-- The end of a DECOMPRESS (rule R163): STATUS OK, `OUT_LEN = D`, the output as it stands, whatever is left of the header
byte and of the stream. -/
def Obligations.DecompressFinishesAtTheDeclaredLength : Prop :=
  ∀ s : State, s.resetReq = false → s.busy = true → s.phase = .dec .loop → s.outLen = s.dlen.toNat →
    ∃ t, step s = .next t ∧
      t = { s with status := .ok, errPayload := t.errPayload, payloadGiven := t.payloadGiven,
                   outLenReg := s.dlen.toNat, busy := false, phase := .idle,
                   draws := t.draws }

/-! ### Tokens in the encoder jobs -/

/-- LIT, MATCH2, MATCH3 and MATCH4 in ENCODE_TOKENS (rules R132, R133 and R232): the tag is pushed, the token's bytes are
appended after it, and the job goes on to the next token; `HT` and `IN` are not touched. -/
def Obligations.TokenIsEncoded : Prop :=
  ∀ (s : State) (i : Instr) (tok : Token), s.phase = .enc .tokens .loop → instrToken i = some tok →
    ∃ t, exec i s = .next t ∧
      t = { s with outMem := t.outMem, outLen := t.outLen, acc := t.acc, cnt := t.cnt, ph := t.ph,
                   tokIdx := s.tokIdx + 1 } ∧
      t.acc = (pushTag (tokenTag tok) s).acc ∧ t.cnt = (pushTag (tokenTag tok) s).cnt ∧
      t.ph = (pushTag (tokenTag tok) s).ph ∧
      t.outLen = (pushTag (tokenTag tok) s).outLen + (encode i).length ∧
      (∀ k, k < (encode i).length →
        (encode i)[k]? = some (t.outByte ((pushTag (tokenTag tok) s).outLen + k))) ∧
      ∀ x, x < (pushTag (tokenTag tok) s).outLen ∨ t.outLen ≤ x → t.outByte x = (pushTag (tokenTag tok) s).outByte x

/-- LIT, MATCH2, MATCH3 and MATCH4 in COMPRESS (rules R133, R194 and R197): the output and the framer change as in
ENCODE_TOKENS, `cur` advances by the token's length, and every position the token covers that has a window is registered
in increasing order, so that each slot holds the last of them that hashes to it and every other slot is as before. -/
def Obligations.TokenIsEmittedAndRegistered : Prop :=
  ∀ (s : State) (i : Instr) (tok : Token), s.phase = .enc .compress .loop → instrToken i = some tok →
    ∃ t, exec i s = .next t ∧
      t = { s with outMem := (emit i s).outMem, outLen := (emit i s).outLen, acc := (emit i s).acc, cnt := (emit i s).cnt,
                   ph := (emit i s).ph, ht := t.ht, temps := t.temps, cur := s.cur + tok.size } ∧
      (∀ p, s.cur ≤ p → p < s.cur + tok.size → p + 4 ≤ s.inLen →
        (∀ q, p < q → q < s.cur + tok.size → q + 4 ≤ s.inLen →
          hashWindow Config.here.hash4 s q ≠ hashWindow Config.here.hash4 s p) →
        lookup t (hashWindow Config.here.hash4 s p) = some p) ∧
      ∀ h, (∀ p, s.cur ≤ p → p < s.cur + tok.size → p + 4 ≤ s.inLen → hashWindow Config.here.hash4 s p ≠ h) →
        lookup t h = lookup s h

/-- A position with fewer than 4 bytes left is not registered (rule R194). -/
def Obligations.NoWindowNoRegistration : Prop :=
  ∀ (h4 : Hash4) (s : State) (p n : Nat), s.inLen < p + 4 → (registerSpan h4 p n s).ht = s.ht

/-! ### The match finder -/

/-- COMMON_PREFIX (rule R196) is the longest common prefix within its two bounds: every byte of it agrees, and it stops at
65808, at the end of the input, or at a byte that differs. -/
def Obligations.CommonPrefixIsLongest : Prop :=
  ∀ (s : State) (c : Nat), s.cur ≤ s.inLen →
    commonPrefix s c ≤ 65808 ∧ s.cur + commonPrefix s c ≤ s.inLen ∧
    (∀ k, k < commonPrefix s c → s.inByte (c + k) = s.inByte (s.cur + k)) ∧
    (commonPrefix s c = 65808 ∨ s.cur + commonPrefix s c = s.inLen ∨
      s.inByte (c + commonPrefix s c) ≠ s.inByte (s.cur + commonPrefix s c))

/-- The decision of MF_STEP (rules R192, R193 and R197): a match when the slot holds a position at most 4095 back whose common
prefix has at least 4 bytes, a literal in every other case. -/
def Obligations.MatchFinderDecides : Prop :=
  ∀ (h4 : Hash4) (s : State), s.cur + 4 ≤ s.inLen →
    (search h4 s).1 =
      match lookup s (hashWindow h4 s s.cur) with
      | none => .lit (s.inByte s.cur)
      | some c =>
        if s.cur - c ≤ 4095 ∧ 4 ≤ commonPrefix s c then matchInstr (s.cur - c) (commonPrefix s c)
        else .lit (s.inByte s.cur)

/-- Every token the match finder decides on (rule R198): a literal carries the byte at `cur`; a match is in range, ends within
the input and is genuine. The candidate invariant of rule R195 is a premise, and a part of the invariant. -/
def Obligations.EmittedTokensAreGenuine : Prop :=
  ∀ (cfg : Config) (s : State), JobOk cfg s .compress → s.cur < s.inLen →
    (search cfg.hash4 s).1.wf = true ∧
    ((search cfg.hash4 s).1 = .lit (s.inByte s.cur) ∨
      ∃ d l, instrToken (search cfg.hash4 s).1 = some (.copy d l) ∧ 1 ≤ d ∧ d ≤ 4095 ∧ 4 ≤ l ∧ l ≤ 65808 ∧
        s.cur + l ≤ s.inLen ∧ d ≤ s.cur ∧ ∀ k, k < l → s.inByte (s.cur + k) = s.inByte (s.cur - d + k))

/-- With fewer than 4 bytes left, the finder decides on a literal whatever the table holds (rule R199). -/
def Obligations.LastBytesAreLiterals : Prop :=
  ∀ (h4 : Hash4) (s : State), s.inLen < s.cur + 4 → (search h4 s) = (.lit (s.inByte s.cur), s)

/-! ### Job start -/

/-- The start of each job that is admitted (rules R280, R281 and R41): what it sets, and that nothing else changes. The
fields it leaves unspecified are said to be whatever they are. -/
def Obligations.AdmittedJobStarts : Prop :=
  ∀ s : State, s.busy = false → s.inOverlapsOut = false → s.inLen ≤ Config.here.maxIn →
    (s.inLen ≤ 0xFFFFFFFF → ∃ t, exec .compress s = .next t ∧
      t = { s with busy := true, startReq := false, outMem := [], outLen := 0, cur := 0, acc := 0, cnt := 0, ht := [],
                   phase := .enc .compress .magic, status := t.status, errPayload := t.errPayload,
                   payloadGiven := false,
                   outLenReg := t.outLenReg, temps := t.temps, draws := t.draws }) ∧
    (∃ t, exec .decompress s = .next t ∧
      t = { s with busy := true, startReq := false, outMem := [], outLen := 0, pos := 0, hdr := 0, rem := 0, dlen := t.dlen,
                   phase := .dec .magic, status := t.status, errPayload := t.errPayload,
                   payloadGiven := false, outLenReg := t.outLenReg,
                   temps := t.temps, draws := t.draws }) ∧
    (tokensOk Config.here.maxIn s.tokens = true → ∃ t, exec .encodeTokens s = .next t ∧
      t = { s with busy := true, startReq := false, outMem := [], outLen := 0, acc := 0, cnt := 0, tokIdx := 0,
                   phase := .enc .tokens .magic, status := t.status, errPayload := t.errPayload,
                   payloadGiven := false,
                   outLenReg := t.outLenReg, temps := t.temps, draws := t.draws })

/-- The admission checks in their order, for every command (rule R281): overlap first (4), then the input's size (1), then
the tokens (2). A rejection changes nothing but STATUS, ERR_PAYLOAD and BUSY, and takes the start event. -/
def Obligations.RejectionOrder : Prop :=
  ∀ (s : State) (c : Command), s.busy = false →
    (s.inOverlapsOut = true →
      exec c.toInstr s = .next
        { s with status := .rejected, errPayload := 4, payloadGiven := true, busy := false, startReq := false }) ∧
    (s.inOverlapsOut = false → (Config.here.maxIn < s.inLen ∨ (c = .compress ∧ 0xFFFFFFFF < s.inLen)) →
      exec c.toInstr s = .next
        { s with status := .rejected, errPayload := 1, payloadGiven := true, busy := false, startReq := false }) ∧
    (s.inOverlapsOut = false → s.inLen ≤ Config.here.maxIn → c = .encodeTokens →
      tokensOk Config.here.maxIn s.tokens = false →
      exec c.toInstr s = .next
        { s with status := .rejected, errPayload := 2, payloadGiven := true, busy := false, startReq := false })

/-- The validation of TOKENS (rule R231): every match within the contract and at most as far back as the bytes produced
before it, and the total within the bounds. -/
def Obligations.TokensAreValidated : Prop :=
  ∀ (maxIn : Nat) (ts : List Token),
    tokensOk maxIn ts = true ↔
      (∀ j d l, ts[j]? = some (.copy d l) →
        1 ≤ d ∧ d ≤ 4095 ∧ 3 ≤ l ∧ l ≤ 65808 ∧ d ≤ ((ts.take j).map Token.size).sum) ∧
      (ts.map Token.size).sum ≤ 0xFFFFFFFF ∧ (ts.map Token.size).sum ≤ maxIn

/-- A start while BUSY = 1 has no transition, at the port or in a meaning (rule R290), and the running job takes no notice of a
start event: its step is the same but for the event itself. That the event is a bit (log entry 3) that stays pending (log
entry 18) is the model's. -/
def Obligations.NoStartWhileBusy : Prop :=
  ∀ (s : State) (c : Command), s.busy = true →
    exec c.toInstr s = .refused .startWhileBusy ∧ hostStart s = .refused .startWhileBusy ∧
    (s.resetReq = false → ∀ t, step { s with startReq := false } = .next t →
      step { s with startReq := true } = .next { t with startReq := true })

/-! ### The host's side -/

/-- What the host may not do while BUSY = 1 (rule R291), and what it sees once BUSY = 0 (rules R22, R282 and R298): after OK
the result's bytes, and the input it provides is what the block reads. -/
def Obligations.HostSeesResultsOnlyWhenIdle : Prop :=
  (∀ (s : State) (bs : List Byte) (b : Bool) (ts : List Token) (a : Nat), s.busy = true →
    hostSetIn bs b s = .refused .hostDuty ∧ hostSetTokens ts s = .refused .hostDuty ∧
    hostReadOut a s = .refused .hostDuty ∧ hostReadStatus s = .refused .hostDuty ∧
    hostReadPayload s = .refused .hostDuty ∧ hostReadOutLen s = .refused .hostDuty ∧ observe s = none) ∧
  (∀ (s : State) (a : Nat), s.busy = false → s.status = .ok → a < s.outLenReg →
    hostReadOut a s = .next (s.outByte a) ∧ s.result[a]? = some (s.outByte a))

/-- The observation at the end of a job (rule R298): the payload is part of it where a rule gives it (a read past the end, a
rejection), and no part of it where it is a draw (a backreference check, an overrun under Error) or where the status has none
(an error of the header, OK). -/
def Obligations.OnlyGivenPayloadsAreObserved : Prop :=
  (∀ (s : State) (i : Instr) (d l : Nat), s.phase = .dec .loop → i.wf = true → instrToken i = some (.copy d l) →
    ∃ t, exec i s = .next t ∧
      (s.outLen < d → observe t = some { status := .invalidIndex, payload := none, result := none }) ∧
      (d ≤ s.outLen → s.outLen ≤ s.dlen.toNat → s.dlen.toNat < s.outLen + l → Config.here.overrun = .error →
        observe t = some { status := .invalidIndex, payload := none, result := none })) ∧
  (∀ s : State, s.resetReq = false → s.busy = true → s.phase = .dec .loop → s.outLen < s.dlen.toNat → s.pos ≤ s.inLen →
    s.RunsOut →
    ∃ t, step s = .next t ∧ observe t = some { status := .invalidIndex, payload := some s.inLen, result := none }) ∧
  (∀ s : State, s.resetReq = false → s.busy = true → s.phase = .dec .magic → s.inLen = 0 →
    ∃ t, step s = .next t ∧ observe t = some { status := .tooShort, payload := none, result := none }) ∧
  (∀ s : State, s.resetReq = false → s.busy = true → s.phase = .dec .magic → 0 < s.inLen → s.inByte 0 ≠ 0x11 →
    ∃ t, step s = .next t ∧ observe t = some { status := .invalidMagic, payload := none, result := none }) ∧
  (∀ s : State, s.resetReq = false → s.busy = true → s.phase = .dec .magic → 0 < s.inLen → s.inByte 0 = 0x11 →
    s.inLen < 4 → ∃ t, step s = .next t ∧ observe t = some { status := .tooShort, payload := none, result := none }) ∧
  (∀ s : State, s.phase = .dec .size →
    (∀ n : BitVec 24, Config.here.maxOut < n.toNat → ∃ t, exec (.sizeShort n) s = .next t ∧
      observe t = some { status := .rejected, payload := some 3, result := none }) ∧
    ∀ n : BitVec 32, Config.here.maxOut < n.toNat → ∃ t, exec (.sizeEscape n) s = .next t ∧
      observe t = some { status := .rejected, payload := some 3, result := none }) ∧
  ∀ s : State, s.resetReq = false → s.busy = true → s.phase = .dec .loop → s.outLen = s.dlen.toNat →
    ∃ t, step s = .next t ∧
      observe t = some { status := .ok, payload := none, result := some (Memory.readBytes s.outMem 0 s.dlen.toNat) }

/-- The input a host provides is the input the block reads, in canonical form. -/
def Obligations.ProvidedInputIsRead : Prop :=
  ∀ (s : State) (bs : List Byte) (b : Bool), s.busy = false →
    ∃ t, hostSetIn bs b s = .next t ∧
      t = { s with inMem := t.inMem, inLen := bs.length, inOverlapsOut := b } ∧ t.input = bs ∧
      Memory.wf t.inMem = true ∧ ∀ a, a < bs.length → bs[a]? = some (t.inByte a)

/-! ### Invariants and whole-machine rules -/

/-- The state at power-on meets the invariant. -/
def Obligations.PowerOnMeetsTheInvariant : Prop := State.reset.Inv Config.here

/-- Every step keeps the invariant: canonical buffers, BUSY and the job in step, and the bounds of rules R24 to R29, R32, R34,
R161 and R195 at every point of a job. -/
def Obligations.EveryStepKeepsTheInvariant : Prop :=
  ∀ s t : State, s.Inv Config.here → step s = .next t → t.Inv Config.here

/-- The block writes none of the host's fields (rules R22 and R23); only a platform reset leaves them unspecified. -/
def Obligations.HostFieldsAreNotWritten : Prop :=
  ∀ s t : State, s.resetReq = false → step s = .next t →
    t.cmd = s.cmd ∧ t.inMem = s.inMem ∧ t.inLen = s.inLen ∧ t.inOverlapsOut = s.inOverlapsOut ∧ t.tokens = s.tokens

/-- Inside a job the cursors and `out_len` never move backwards (rules R24, R25 and R26). -/
def Obligations.CursorsNeverMoveBack : Prop :=
  ∀ s t : State, s.Inv Config.here → s.busy = true → s.resetReq = false → step s = .next t →
    s.cur ≤ t.cur ∧ s.pos ≤ t.pos ∧ s.outLen ≤ t.outLen

/-- Only COMPRESS touches `HT` (rule R36): its start clears it and its token steps register positions. -/
def Obligations.OnlyCompressTouchesTheTable : Prop :=
  ∀ s t : State, s.resetReq = false → step s = .next t → t.ht ≠ s.ht →
    (s.busy = false ∧ s.cmd = .known .compress ∧ t.ht = []) ∨ (s.busy = true ∧ s.phase = .enc .compress .loop)

/-- With widths as rule R40 and decision D4 ask, every position fits, and the reserved sentinel of rule R35 is free. -/
def Obligations.PositionsFitTheWidth : Prop :=
  ∀ (cfg : Config) (s : State), cfg.Adequate → s.Inv cfg → s.PositionsFit cfg

/-- DECOMPRESS reads no byte of `IN` at or after `N_in` (rules R152 and R169): a step does not depend on what stands there. -/
def Obligations.DecompressReadsOnlyItsInput : Prop :=
  ∀ (s t : State) (m : Memory) (p : DecPoint), s.resetReq = false → s.busy = true → s.phase = .dec p →
    (∀ a, a < s.inLen → Memory.read m a = Memory.read s.inMem a) → step s = .next t →
    step { s with inMem := m } = .next { t with inMem := m }

/-! ### Whole jobs -/

/-- Nothing carries over from one job to the next (rules R21 and R255), and no draw is observed (rule R298): two blocks that
differ in every register, in `HT`, in `OUT`, in the old result and in the free values they draw, but were given the same
input and the same tokens, are observed alike at the end of the job. -/
def Obligations.NothingCarriesOverBetweenJobs : Prop :=
  ∀ (c : Command) (s u t : State), s.Ready c → u.Ready c →
    u.inMem = s.inMem → u.inLen = s.inLen → u.inOverlapsOut = s.inOverlapsOut → u.tokens = s.tokens →
    RunsTo s t → ∃ v, RunsTo u v ∧ observe v = observe t

/-- DECOMPRESS always ends, on any input (rule R167), and what it hands over has the declared length (rule R164). -/
def Obligations.DecompressAlwaysEnds : Prop :=
  ∀ s : State, s.Ready .decompress →
    ∃ t, RunsTo s t ∧ (t.status = .ok → t.outLenReg = t.dlen.toNat ∧ t.result.length = t.dlen.toNat)

/-- ENCODE_TOKENS of every sequence inside the contract finishes with the framed stream of that sequence (rules R77, R135 and R232). -/
def Obligations.EncodeTokensWritesTheFramedStream : Prop :=
  ∀ s : State, s.Ready .encodeTokens → s.inOverlapsOut = false → s.inLen ≤ Config.here.maxIn →
    tokensOk Config.here.maxIn s.tokens = true → FinishesWith s (streamOf s.tokens)

/-- COMPRESS never fails: every admitted input is written as the framed stream of tokens that the match finder may emit, that
are inside the contract of rule R231, and that expand to the input (rules R198, R220, R222 and R233). -/
def Obligations.CompressWritesAFaithfulStream : Prop :=
  ∀ s : State, s.Ready .compress → s.inOverlapsOut = false → s.inLen ≤ Config.here.maxIn → s.inLen ≤ 0xFFFFFFFF →
    ∃ ts : List Token, (∀ t ∈ ts, tokenEmitted t) ∧ walkTokens ts 0 = some s.inLen ∧ expand ts = s.input ∧
      FinishesWith s (streamOf ts)

/-- DECOMPRESS of the framed stream of a token sequence inside the contract finishes with its expansion, for either value of
OVERRUN (rule R234), whatever bytes follow the stream (rule R91). After the stream of no token, 3 more bytes would make
its zero length an escape (rule R75). A stream longer than MAX_IN or a length above MAX_OUT is rejected (rule R254). -/
def Obligations.DecompressExpandsAFramedStream : Prop :=
  ∀ (s : State) (ts : List Token) (extra : List Byte) (n : Nat), s.Ready .decompress → s.inOverlapsOut = false →
    walkTokens ts 0 = some n → n ≤ 0xFFFFFFFF → s.input = streamOf ts ++ extra → (n = 0 → extra.length < 3) →
    if s.inLen ≤ Config.here.maxIn ∧ n ≤ Config.here.maxOut then FinishesWith s (expand ts)
    else ∃ t, RunsTo s t ∧ t.status = .rejected ∧ t.errPayload = if s.inLen ≤ Config.here.maxIn then 3 else 1

/-- The round trip (rules R6 and R225): DECOMPRESS of what COMPRESS hands over gives the input back, for every configuration, in
any block, where MAX_IN lets the stream in and MAX_OUT the length out. -/
def Obligations.CompressDecompressRoundTrip : Prop :=
  ∀ s : State, s.Ready .compress → s.inOverlapsOut = false → s.inLen ≤ Config.here.maxIn → s.inLen ≤ 0xFFFFFFFF →
    ∃ t, RunsTo s t ∧ t.status = .ok ∧
      ∀ u : State, u.Ready .decompress → u.inOverlapsOut = false → u.input = t.result →
        if u.inLen ≤ Config.here.maxIn ∧ s.inLen ≤ Config.here.maxOut then FinishesWith u s.input
        else ∃ v, RunsTo u v ∧ v.status = .rejected

/-- The length of a framed stream (rules R135 and R223). -/
def Obligations.FramedStreamLength : Prop :=
  ∀ ts : List Token,
    (streamOf ts).length =
      (if tokensLength ts < 0xFFFFFF then 4 else 8) + max 1 ((ts.length + 7) / 8) +
        (ts.map fun t => (tokenBytes t).length).sum
end

