-- ==== Sys2Proof/Laws/Bits.lean ====
section
/-! SUPPORT. The bit fields of the decoder and the encoder: what a concatenation and a field are as numbers, and that
taking a value apart into its fields and putting them together again loses nothing (rules R11, R81 to R83 and R85). -/

namespace Sys2Proof

theorem append_value {n m : Nat} (a : BitVec n) (b : BitVec m) : (a ++ b).toNat = a.toNat * 2 ^ m + b.toNat := by
  rw [BitVec.toNat_append, Nat.shiftLeft_eq, Nat.mul_comm, ← Nat.two_pow_add_eq_or_of_lt b.isLt]

theorem field_value {w : Nat} (v : BitVec w) (lo n : Nat) : (v.extractLsb' lo n).toNat = v.toNat / 2 ^ lo % 2 ^ n := by
  rw [BitVec.extractLsb'_toNat, Nat.shiftRight_eq_div_pow]

theorem hiNibble_value (b : Byte) : (hiNibble b).toNat = b.toNat / 16 := by
  have := b.isLt
  rw [hiNibble, field_value]; omega

theorem loNibble_value (b : Byte) : (loNibble b).toNat = b.toNat % 16 := by
  rw [loNibble, field_value]; omega

theorem hiNibble_append (a b : BitVec 4) : hiNibble (a ++ b) = a := by
  have := a.isLt; have := b.isLt
  apply BitVec.eq_of_toNat_eq; rw [hiNibble_value, append_value]; omega

theorem loNibble_append (a b : BitVec 4) : loNibble (a ++ b) = b := by
  have := b.isLt
  apply BitVec.eq_of_toNat_eq; rw [loNibble_value, append_value]; omega

theorem nibbles_append (b : Byte) : hiNibble b ++ loNibble b = b := by
  have := b.isLt
  apply BitVec.eq_of_toNat_eq; rw [append_value, hiNibble_value, loNibble_value]; omega

theorem fields_append_4_8 (v : BitVec 12) : v.extractLsb' 8 4 ++ v.extractLsb' 0 8 = v := by
  have := v.isLt
  apply BitVec.eq_of_toNat_eq; simp only [append_value, field_value]; omega

theorem append_fields_4_8 (a : BitVec 4) (b : Byte) :
    (a ++ b).extractLsb' 8 4 = a ∧ (a ++ b).extractLsb' 0 8 = b := by
  have := a.isLt; have := b.isLt
  constructor <;> (apply BitVec.eq_of_toNat_eq; rw [field_value, append_value]; omega)

theorem fields_append_4_4 (v : Byte) : v.extractLsb' 4 4 ++ v.extractLsb' 0 4 = v := by
  have := v.isLt
  apply BitVec.eq_of_toNat_eq; simp only [append_value, field_value]; omega

theorem append_fields_4_4 (a b : BitVec 4) :
    (a ++ b).extractLsb' 4 4 = a ∧ (a ++ b).extractLsb' 0 4 = b := by
  have := a.isLt; have := b.isLt
  constructor <;> (apply BitVec.eq_of_toNat_eq; rw [field_value, append_value]; omega)

theorem fields_append_4_8_4 (v : BitVec 16) : v.extractLsb' 12 4 ++ v.extractLsb' 4 8 ++ v.extractLsb' 0 4 = v := by
  have := v.isLt
  apply BitVec.eq_of_toNat_eq; simp only [append_value, field_value]; omega

theorem append_fields_4_8_4 (a : BitVec 4) (b : Byte) (c : BitVec 4) :
    (a ++ b ++ c).extractLsb' 12 4 = a ∧ (a ++ b ++ c).extractLsb' 4 8 = b ∧ (a ++ b ++ c).extractLsb' 0 4 = c := by
  have := a.isLt; have := b.isLt; have := c.isLt
  refine ⟨?_, ?_, ?_⟩ <;> (apply BitVec.eq_of_toNat_eq; simp only [append_value, field_value]; omega)

theorem le24_bytes (n : BitVec 24) : le24 (byteOf n 0) (byteOf n 1) (byteOf n 2) = n := by
  have := n.isLt
  apply BitVec.eq_of_toNat_eq; simp only [le24, byteOf, append_value, field_value]; omega

theorem le32_bytes (n : BitVec 32) : le32 (byteOf n 0) (byteOf n 1) (byteOf n 2) (byteOf n 3) = n := by
  have := n.isLt
  apply BitVec.eq_of_toNat_eq; simp only [le32, byteOf, append_value, field_value]; omega

theorem bytes_le24 (a b c : Byte) :
    byteOf (le24 a b c) 0 = a ∧ byteOf (le24 a b c) 1 = b ∧ byteOf (le24 a b c) 2 = c := by
  have := a.isLt; have := b.isLt; have := c.isLt
  refine ⟨?_, ?_, ?_⟩ <;> (apply BitVec.eq_of_toNat_eq; simp only [le24, byteOf, append_value, field_value]; omega)

theorem bytes_le32 (a b c d : Byte) :
    byteOf (le32 a b c d) 0 = a ∧ byteOf (le32 a b c d) 1 = b ∧ byteOf (le32 a b c d) 2 = c ∧
      byteOf (le32 a b c d) 3 = d := by
  have := a.isLt; have := b.isLt; have := c.isLt; have := d.isLt
  refine ⟨?_, ?_, ?_, ?_⟩ <;> (apply BitVec.eq_of_toNat_eq; simp only [le32, byteOf, append_value, field_value]; omega)

end Sys2Proof
end

