-- ==== Sys2Proof/Laws/Memory.lean ====
section
/-! SUPPORT. The laws of the buffers and of the hash table: a read after a write, the canonical form that every operation
keeps, and the buffer that a list of bytes is. -/

namespace Sys2Proof.Machine

/-! ### Reads after writes -/

@[simp] theorem memory_read_nil (a : Nat) : Memory.read [] a = 0 := rfl

theorem memory_read_erase (m : Memory) (a x : Nat) :
    Memory.read (Memory.erase m a) x = if x = a then 0 else Memory.read m x := by
  induction m with
  | nil => simp [Memory.erase]
  | cons c m ih =>
    obtain ⟨a', b⟩ := c
    by_cases ha : a' = a
    · subst ha
      rw [show Memory.erase ((a', b) :: m) a' = Memory.erase m a' by simp [Memory.erase], ih, Memory.read]
      split <;> rfl
    · rw [show Memory.erase ((a', b) :: m) a = (a', b) :: Memory.erase m a by simp [Memory.erase, ha], Memory.read,
        Memory.read, ih]
      by_cases hx : x = a'
      · subst hx; simp [ha]
      · simp [hx]

theorem memory_read_insert (m : Memory) (a x : Nat) (v : Byte) :
    Memory.read (Memory.insert m a v) x = if x = a then v else Memory.read m x := by
  induction m with
  | nil => simp [Memory.insert, Memory.read]
  | cons c m ih =>
    obtain ⟨a', b⟩ := c
    simp only [Memory.insert]
    split
    · simp [Memory.read]
    · split
      · rename_i h; subst h; simp only [Memory.read]; split <;> rfl
      · rename_i h
        simp only [Memory.read, ih]
        by_cases hx : x = a'
        · subst hx; simp [Ne.symm h]
        · simp [hx]

/-- The read-after-write law: the byte written at its address, every other byte as before. -/
theorem memory_read_write (m : Memory) (a x : Nat) (v : Byte) :
    Memory.read (Memory.write m a v) x = if x = a then v else Memory.read m x := by
  rw [Memory.write]
  split
  · rename_i h; rw [memory_read_erase, h]
  · exact memory_read_insert m a x v

@[simp] theorem memory_read_write_same (m : Memory) (a : Nat) (v : Byte) : Memory.read (Memory.write m a v) a = v := by
  simp [memory_read_write]

theorem memory_read_write_other (m : Memory) {a x : Nat} (v : Byte) (h : x ≠ a) :
    Memory.read (Memory.write m a v) x = Memory.read m x := by
  simp [memory_read_write, h]

/-- A byte after consecutive writes: the written one inside their range, the old one outside. -/
theorem memory_read_writeBytes (bs : List Byte) (m : Memory) (a x : Nat) :
    Memory.read (Memory.writeBytes m a bs) x =
      if a ≤ x ∧ x < a + bs.length then bs.getD (x - a) 0 else Memory.read m x := by
  induction bs generalizing m a with
  | nil => simp [Memory.writeBytes]
  | cons v vs ih =>
    rw [Memory.writeBytes, ih, memory_read_write]
    by_cases hx : x = a
    · subst hx; simp
    · simp only [hx, if_false, List.length_cons]
      by_cases h1 : a + 1 ≤ x ∧ x < a + 1 + vs.length
      · rw [if_pos h1, if_pos (by omega), show x - a = (x - (a + 1)) + 1 by omega]; simp
      · rw [if_neg h1, if_neg (by omega)]

theorem memory_read_ofBytes (bs : List Byte) (x : Nat) : Memory.read (Memory.ofBytes bs) x = bs.getD x 0 := by
  rw [Memory.ofBytes, memory_read_writeBytes]
  split
  · simp
  · rename_i h
    rw [memory_read_nil, List.getD_eq_default]
    omega

@[simp] theorem memory_readBytes_length (m : Memory) (a n : Nat) : (Memory.readBytes m a n).length = n := by
  induction n generalizing a with
  | zero => rfl
  | succ n ih => simp [Memory.readBytes, ih]

/-- Byte `i` of a range of bytes is the byte at its address. -/
theorem memory_readBytes_getElem (m : Memory) (a n i : Nat) (h : i < n) :
    (Memory.readBytes m a n)[i]? = some (Memory.read m (a + i)) := by
  induction n generalizing a i with
  | zero => omega
  | succ n ih =>
    cases i with
    | zero => simp [Memory.readBytes]
    | succ i => simp [Memory.readBytes, ih (a + 1) i (by omega), Nat.add_comm, Nat.add_left_comm]

/-! ### The canonical form -/

theorem memory_wfFrom_mono {m : Memory} {lo lo' : Nat} (h : Memory.wfFrom lo m = true) (hl : lo' ≤ lo) :
    Memory.wfFrom lo' m = true := by
  cases m with
  | nil => rfl
  | cons c m =>
    obtain ⟨a, b⟩ := c
    simp only [Memory.wfFrom, Bool.and_eq_true, decide_eq_true_eq] at h ⊢
    exact ⟨⟨hl.trans h.1.1, h.1.2⟩, h.2⟩

theorem memory_wfFrom_erase (m : Memory) (a lo : Nat) (h : Memory.wfFrom lo m = true) :
    Memory.wfFrom lo (Memory.erase m a) = true := by
  induction m generalizing lo with
  | nil => rfl
  | cons c m ih =>
    obtain ⟨a', b⟩ := c
    simp only [Memory.wfFrom, Bool.and_eq_true, decide_eq_true_eq] at h
    by_cases ha : a' = a
    · rw [show Memory.erase ((a', b) :: m) a = Memory.erase m a by simp [Memory.erase, ha]]
      exact ih lo (memory_wfFrom_mono h.2 (by omega))
    · rw [show Memory.erase ((a', b) :: m) a = (a', b) :: Memory.erase m a by simp [Memory.erase, ha]]
      simp only [Memory.wfFrom, Bool.and_eq_true, decide_eq_true_eq]
      exact ⟨h.1, ih (a' + 1) h.2⟩

theorem memory_wfFrom_insert (m : Memory) (a lo : Nat) (v : Byte) (hv : v ≠ 0) (hlo : lo ≤ a)
    (h : Memory.wfFrom lo m = true) : Memory.wfFrom lo (Memory.insert m a v) = true := by
  induction m generalizing lo with
  | nil => simpa [Memory.insert, Memory.wfFrom, hlo] using hv
  | cons c m ih =>
    obtain ⟨a', b⟩ := c
    simp only [Memory.wfFrom, Bool.and_eq_true, decide_eq_true_eq] at h
    simp only [Memory.insert]
    split
    · rename_i hlt
      simp only [Memory.wfFrom, Bool.and_eq_true, decide_eq_true_eq]
      exact ⟨⟨hlo, by simpa using hv⟩, ⟨hlt, h.1.2⟩, h.2⟩
    · split
      · rename_i heq; subst heq
        simp only [Memory.wfFrom, Bool.and_eq_true, decide_eq_true_eq]
        exact ⟨⟨hlo, by simpa using hv⟩, h.2⟩
      · simp only [Memory.wfFrom, Bool.and_eq_true, decide_eq_true_eq]
        exact ⟨h.1, ih (a' + 1) (by omega) h.2⟩

/-- A write keeps the canonical form. -/
theorem memory_wf_write (m : Memory) (a : Nat) (v : Byte) (h : Memory.wf m = true) :
    Memory.wf (Memory.write m a v) = true := by
  rw [Memory.write]
  split
  · exact memory_wfFrom_erase m a 0 h
  · rename_i hv; exact memory_wfFrom_insert m a 0 v hv (Nat.zero_le _) h

theorem memory_wf_writeBytes (bs : List Byte) (m : Memory) (a : Nat) (h : Memory.wf m = true) :
    Memory.wf (Memory.writeBytes m a bs) = true := by
  induction bs generalizing m a with
  | nil => exact h
  | cons v vs ih => exact ih _ _ (memory_wf_write m a v h)

theorem memory_wf_ofBytes (bs : List Byte) : Memory.wf (Memory.ofBytes bs) = true := memory_wf_writeBytes bs [] 0 rfl

theorem memory_wf_canon (m : Memory) (len : Nat) : Memory.wf (Memory.canon m len) = true := by
  have key : ∀ (l acc : Memory), Memory.wf acc = true →
      Memory.wf (l.foldl (fun acc c => Memory.write acc c.1 c.2) acc) = true := by
    intro l
    induction l with
    | nil => exact fun _ h => h
    | cons c l ih => exact fun acc h => ih _ (memory_wf_write acc c.1 c.2 h)
  exact key _ [] rfl

/-- The cells of a buffer after a write: those it had, and at most the one written. -/
theorem memory_mem_write (m : Memory) (a : Nat) (v : Byte) (c : Host.Cell) (h : c ∈ Memory.write m a v) :
    c ∈ m ∨ c = (a, v) := by
  have hins : ∀ m : Memory, c ∈ Memory.insert m a v → c ∈ m ∨ c = (a, v) := by
    intro m
    induction m with
    | nil => intro h; exact .inr (by simpa [Memory.insert] using h)
    | cons x m ih =>
      obtain ⟨a', b⟩ := x
      simp only [Memory.insert]
      split
      · intro h
        rcases List.mem_cons.1 h with h | h
        · exact .inr h
        · exact .inl h
      · split
        · intro h
          rcases List.mem_cons.1 h with h | h
          · exact .inr h
          · exact .inl (List.mem_cons_of_mem _ h)
        · intro h
          rcases List.mem_cons.1 h with h | h
          · exact .inl (h ▸ List.mem_cons_self)
          · exact (ih h).imp (List.mem_cons_of_mem _) id
  rw [Memory.write] at h
  split at h
  · exact .inl (List.mem_filter.1 h).1
  · exact hins m h

/-! ### The hash table -/

/-- A lookup after an insertion: the new position in its slot, every other slot as before. -/
theorem table_lookup_insert (t : HashTable) (h q x : Nat) :
    HashTable.lookup (HashTable.insert t h q) x = if x = h then some q else HashTable.lookup t x := by
  induction t with
  | nil => simp [HashTable.insert, HashTable.lookup]
  | cons c t ih =>
    obtain ⟨h', q'⟩ := c
    simp only [HashTable.insert]
    split
    · simp [HashTable.lookup]
    · split
      · rename_i e; subst e; simp only [HashTable.lookup]; split <;> rfl
      · rename_i e
        simp only [HashTable.lookup, ih]
        by_cases hx : x = h'
        · subst hx; simp [Ne.symm e]
        · simp [hx]

theorem table_wfFrom_insert (t : HashTable) (h q lo : Nat) (hlo : lo ≤ h) (hh : h < Config.hashCount)
    (ht : HashTable.wfFrom lo t = true) : HashTable.wfFrom lo (HashTable.insert t h q) = true := by
  induction t generalizing lo with
  | nil => simp [HashTable.insert, HashTable.wfFrom, hlo, hh]
  | cons c t ih =>
    obtain ⟨h', q'⟩ := c
    simp only [HashTable.wfFrom, Bool.and_eq_true, decide_eq_true_eq] at ht
    simp only [HashTable.insert]
    split
    · simp only [HashTable.wfFrom, Bool.and_eq_true, decide_eq_true_eq]
      exact ⟨⟨hlo, hh⟩, ⟨by omega, ht.1.2⟩, ht.2⟩
    · split
      · rename_i e; subst e
        simp only [HashTable.wfFrom, Bool.and_eq_true, decide_eq_true_eq]
        exact ⟨⟨hlo, hh⟩, ht.2⟩
      · simp only [HashTable.wfFrom, Bool.and_eq_true, decide_eq_true_eq]
        exact ⟨ht.1, ih (h' + 1) (by omega) ht.2⟩

/-- A registration keeps the table's canonical form. -/
theorem table_wf_insert (t : HashTable) (h q : Nat) (hh : h < Config.hashCount) (ht : HashTable.wf t = true) :
    HashTable.wf (HashTable.insert t h q) = true := table_wfFrom_insert t h q 0 (Nat.zero_le _) hh ht

theorem table_wf_canon (t : HashTable) : HashTable.wf (HashTable.canon t) = true := by
  have key : ∀ (l acc : HashTable), (∀ c ∈ l, c.1 < Config.hashCount) → HashTable.wf acc = true →
      HashTable.wf (l.foldl (fun acc c => HashTable.insert acc c.1 c.2) acc) = true := by
    intro l
    induction l with
    | nil => exact fun _ _ h => h
    | cons c l ih =>
      intro acc hl h
      exact ih _ (fun d hd => hl d (List.mem_cons_of_mem _ hd))
        (table_wf_insert acc c.1 c.2 (hl c List.mem_cons_self) h)
  exact key _ [] (fun c hc => by simpa using (List.mem_filter.1 hc).2) rfl

/-- The slots after a registration: those there were, and the one registered. -/
theorem table_mem_insert (t : HashTable) (h q : Nat) (c : Nat × Nat) (hc : c ∈ HashTable.insert t h q) :
    c ∈ t ∨ c = (h, q) := by
  induction t with
  | nil => exact .inr (by simpa [HashTable.insert] using hc)
  | cons x t ih =>
    obtain ⟨h', q'⟩ := x
    simp only [HashTable.insert] at hc
    split at hc
    · rcases List.mem_cons.1 hc with e | e
      · exact .inr e
      · exact .inl e
    · split at hc
      · rcases List.mem_cons.1 hc with e | e
        · exact .inr e
        · exact .inl (List.mem_cons_of_mem _ e)
      · rcases List.mem_cons.1 hc with e | e
        · exact .inl (e ▸ List.mem_cons_self)
        · exact (ih e).imp (List.mem_cons_of_mem _) id

/-- What a lookup finds is in the table. -/
theorem table_mem_of_lookup (t : HashTable) (h q : Nat) (hl : HashTable.lookup t h = some q) : (h, q) ∈ t := by
  induction t with
  | nil => simp [HashTable.lookup] at hl
  | cons x t ih =>
    obtain ⟨h', q'⟩ := x
    simp only [HashTable.lookup] at hl
    split at hl
    · rename_i e; simp_all
    · exact List.mem_cons_of_mem _ (ih hl)

end Sys2Proof.Machine
end

