-- ==== Sys2Proof/Laws/State.lean ====
section
/-! SUPPORT. One lemma per field per update of the state, true by rfl: no later proof unfolds a record update. -/

namespace Sys2Proof.Machine

/-! ### `append` (rule R13, `Append`) -/

@[simp] theorem append_cmd (v : Byte) (s : State) : (State.append v s).cmd = s.cmd := rfl
@[simp] theorem append_inMem (v : Byte) (s : State) : (State.append v s).inMem = s.inMem := rfl
@[simp] theorem append_inLen (v : Byte) (s : State) : (State.append v s).inLen = s.inLen := rfl
@[simp] theorem append_inOverlapsOut (v : Byte) (s : State) : (State.append v s).inOverlapsOut = s.inOverlapsOut := rfl
@[simp] theorem append_tokens (v : Byte) (s : State) : (State.append v s).tokens = s.tokens := rfl
@[simp] theorem append_busy (v : Byte) (s : State) : (State.append v s).busy = s.busy := rfl
@[simp] theorem append_status (v : Byte) (s : State) : (State.append v s).status = s.status := rfl
@[simp] theorem append_errPayload (v : Byte) (s : State) : (State.append v s).errPayload = s.errPayload := rfl
@[simp] theorem append_payloadGiven (v : Byte) (s : State) : (State.append v s).payloadGiven = s.payloadGiven := rfl
@[simp] theorem append_outMem (v : Byte) (s : State) : (State.append v s).outMem = Memory.write s.outMem s.outLen v := rfl
@[simp] theorem append_outLenReg (v : Byte) (s : State) : (State.append v s).outLenReg = s.outLenReg := rfl
@[simp] theorem append_cur (v : Byte) (s : State) : (State.append v s).cur = s.cur := rfl
@[simp] theorem append_pos (v : Byte) (s : State) : (State.append v s).pos = s.pos := rfl
@[simp] theorem append_outLen (v : Byte) (s : State) : (State.append v s).outLen = s.outLen + 1 := rfl
@[simp] theorem append_acc (v : Byte) (s : State) : (State.append v s).acc = s.acc := rfl
@[simp] theorem append_cnt (v : Byte) (s : State) : (State.append v s).cnt = s.cnt := rfl
@[simp] theorem append_ph (v : Byte) (s : State) : (State.append v s).ph = s.ph := rfl
@[simp] theorem append_dlen (v : Byte) (s : State) : (State.append v s).dlen = s.dlen := rfl
@[simp] theorem append_hdr (v : Byte) (s : State) : (State.append v s).hdr = s.hdr := rfl
@[simp] theorem append_rem (v : Byte) (s : State) : (State.append v s).rem = s.rem := rfl
@[simp] theorem append_temps (v : Byte) (s : State) : (State.append v s).temps = s.temps := rfl
@[simp] theorem append_ht (v : Byte) (s : State) : (State.append v s).ht = s.ht := rfl
@[simp] theorem append_phase (v : Byte) (s : State) : (State.append v s).phase = s.phase := rfl
@[simp] theorem append_startReq (v : Byte) (s : State) : (State.append v s).startReq = s.startReq := rfl
@[simp] theorem append_resetReq (v : Byte) (s : State) : (State.append v s).resetReq = s.resetReq := rfl
@[simp] theorem append_tokIdx (v : Byte) (s : State) : (State.append v s).tokIdx = s.tokIdx := rfl
@[simp] theorem append_draws (v : Byte) (s : State) : (State.append v s).draws = s.draws := rfl

/-! ### `rewrite` (rule R13, `MemWrite(OUT)`) -/

@[simp] theorem rewrite_cmd (a : Nat) (v : Byte) (s : State) : (State.rewrite a v s).cmd = s.cmd := rfl
@[simp] theorem rewrite_inMem (a : Nat) (v : Byte) (s : State) : (State.rewrite a v s).inMem = s.inMem := rfl
@[simp] theorem rewrite_inLen (a : Nat) (v : Byte) (s : State) : (State.rewrite a v s).inLen = s.inLen := rfl
@[simp] theorem rewrite_inOverlapsOut (a : Nat) (v : Byte) (s : State) : (State.rewrite a v s).inOverlapsOut = s.inOverlapsOut := rfl
@[simp] theorem rewrite_tokens (a : Nat) (v : Byte) (s : State) : (State.rewrite a v s).tokens = s.tokens := rfl
@[simp] theorem rewrite_busy (a : Nat) (v : Byte) (s : State) : (State.rewrite a v s).busy = s.busy := rfl
@[simp] theorem rewrite_status (a : Nat) (v : Byte) (s : State) : (State.rewrite a v s).status = s.status := rfl
@[simp] theorem rewrite_errPayload (a : Nat) (v : Byte) (s : State) : (State.rewrite a v s).errPayload = s.errPayload := rfl
@[simp] theorem rewrite_payloadGiven (a : Nat) (v : Byte) (s : State) : (State.rewrite a v s).payloadGiven = s.payloadGiven := rfl
@[simp] theorem rewrite_outMem (a : Nat) (v : Byte) (s : State) : (State.rewrite a v s).outMem = Memory.write s.outMem a v := rfl
@[simp] theorem rewrite_outLenReg (a : Nat) (v : Byte) (s : State) : (State.rewrite a v s).outLenReg = s.outLenReg := rfl
@[simp] theorem rewrite_cur (a : Nat) (v : Byte) (s : State) : (State.rewrite a v s).cur = s.cur := rfl
@[simp] theorem rewrite_pos (a : Nat) (v : Byte) (s : State) : (State.rewrite a v s).pos = s.pos := rfl
@[simp] theorem rewrite_outLen (a : Nat) (v : Byte) (s : State) : (State.rewrite a v s).outLen = s.outLen := rfl
@[simp] theorem rewrite_acc (a : Nat) (v : Byte) (s : State) : (State.rewrite a v s).acc = s.acc := rfl
@[simp] theorem rewrite_cnt (a : Nat) (v : Byte) (s : State) : (State.rewrite a v s).cnt = s.cnt := rfl
@[simp] theorem rewrite_ph (a : Nat) (v : Byte) (s : State) : (State.rewrite a v s).ph = s.ph := rfl
@[simp] theorem rewrite_dlen (a : Nat) (v : Byte) (s : State) : (State.rewrite a v s).dlen = s.dlen := rfl
@[simp] theorem rewrite_hdr (a : Nat) (v : Byte) (s : State) : (State.rewrite a v s).hdr = s.hdr := rfl
@[simp] theorem rewrite_rem (a : Nat) (v : Byte) (s : State) : (State.rewrite a v s).rem = s.rem := rfl
@[simp] theorem rewrite_temps (a : Nat) (v : Byte) (s : State) : (State.rewrite a v s).temps = s.temps := rfl
@[simp] theorem rewrite_ht (a : Nat) (v : Byte) (s : State) : (State.rewrite a v s).ht = s.ht := rfl
@[simp] theorem rewrite_phase (a : Nat) (v : Byte) (s : State) : (State.rewrite a v s).phase = s.phase := rfl
@[simp] theorem rewrite_startReq (a : Nat) (v : Byte) (s : State) : (State.rewrite a v s).startReq = s.startReq := rfl
@[simp] theorem rewrite_resetReq (a : Nat) (v : Byte) (s : State) : (State.rewrite a v s).resetReq = s.resetReq := rfl
@[simp] theorem rewrite_tokIdx (a : Nat) (v : Byte) (s : State) : (State.rewrite a v s).tokIdx = s.tokIdx := rfl
@[simp] theorem rewrite_draws (a : Nat) (v : Byte) (s : State) : (State.rewrite a v s).draws = s.draws := rfl

/-! ### `jobEnd` (rule R282) -/

@[simp] theorem jobEnd_cmd (st : Status) (pl : Option Nat) (s : State) : (jobEnd st pl s).cmd = s.cmd := rfl
@[simp] theorem jobEnd_inMem (st : Status) (pl : Option Nat) (s : State) : (jobEnd st pl s).inMem = s.inMem := rfl
@[simp] theorem jobEnd_inLen (st : Status) (pl : Option Nat) (s : State) : (jobEnd st pl s).inLen = s.inLen := rfl
@[simp] theorem jobEnd_inOverlapsOut (st : Status) (pl : Option Nat) (s : State) : (jobEnd st pl s).inOverlapsOut = s.inOverlapsOut := rfl
@[simp] theorem jobEnd_tokens (st : Status) (pl : Option Nat) (s : State) : (jobEnd st pl s).tokens = s.tokens := rfl
@[simp] theorem jobEnd_busy (st : Status) (pl : Option Nat) (s : State) : (jobEnd st pl s).busy = false := rfl
@[simp] theorem jobEnd_status (st : Status) (pl : Option Nat) (s : State) : (jobEnd st pl s).status = st := rfl
@[simp] theorem jobEnd_errPayload (st : Status) (pl : Option Nat) (s : State) : (jobEnd st pl s).errPayload = pl.getD (Config.freePayload s.draws) := rfl
@[simp] theorem jobEnd_payloadGiven (st : Status) (pl : Option Nat) (s : State) : (jobEnd st pl s).payloadGiven = pl.isSome := rfl
@[simp] theorem jobEnd_outMem (st : Status) (pl : Option Nat) (s : State) : (jobEnd st pl s).outMem = s.outMem := rfl
@[simp] theorem jobEnd_outLenReg (st : Status) (pl : Option Nat) (s : State) : (jobEnd st pl s).outLenReg = if st = .ok then s.outLen else Config.freeOutLen s.draws := rfl
@[simp] theorem jobEnd_cur (st : Status) (pl : Option Nat) (s : State) : (jobEnd st pl s).cur = s.cur := rfl
@[simp] theorem jobEnd_pos (st : Status) (pl : Option Nat) (s : State) : (jobEnd st pl s).pos = s.pos := rfl
@[simp] theorem jobEnd_outLen (st : Status) (pl : Option Nat) (s : State) : (jobEnd st pl s).outLen = s.outLen := rfl
@[simp] theorem jobEnd_acc (st : Status) (pl : Option Nat) (s : State) : (jobEnd st pl s).acc = s.acc := rfl
@[simp] theorem jobEnd_cnt (st : Status) (pl : Option Nat) (s : State) : (jobEnd st pl s).cnt = s.cnt := rfl
@[simp] theorem jobEnd_ph (st : Status) (pl : Option Nat) (s : State) : (jobEnd st pl s).ph = s.ph := rfl
@[simp] theorem jobEnd_dlen (st : Status) (pl : Option Nat) (s : State) : (jobEnd st pl s).dlen = s.dlen := rfl
@[simp] theorem jobEnd_hdr (st : Status) (pl : Option Nat) (s : State) : (jobEnd st pl s).hdr = s.hdr := rfl
@[simp] theorem jobEnd_rem (st : Status) (pl : Option Nat) (s : State) : (jobEnd st pl s).rem = s.rem := rfl
@[simp] theorem jobEnd_temps (st : Status) (pl : Option Nat) (s : State) : (jobEnd st pl s).temps = s.temps := rfl
@[simp] theorem jobEnd_ht (st : Status) (pl : Option Nat) (s : State) : (jobEnd st pl s).ht = s.ht := rfl
@[simp] theorem jobEnd_phase (st : Status) (pl : Option Nat) (s : State) : (jobEnd st pl s).phase = .idle := rfl
@[simp] theorem jobEnd_startReq (st : Status) (pl : Option Nat) (s : State) : (jobEnd st pl s).startReq = s.startReq := rfl
@[simp] theorem jobEnd_resetReq (st : Status) (pl : Option Nat) (s : State) : (jobEnd st pl s).resetReq = s.resetReq := rfl
@[simp] theorem jobEnd_tokIdx (st : Status) (pl : Option Nat) (s : State) : (jobEnd st pl s).tokIdx = s.tokIdx := rfl
@[simp] theorem jobEnd_draws (st : Status) (pl : Option Nat) (s : State) : (jobEnd st pl s).draws = s.draws + 1 := rfl

/-! ### `rejectAtStart` (rule R281) -/

@[simp] theorem rejectAtStart_cmd (r : Reason) (s : State) : (rejectAtStart r s).cmd = s.cmd := rfl
@[simp] theorem rejectAtStart_inMem (r : Reason) (s : State) : (rejectAtStart r s).inMem = s.inMem := rfl
@[simp] theorem rejectAtStart_inLen (r : Reason) (s : State) : (rejectAtStart r s).inLen = s.inLen := rfl
@[simp] theorem rejectAtStart_inOverlapsOut (r : Reason) (s : State) : (rejectAtStart r s).inOverlapsOut = s.inOverlapsOut := rfl
@[simp] theorem rejectAtStart_tokens (r : Reason) (s : State) : (rejectAtStart r s).tokens = s.tokens := rfl
@[simp] theorem rejectAtStart_busy (r : Reason) (s : State) : (rejectAtStart r s).busy = false := rfl
@[simp] theorem rejectAtStart_status (r : Reason) (s : State) : (rejectAtStart r s).status = .rejected := rfl
@[simp] theorem rejectAtStart_errPayload (r : Reason) (s : State) : (rejectAtStart r s).errPayload = r.code := rfl
@[simp] theorem rejectAtStart_payloadGiven (r : Reason) (s : State) : (rejectAtStart r s).payloadGiven = true := rfl
@[simp] theorem rejectAtStart_outMem (r : Reason) (s : State) : (rejectAtStart r s).outMem = s.outMem := rfl
@[simp] theorem rejectAtStart_outLenReg (r : Reason) (s : State) : (rejectAtStart r s).outLenReg = s.outLenReg := rfl
@[simp] theorem rejectAtStart_cur (r : Reason) (s : State) : (rejectAtStart r s).cur = s.cur := rfl
@[simp] theorem rejectAtStart_pos (r : Reason) (s : State) : (rejectAtStart r s).pos = s.pos := rfl
@[simp] theorem rejectAtStart_outLen (r : Reason) (s : State) : (rejectAtStart r s).outLen = s.outLen := rfl
@[simp] theorem rejectAtStart_acc (r : Reason) (s : State) : (rejectAtStart r s).acc = s.acc := rfl
@[simp] theorem rejectAtStart_cnt (r : Reason) (s : State) : (rejectAtStart r s).cnt = s.cnt := rfl
@[simp] theorem rejectAtStart_ph (r : Reason) (s : State) : (rejectAtStart r s).ph = s.ph := rfl
@[simp] theorem rejectAtStart_dlen (r : Reason) (s : State) : (rejectAtStart r s).dlen = s.dlen := rfl
@[simp] theorem rejectAtStart_hdr (r : Reason) (s : State) : (rejectAtStart r s).hdr = s.hdr := rfl
@[simp] theorem rejectAtStart_rem (r : Reason) (s : State) : (rejectAtStart r s).rem = s.rem := rfl
@[simp] theorem rejectAtStart_temps (r : Reason) (s : State) : (rejectAtStart r s).temps = s.temps := rfl
@[simp] theorem rejectAtStart_ht (r : Reason) (s : State) : (rejectAtStart r s).ht = s.ht := rfl
@[simp] theorem rejectAtStart_phase (r : Reason) (s : State) : (rejectAtStart r s).phase = s.phase := rfl
@[simp] theorem rejectAtStart_startReq (r : Reason) (s : State) : (rejectAtStart r s).startReq = false := rfl
@[simp] theorem rejectAtStart_resetReq (r : Reason) (s : State) : (rejectAtStart r s).resetReq = s.resetReq := rfl
@[simp] theorem rejectAtStart_tokIdx (r : Reason) (s : State) : (rejectAtStart r s).tokIdx = s.tokIdx := rfl
@[simp] theorem rejectAtStart_draws (r : Reason) (s : State) : (rejectAtStart r s).draws = s.draws := rfl

/-! ### `beginJob` (rule R280) -/

@[simp] theorem beginJob_cmd (s : State) : (beginJob s).cmd = s.cmd := rfl
@[simp] theorem beginJob_inMem (s : State) : (beginJob s).inMem = s.inMem := rfl
@[simp] theorem beginJob_inLen (s : State) : (beginJob s).inLen = s.inLen := rfl
@[simp] theorem beginJob_inOverlapsOut (s : State) : (beginJob s).inOverlapsOut = s.inOverlapsOut := rfl
@[simp] theorem beginJob_tokens (s : State) : (beginJob s).tokens = s.tokens := rfl
@[simp] theorem beginJob_busy (s : State) : (beginJob s).busy = true := rfl
@[simp] theorem beginJob_status (s : State) : (beginJob s).status = Config.freeStatus s.draws := rfl
@[simp] theorem beginJob_errPayload (s : State) : (beginJob s).errPayload = Config.freePayload s.draws := rfl
@[simp] theorem beginJob_payloadGiven (s : State) : (beginJob s).payloadGiven = false := rfl
@[simp] theorem beginJob_outMem (s : State) : (beginJob s).outMem = [] := rfl
@[simp] theorem beginJob_outLenReg (s : State) : (beginJob s).outLenReg = Config.freeOutLen s.draws := rfl
@[simp] theorem beginJob_cur (s : State) : (beginJob s).cur = s.cur := rfl
@[simp] theorem beginJob_pos (s : State) : (beginJob s).pos = s.pos := rfl
@[simp] theorem beginJob_outLen (s : State) : (beginJob s).outLen = 0 := rfl
@[simp] theorem beginJob_acc (s : State) : (beginJob s).acc = s.acc := rfl
@[simp] theorem beginJob_cnt (s : State) : (beginJob s).cnt = s.cnt := rfl
@[simp] theorem beginJob_ph (s : State) : (beginJob s).ph = s.ph := rfl
@[simp] theorem beginJob_dlen (s : State) : (beginJob s).dlen = s.dlen := rfl
@[simp] theorem beginJob_hdr (s : State) : (beginJob s).hdr = s.hdr := rfl
@[simp] theorem beginJob_rem (s : State) : (beginJob s).rem = s.rem := rfl
@[simp] theorem beginJob_temps (s : State) : (beginJob s).temps = Config.freeTemps s.draws := rfl
@[simp] theorem beginJob_ht (s : State) : (beginJob s).ht = s.ht := rfl
@[simp] theorem beginJob_phase (s : State) : (beginJob s).phase = s.phase := rfl
@[simp] theorem beginJob_startReq (s : State) : (beginJob s).startReq = false := rfl
@[simp] theorem beginJob_resetReq (s : State) : (beginJob s).resetReq = s.resetReq := rfl
@[simp] theorem beginJob_tokIdx (s : State) : (beginJob s).tokIdx = s.tokIdx := rfl
@[simp] theorem beginJob_draws (s : State) : (beginJob s).draws = s.draws + 1 := rfl

/-! ### `framerInit` (rule R131) -/

@[simp] theorem framerInit_cmd (s : State) : (framerInit s).cmd = s.cmd := rfl
@[simp] theorem framerInit_inMem (s : State) : (framerInit s).inMem = s.inMem := rfl
@[simp] theorem framerInit_inLen (s : State) : (framerInit s).inLen = s.inLen := rfl
@[simp] theorem framerInit_inOverlapsOut (s : State) : (framerInit s).inOverlapsOut = s.inOverlapsOut := rfl
@[simp] theorem framerInit_tokens (s : State) : (framerInit s).tokens = s.tokens := rfl
@[simp] theorem framerInit_busy (s : State) : (framerInit s).busy = s.busy := rfl
@[simp] theorem framerInit_status (s : State) : (framerInit s).status = s.status := rfl
@[simp] theorem framerInit_errPayload (s : State) : (framerInit s).errPayload = s.errPayload := rfl
@[simp] theorem framerInit_payloadGiven (s : State) : (framerInit s).payloadGiven = s.payloadGiven := rfl
@[simp] theorem framerInit_outMem (s : State) : (framerInit s).outMem = Memory.write s.outMem s.outLen 0 := rfl
@[simp] theorem framerInit_outLenReg (s : State) : (framerInit s).outLenReg = s.outLenReg := rfl
@[simp] theorem framerInit_cur (s : State) : (framerInit s).cur = s.cur := rfl
@[simp] theorem framerInit_pos (s : State) : (framerInit s).pos = s.pos := rfl
@[simp] theorem framerInit_outLen (s : State) : (framerInit s).outLen = s.outLen + 1 := rfl
@[simp] theorem framerInit_acc (s : State) : (framerInit s).acc = 0 := rfl
@[simp] theorem framerInit_cnt (s : State) : (framerInit s).cnt = 0 := rfl
@[simp] theorem framerInit_ph (s : State) : (framerInit s).ph = s.outLen := rfl
@[simp] theorem framerInit_dlen (s : State) : (framerInit s).dlen = s.dlen := rfl
@[simp] theorem framerInit_hdr (s : State) : (framerInit s).hdr = s.hdr := rfl
@[simp] theorem framerInit_rem (s : State) : (framerInit s).rem = s.rem := rfl
@[simp] theorem framerInit_temps (s : State) : (framerInit s).temps = s.temps := rfl
@[simp] theorem framerInit_ht (s : State) : (framerInit s).ht = s.ht := rfl
@[simp] theorem framerInit_phase (s : State) : (framerInit s).phase = s.phase := rfl
@[simp] theorem framerInit_startReq (s : State) : (framerInit s).startReq = s.startReq := rfl
@[simp] theorem framerInit_resetReq (s : State) : (framerInit s).resetReq = s.resetReq := rfl
@[simp] theorem framerInit_tokIdx (s : State) : (framerInit s).tokIdx = s.tokIdx := rfl
@[simp] theorem framerInit_draws (s : State) : (framerInit s).draws = s.draws := rfl

/-! ### `tagAdvance` (rule R162) -/

@[simp] theorem tagAdvance_cmd (s : State) : (tagAdvance s).cmd = s.cmd := rfl
@[simp] theorem tagAdvance_inMem (s : State) : (tagAdvance s).inMem = s.inMem := rfl
@[simp] theorem tagAdvance_inLen (s : State) : (tagAdvance s).inLen = s.inLen := rfl
@[simp] theorem tagAdvance_inOverlapsOut (s : State) : (tagAdvance s).inOverlapsOut = s.inOverlapsOut := rfl
@[simp] theorem tagAdvance_tokens (s : State) : (tagAdvance s).tokens = s.tokens := rfl
@[simp] theorem tagAdvance_busy (s : State) : (tagAdvance s).busy = s.busy := rfl
@[simp] theorem tagAdvance_status (s : State) : (tagAdvance s).status = s.status := rfl
@[simp] theorem tagAdvance_errPayload (s : State) : (tagAdvance s).errPayload = s.errPayload := rfl
@[simp] theorem tagAdvance_payloadGiven (s : State) : (tagAdvance s).payloadGiven = s.payloadGiven := rfl
@[simp] theorem tagAdvance_outMem (s : State) : (tagAdvance s).outMem = s.outMem := rfl
@[simp] theorem tagAdvance_outLenReg (s : State) : (tagAdvance s).outLenReg = s.outLenReg := rfl
@[simp] theorem tagAdvance_cur (s : State) : (tagAdvance s).cur = s.cur := rfl
@[simp] theorem tagAdvance_pos (s : State) : (tagAdvance s).pos = s.pos := rfl
@[simp] theorem tagAdvance_outLen (s : State) : (tagAdvance s).outLen = s.outLen := rfl
@[simp] theorem tagAdvance_acc (s : State) : (tagAdvance s).acc = s.acc := rfl
@[simp] theorem tagAdvance_cnt (s : State) : (tagAdvance s).cnt = s.cnt := rfl
@[simp] theorem tagAdvance_ph (s : State) : (tagAdvance s).ph = s.ph := rfl
@[simp] theorem tagAdvance_dlen (s : State) : (tagAdvance s).dlen = s.dlen := rfl
@[simp] theorem tagAdvance_hdr (s : State) : (tagAdvance s).hdr = shiftHdr s.hdr := rfl
@[simp] theorem tagAdvance_rem (s : State) : (tagAdvance s).rem = s.rem - 1 := rfl
@[simp] theorem tagAdvance_temps (s : State) : (tagAdvance s).temps = s.temps := rfl
@[simp] theorem tagAdvance_ht (s : State) : (tagAdvance s).ht = s.ht := rfl
@[simp] theorem tagAdvance_phase (s : State) : (tagAdvance s).phase = s.phase := rfl
@[simp] theorem tagAdvance_startReq (s : State) : (tagAdvance s).startReq = s.startReq := rfl
@[simp] theorem tagAdvance_resetReq (s : State) : (tagAdvance s).resetReq = s.resetReq := rfl
@[simp] theorem tagAdvance_tokIdx (s : State) : (tagAdvance s).tokIdx = s.tokIdx := rfl
@[simp] theorem tagAdvance_draws (s : State) : (tagAdvance s).draws = s.draws := rfl

/-! ### `headerLoad` (rule R156) -/

@[simp] theorem headerLoad_cmd (tags : Byte) (s : State) : (headerLoad tags s).cmd = s.cmd := rfl
@[simp] theorem headerLoad_inMem (tags : Byte) (s : State) : (headerLoad tags s).inMem = s.inMem := rfl
@[simp] theorem headerLoad_inLen (tags : Byte) (s : State) : (headerLoad tags s).inLen = s.inLen := rfl
@[simp] theorem headerLoad_inOverlapsOut (tags : Byte) (s : State) : (headerLoad tags s).inOverlapsOut = s.inOverlapsOut := rfl
@[simp] theorem headerLoad_tokens (tags : Byte) (s : State) : (headerLoad tags s).tokens = s.tokens := rfl
@[simp] theorem headerLoad_busy (tags : Byte) (s : State) : (headerLoad tags s).busy = s.busy := rfl
@[simp] theorem headerLoad_status (tags : Byte) (s : State) : (headerLoad tags s).status = s.status := rfl
@[simp] theorem headerLoad_errPayload (tags : Byte) (s : State) : (headerLoad tags s).errPayload = s.errPayload := rfl
@[simp] theorem headerLoad_payloadGiven (tags : Byte) (s : State) : (headerLoad tags s).payloadGiven = s.payloadGiven := rfl
@[simp] theorem headerLoad_outMem (tags : Byte) (s : State) : (headerLoad tags s).outMem = s.outMem := rfl
@[simp] theorem headerLoad_outLenReg (tags : Byte) (s : State) : (headerLoad tags s).outLenReg = s.outLenReg := rfl
@[simp] theorem headerLoad_cur (tags : Byte) (s : State) : (headerLoad tags s).cur = s.cur := rfl
@[simp] theorem headerLoad_pos (tags : Byte) (s : State) : (headerLoad tags s).pos = s.pos + 1 := rfl
@[simp] theorem headerLoad_outLen (tags : Byte) (s : State) : (headerLoad tags s).outLen = s.outLen := rfl
@[simp] theorem headerLoad_acc (tags : Byte) (s : State) : (headerLoad tags s).acc = s.acc := rfl
@[simp] theorem headerLoad_cnt (tags : Byte) (s : State) : (headerLoad tags s).cnt = s.cnt := rfl
@[simp] theorem headerLoad_ph (tags : Byte) (s : State) : (headerLoad tags s).ph = s.ph := rfl
@[simp] theorem headerLoad_dlen (tags : Byte) (s : State) : (headerLoad tags s).dlen = s.dlen := rfl
@[simp] theorem headerLoad_hdr (tags : Byte) (s : State) : (headerLoad tags s).hdr = tags := rfl
@[simp] theorem headerLoad_rem (tags : Byte) (s : State) : (headerLoad tags s).rem = 8 := rfl
@[simp] theorem headerLoad_temps (tags : Byte) (s : State) : (headerLoad tags s).temps = s.temps := rfl
@[simp] theorem headerLoad_ht (tags : Byte) (s : State) : (headerLoad tags s).ht = s.ht := rfl
@[simp] theorem headerLoad_phase (tags : Byte) (s : State) : (headerLoad tags s).phase = s.phase := rfl
@[simp] theorem headerLoad_startReq (tags : Byte) (s : State) : (headerLoad tags s).startReq = s.startReq := rfl
@[simp] theorem headerLoad_resetReq (tags : Byte) (s : State) : (headerLoad tags s).resetReq = s.resetReq := rfl
@[simp] theorem headerLoad_tokIdx (tags : Byte) (s : State) : (headerLoad tags s).tokIdx = s.tokIdx := rfl
@[simp] theorem headerLoad_draws (tags : Byte) (s : State) : (headerLoad tags s).draws = s.draws := rfl

/-! ### `noteMatch` (rules R111 to R114) -/

@[simp] theorem noteMatch_cmd (bs : List Byte) (d l : Nat) (s : State) : (noteMatch bs d l s).cmd = s.cmd := rfl
@[simp] theorem noteMatch_inMem (bs : List Byte) (d l : Nat) (s : State) : (noteMatch bs d l s).inMem = s.inMem := rfl
@[simp] theorem noteMatch_inLen (bs : List Byte) (d l : Nat) (s : State) : (noteMatch bs d l s).inLen = s.inLen := rfl
@[simp] theorem noteMatch_inOverlapsOut (bs : List Byte) (d l : Nat) (s : State) : (noteMatch bs d l s).inOverlapsOut = s.inOverlapsOut := rfl
@[simp] theorem noteMatch_tokens (bs : List Byte) (d l : Nat) (s : State) : (noteMatch bs d l s).tokens = s.tokens := rfl
@[simp] theorem noteMatch_busy (bs : List Byte) (d l : Nat) (s : State) : (noteMatch bs d l s).busy = s.busy := rfl
@[simp] theorem noteMatch_status (bs : List Byte) (d l : Nat) (s : State) : (noteMatch bs d l s).status = s.status := rfl
@[simp] theorem noteMatch_errPayload (bs : List Byte) (d l : Nat) (s : State) : (noteMatch bs d l s).errPayload = s.errPayload := rfl
@[simp] theorem noteMatch_payloadGiven (bs : List Byte) (d l : Nat) (s : State) : (noteMatch bs d l s).payloadGiven = s.payloadGiven := rfl
@[simp] theorem noteMatch_outMem (bs : List Byte) (d l : Nat) (s : State) : (noteMatch bs d l s).outMem = s.outMem := rfl
@[simp] theorem noteMatch_outLenReg (bs : List Byte) (d l : Nat) (s : State) : (noteMatch bs d l s).outLenReg = s.outLenReg := rfl
@[simp] theorem noteMatch_cur (bs : List Byte) (d l : Nat) (s : State) : (noteMatch bs d l s).cur = s.cur := rfl
@[simp] theorem noteMatch_pos (bs : List Byte) (d l : Nat) (s : State) : (noteMatch bs d l s).pos = s.pos + bs.length := rfl
@[simp] theorem noteMatch_outLen (bs : List Byte) (d l : Nat) (s : State) : (noteMatch bs d l s).outLen = s.outLen := rfl
@[simp] theorem noteMatch_acc (bs : List Byte) (d l : Nat) (s : State) : (noteMatch bs d l s).acc = s.acc := rfl
@[simp] theorem noteMatch_cnt (bs : List Byte) (d l : Nat) (s : State) : (noteMatch bs d l s).cnt = s.cnt := rfl
@[simp] theorem noteMatch_ph (bs : List Byte) (d l : Nat) (s : State) : (noteMatch bs d l s).ph = s.ph := rfl
@[simp] theorem noteMatch_dlen (bs : List Byte) (d l : Nat) (s : State) : (noteMatch bs d l s).dlen = s.dlen := rfl
@[simp] theorem noteMatch_hdr (bs : List Byte) (d l : Nat) (s : State) : (noteMatch bs d l s).hdr = s.hdr := rfl
@[simp] theorem noteMatch_rem (bs : List Byte) (d l : Nat) (s : State) : (noteMatch bs d l s).rem = s.rem := rfl
@[simp] theorem noteMatch_temps (bs : List Byte) (d l : Nat) (s : State) : (noteMatch bs d l s).temps = { Temps.noteBytes s.temps bs with dist := BitVec.ofNat 13 d, len := BitVec.ofNat 17 l } := rfl
@[simp] theorem noteMatch_ht (bs : List Byte) (d l : Nat) (s : State) : (noteMatch bs d l s).ht = s.ht := rfl
@[simp] theorem noteMatch_phase (bs : List Byte) (d l : Nat) (s : State) : (noteMatch bs d l s).phase = s.phase := rfl
@[simp] theorem noteMatch_startReq (bs : List Byte) (d l : Nat) (s : State) : (noteMatch bs d l s).startReq = s.startReq := rfl
@[simp] theorem noteMatch_resetReq (bs : List Byte) (d l : Nat) (s : State) : (noteMatch bs d l s).resetReq = s.resetReq := rfl
@[simp] theorem noteMatch_tokIdx (bs : List Byte) (d l : Nat) (s : State) : (noteMatch bs d l s).tokIdx = s.tokIdx := rfl
@[simp] theorem noteMatch_draws (bs : List Byte) (d l : Nat) (s : State) : (noteMatch bs d l s).draws = s.draws := rfl

/-! ### `beginCopy` (rules R159 and R160) -/

@[simp] theorem beginCopy_cmd (d : Nat) (s : State) : (beginCopy d s).cmd = s.cmd := rfl
@[simp] theorem beginCopy_inMem (d : Nat) (s : State) : (beginCopy d s).inMem = s.inMem := rfl
@[simp] theorem beginCopy_inLen (d : Nat) (s : State) : (beginCopy d s).inLen = s.inLen := rfl
@[simp] theorem beginCopy_inOverlapsOut (d : Nat) (s : State) : (beginCopy d s).inOverlapsOut = s.inOverlapsOut := rfl
@[simp] theorem beginCopy_tokens (d : Nat) (s : State) : (beginCopy d s).tokens = s.tokens := rfl
@[simp] theorem beginCopy_busy (d : Nat) (s : State) : (beginCopy d s).busy = s.busy := rfl
@[simp] theorem beginCopy_status (d : Nat) (s : State) : (beginCopy d s).status = s.status := rfl
@[simp] theorem beginCopy_errPayload (d : Nat) (s : State) : (beginCopy d s).errPayload = s.errPayload := rfl
@[simp] theorem beginCopy_payloadGiven (d : Nat) (s : State) : (beginCopy d s).payloadGiven = s.payloadGiven := rfl
@[simp] theorem beginCopy_outMem (d : Nat) (s : State) : (beginCopy d s).outMem = s.outMem := rfl
@[simp] theorem beginCopy_outLenReg (d : Nat) (s : State) : (beginCopy d s).outLenReg = s.outLenReg := rfl
@[simp] theorem beginCopy_cur (d : Nat) (s : State) : (beginCopy d s).cur = s.cur := rfl
@[simp] theorem beginCopy_pos (d : Nat) (s : State) : (beginCopy d s).pos = s.pos := rfl
@[simp] theorem beginCopy_outLen (d : Nat) (s : State) : (beginCopy d s).outLen = s.outLen := rfl
@[simp] theorem beginCopy_acc (d : Nat) (s : State) : (beginCopy d s).acc = s.acc := rfl
@[simp] theorem beginCopy_cnt (d : Nat) (s : State) : (beginCopy d s).cnt = s.cnt := rfl
@[simp] theorem beginCopy_ph (d : Nat) (s : State) : (beginCopy d s).ph = s.ph := rfl
@[simp] theorem beginCopy_dlen (d : Nat) (s : State) : (beginCopy d s).dlen = s.dlen := rfl
@[simp] theorem beginCopy_hdr (d : Nat) (s : State) : (beginCopy d s).hdr = s.hdr := rfl
@[simp] theorem beginCopy_rem (d : Nat) (s : State) : (beginCopy d s).rem = s.rem := rfl
@[simp] theorem beginCopy_temps (d : Nat) (s : State) : (beginCopy d s).temps = { s.temps with src := s.outLen - d, k := 0 } := rfl
@[simp] theorem beginCopy_ht (d : Nat) (s : State) : (beginCopy d s).ht = s.ht := rfl
@[simp] theorem beginCopy_phase (d : Nat) (s : State) : (beginCopy d s).phase = s.phase := rfl
@[simp] theorem beginCopy_startReq (d : Nat) (s : State) : (beginCopy d s).startReq = s.startReq := rfl
@[simp] theorem beginCopy_resetReq (d : Nat) (s : State) : (beginCopy d s).resetReq = s.resetReq := rfl
@[simp] theorem beginCopy_tokIdx (d : Nat) (s : State) : (beginCopy d s).tokIdx = s.tokIdx := rfl
@[simp] theorem beginCopy_draws (d : Nat) (s : State) : (beginCopy d s).draws = s.draws := rfl

/-! ### `copyByte` (rule R160) -/

@[simp] theorem copyByte_cmd (d : Nat) (s : State) : (copyByte d s).cmd = s.cmd := rfl
@[simp] theorem copyByte_inMem (d : Nat) (s : State) : (copyByte d s).inMem = s.inMem := rfl
@[simp] theorem copyByte_inLen (d : Nat) (s : State) : (copyByte d s).inLen = s.inLen := rfl
@[simp] theorem copyByte_inOverlapsOut (d : Nat) (s : State) : (copyByte d s).inOverlapsOut = s.inOverlapsOut := rfl
@[simp] theorem copyByte_tokens (d : Nat) (s : State) : (copyByte d s).tokens = s.tokens := rfl
@[simp] theorem copyByte_busy (d : Nat) (s : State) : (copyByte d s).busy = s.busy := rfl
@[simp] theorem copyByte_status (d : Nat) (s : State) : (copyByte d s).status = s.status := rfl
@[simp] theorem copyByte_errPayload (d : Nat) (s : State) : (copyByte d s).errPayload = s.errPayload := rfl
@[simp] theorem copyByte_payloadGiven (d : Nat) (s : State) : (copyByte d s).payloadGiven = s.payloadGiven := rfl
@[simp] theorem copyByte_outMem (d : Nat) (s : State) : (copyByte d s).outMem = Memory.write s.outMem s.outLen (s.outByte (s.outLen - d)) := rfl
@[simp] theorem copyByte_outLenReg (d : Nat) (s : State) : (copyByte d s).outLenReg = s.outLenReg := rfl
@[simp] theorem copyByte_cur (d : Nat) (s : State) : (copyByte d s).cur = s.cur := rfl
@[simp] theorem copyByte_pos (d : Nat) (s : State) : (copyByte d s).pos = s.pos := rfl
@[simp] theorem copyByte_outLen (d : Nat) (s : State) : (copyByte d s).outLen = s.outLen + 1 := rfl
@[simp] theorem copyByte_acc (d : Nat) (s : State) : (copyByte d s).acc = s.acc := rfl
@[simp] theorem copyByte_cnt (d : Nat) (s : State) : (copyByte d s).cnt = s.cnt := rfl
@[simp] theorem copyByte_ph (d : Nat) (s : State) : (copyByte d s).ph = s.ph := rfl
@[simp] theorem copyByte_dlen (d : Nat) (s : State) : (copyByte d s).dlen = s.dlen := rfl
@[simp] theorem copyByte_hdr (d : Nat) (s : State) : (copyByte d s).hdr = s.hdr := rfl
@[simp] theorem copyByte_rem (d : Nat) (s : State) : (copyByte d s).rem = s.rem := rfl
@[simp] theorem copyByte_temps (d : Nat) (s : State) : (copyByte d s).temps = { s.temps with k := s.temps.k + 1 } := rfl
@[simp] theorem copyByte_ht (d : Nat) (s : State) : (copyByte d s).ht = s.ht := rfl
@[simp] theorem copyByte_phase (d : Nat) (s : State) : (copyByte d s).phase = s.phase := rfl
@[simp] theorem copyByte_startReq (d : Nat) (s : State) : (copyByte d s).startReq = s.startReq := rfl
@[simp] theorem copyByte_resetReq (d : Nat) (s : State) : (copyByte d s).resetReq = s.resetReq := rfl
@[simp] theorem copyByte_tokIdx (d : Nat) (s : State) : (copyByte d s).tokIdx = s.tokIdx := rfl
@[simp] theorem copyByte_draws (d : Nat) (s : State) : (copyByte d s).draws = s.draws := rfl

end Sys2Proof.Machine
end

