-- ==== Sys2Proof/Laws/Ops.lean ====
section
/-! SUPPORT. What each shared operation does, said once: a closed form of every operation that appends, emits, registers,
copies or searches, which names the fields it writes and so leaves every other field alone. -/

namespace Sys2Proof.Machine

/-! ### Appending -/

/-- Appending bytes writes them at `out_len` on, and nothing else (rule R13). -/
theorem appendBytes_eq (bs : List Byte) (s : State) :
    State.appendBytes bs s =
      { s with outMem := Memory.writeBytes s.outMem s.outLen bs, outLen := s.outLen + bs.length } := by
  induction bs generalizing s with
  | nil => rfl
  | cons v vs ih =>
    rw [State.appendBytes, ih]
    simp only [State.append, Memory.writeBytes, List.length_cons, State.mk.injEq, true_and, and_true]
    omega

/-! ### The framer -/

/-- EMIT into a group that is not full (rules R132 and R133). -/
theorem emit_open (i : Instr) (s : State) (h : s.cnt ≠ 8) :
    emit i s =
      { s with
        outMem := Memory.writeBytes s.outMem s.outLen (encode i)
        outLen := s.outLen + (encode i).length
        acc := accPush s.acc (instrTag i)
        cnt := s.cnt + 1 } := by
  have hf : flushIfFull s = s := if_neg h
  simp [emit, pushTag, hf, appendBytes_eq]

/-- EMIT into a full group: the flush writes its header and opens a new group first (rules R132 and R133). -/
theorem emit_full (i : Instr) (s : State) (h : s.cnt = 8) :
    emit i s =
      { s with
        outMem := Memory.writeBytes (Memory.write (Memory.write s.outMem s.ph s.acc) s.outLen 0) (s.outLen + 1) (encode i)
        outLen := s.outLen + 1 + (encode i).length
        acc := accPush 0 (instrTag i)
        cnt := 1
        ph := s.outLen } := by
  have hf : flushIfFull s = flushGroup s := if_pos h
  simp [emit, pushTag, hf, appendBytes_eq, flushGroup, framerInit, State.append, State.rewrite]

/-- EMIT writes the output and the framer's registers, and nothing else. -/
theorem emit_frame (i : Instr) (s : State) :
    emit i s =
      { s with
        outMem := (emit i s).outMem
        outLen := (emit i s).outLen
        acc := (emit i s).acc
        cnt := (emit i s).cnt
        ph := (emit i s).ph } := by
  by_cases h : s.cnt = 8
  · simp [emit_full i s h]
  · simp [emit_open i s h]

/-! ### The match finder -/

/-- REGISTER writes the table and `p`, and nothing else (rule R194). -/
theorem register_frame (h4 : Hash4) (p : Nat) (s : State) :
    register h4 p s = { s with ht := (register h4 p s).ht, temps := { s.temps with p := p } } := by
  simp only [register]
  split <;> rfl

/-- Registering a span writes the table and `p`, and nothing else. -/
theorem registerSpan_frame (h4 : Hash4) (p n : Nat) (s : State) :
    registerSpan h4 p n s =
      { s with ht := (registerSpan h4 p n s).ht, temps := (registerSpan h4 p n s).temps } := by
  induction n generalizing p s with
  | zero => rfl
  | succ n ih =>
    rw [registerSpan, ih, register_frame]

/-- The rest of MF_STEP writes the output, the framer, the table, `p` and `cur`, and nothing else (rule R197). -/
theorem finderEmit_frame (h4 : Hash4) (i : Instr) (len : Nat) (s : State) :
    finderEmit h4 i len s =
      { s with
        outMem := (emit i s).outMem
        outLen := (emit i s).outLen
        acc := (emit i s).acc
        cnt := (emit i s).cnt
        ph := (emit i s).ph
        ht := (finderEmit h4 i len s).ht
        temps := (finderEmit h4 i len s).temps
        cur := s.cur + len } := by
  simp only [finderEmit]
  rw [registerSpan_frame, emit_frame]

/-- The search writes only the temporaries. -/
theorem search_frame (h4 : Hash4) (s : State) : (search h4 s).2 = { s with temps := (search h4 s).2.temps } := by
  simp only [search, searchWindow]
  repeat' split
  all_goals rfl

/-! ### Copying -/

/-- BACKREF_COPY writes the output and `k`, and nothing else (rule R160). -/
theorem backrefCopy_frame (d n : Nat) (s : State) :
    (backrefCopy d n s).1 =
      { s with
        outMem := (backrefCopy d n s).1.outMem
        outLen := (backrefCopy d n s).1.outLen
        temps := (backrefCopy d n s).1.temps } := by
  induction n generalizing s with
  | zero => rfl
  | succ n ih =>
    simp only [backrefCopy]
    split
    · rfl
    · rw [ih]; simp only [copyByte_cmd, copyByte_inMem, copyByte_inLen, copyByte_inOverlapsOut, copyByte_tokens,
        copyByte_busy, copyByte_status, copyByte_errPayload, copyByte_payloadGiven, copyByte_outLenReg, copyByte_cur,
        copyByte_pos, copyByte_acc, copyByte_cnt, copyByte_ph, copyByte_dlen, copyByte_hdr, copyByte_rem, copyByte_ht, copyByte_phase,
        copyByte_startReq, copyByte_resetReq, copyByte_tokIdx, copyByte_draws]

/-- How far BACKREF_COPY gets, and whether OVERRUN_HANDLE is reached (rules R160 and R161), from a state within the
declared length. -/
theorem backrefCopy_outLen (d n : Nat) (s : State) (h : s.outLen ≤ s.dlen.toNat) :
    (backrefCopy d n s).1.outLen = min (s.outLen + n) s.dlen.toNat ∧
      ((backrefCopy d n s).2 = true ↔ s.dlen.toNat < s.outLen + n) := by
  induction n generalizing s with
  | zero => simp [backrefCopy]; omega
  | succ n ih =>
    simp only [backrefCopy]
    split
    · rename_i e; simp [e]
    · obtain ⟨h1, h2⟩ := ih (copyByte d s) (by simp; omega)
      simp only [copyByte_outLen, copyByte_dlen] at h1 h2
      exact ⟨by rw [h1]; omega, by rw [h2]; omega⟩

/-- BACKREF_COPY leaves the source index alone, and counts the bytes it copied where none is left over (rule R160). -/
theorem backrefCopy_temps (d n : Nat) (s : State) :
    (backrefCopy d n s).1.temps.src = s.temps.src ∧
      (s.outLen + n ≤ s.dlen.toNat →
        (backrefCopy d n s).1.temps = { s.temps with k := s.temps.k + BitVec.ofNat 17 n }) := by
  induction n generalizing s with
  | zero => simp [backrefCopy]
  | succ n ih =>
    simp only [backrefCopy]
    split
    · exact ⟨rfl, fun h => by omega⟩
    · obtain ⟨h1, h2⟩ := ih (copyByte d s)
      refine ⟨h1, fun h => ?_⟩
      rw [h2 (by simp; omega)]
      simp only [copyByte_temps, Temps.mk.injEq, true_and, and_true, BitVec.add_assoc]
      congr 1
      apply BitVec.eq_of_toNat_eq
      simp [BitVec.toNat_add]
      omega

/-- BACKREF_COPY never shrinks the output and leaves every byte outside the range it appends alone. -/
theorem backrefCopy_keeps (d n : Nat) (s : State) :
    s.outLen ≤ (backrefCopy d n s).1.outLen ∧
      ∀ x, x < s.outLen ∨ (backrefCopy d n s).1.outLen ≤ x →
        Memory.read (backrefCopy d n s).1.outMem x = Memory.read s.outMem x := by
  induction n generalizing s with
  | zero => exact ⟨Nat.le_refl _, fun _ _ => rfl⟩
  | succ n ih =>
    simp only [backrefCopy]
    split
    · exact ⟨Nat.le_refl _, fun _ _ => rfl⟩
    · obtain ⟨h1, h2⟩ := ih (copyByte d s)
      simp only [copyByte_outLen, copyByte_outMem] at h1 h2
      refine ⟨by omega, fun x hx => ?_⟩
      rw [h2 x (by omega), memory_read_write_other _ _ (by omega)]

/-- Each byte BACKREF_COPY appends is the one `d` before it (rule R160), also where that byte is itself a copied one (rule R67). -/
theorem backrefCopy_bytes (d n : Nat) (s : State) (hd : 1 ≤ d) (hs : d ≤ s.outLen) (x : Nat) (hx : s.outLen ≤ x)
    (hx' : x < (backrefCopy d n s).1.outLen) :
    Memory.read (backrefCopy d n s).1.outMem x = Memory.read (backrefCopy d n s).1.outMem (x - d) := by
  induction n generalizing s with
  | zero => exact absurd hx' (Nat.not_lt.2 hx)
  | succ n ih =>
    revert hx'
    simp only [backrefCopy]
    split
    · exact fun hx' => absurd hx' (Nat.not_lt.2 hx)
    · intro hx'
      rcases Nat.eq_or_lt_of_le hx with e | hlt
      · obtain ⟨h1, h2⟩ := backrefCopy_keeps d n (copyByte d s)
        simp only [copyByte_outLen, copyByte_outMem] at h1 h2
        subst e
        rw [h2 _ (by omega), h2 _ (by omega), memory_read_write_same, memory_read_write_other _ _ (by omega)]
        rfl
      · exact ih (copyByte d s) (by simp; omega) (by simpa using hlt) hx'

/-! ### What the operations keep -/

/-- Every cell of the memory after a write of consecutive bytes was there before or lies below the end of the write. -/
theorem memory_mem_writeBytes (bs : List Byte) (m : Memory) (a : Nat) (c : Host.Cell)
    (h : c ∈ Memory.writeBytes m a bs) : c ∈ m ∨ c.1 < a + bs.length := by
  induction bs generalizing m a with
  | nil => exact .inl h
  | cons v vs ih =>
    rcases ih _ _ h with h | h
    · rcases memory_mem_write _ _ _ _ h with h | h
      · exact .inl h
      · right; rw [h]; simp
    · right; simp; omega

/-- BACKREF_COPY keeps the output in canonical form and below `out_len`. -/
theorem backrefCopy_wf (d n : Nat) (s : State) (hw : Memory.wf s.outMem = true) (hb : ∀ c ∈ s.outMem, c.1 < s.outLen) :
    Memory.wf (backrefCopy d n s).1.outMem = true ∧
      ∀ c ∈ (backrefCopy d n s).1.outMem, c.1 < (backrefCopy d n s).1.outLen := by
  induction n generalizing s with
  | zero => exact ⟨hw, hb⟩
  | succ n ih =>
    simp only [backrefCopy]
    split
    · exact ⟨hw, hb⟩
    · apply ih
      · simp only [copyByte_outMem]; exact memory_wf_write _ _ _ hw
      · simp only [copyByte_outMem, copyByte_outLen]
        intro c hc
        rcases memory_mem_write _ _ _ _ hc with h | h
        · have := hb c h; omega
        · rw [h]; simp

/-- Registering a span keeps the table in canonical form, and every entry is an old one or a position of the span that has a
window, in the slot of its hash (rules R194 and R195). -/
theorem registerSpan_mem (h4 : Hash4) (n p : Nat) (s : State) (hw : HashTable.wf s.ht = true) :
    HashTable.wf (registerSpan h4 p n s).ht = true ∧
      ∀ c ∈ (registerSpan h4 p n s).ht,
        c ∈ s.ht ∨ (c.2 < p + n ∧ c.2 + 4 ≤ s.inLen ∧ c.1 = (hashWindow h4 s c.2).toNat) := by
  induction n generalizing p s with
  | zero => exact ⟨hw, fun c h => .inl h⟩
  | succ n ih =>
    have hin : (register h4 p s).inLen = s.inLen := by rw [register_frame]
    have hh : ∀ q, hashWindow h4 (register h4 p s) q = hashWindow h4 s q := by intro q; rw [register_frame]; rfl
    have hw' : HashTable.wf (register h4 p s).ht = true := by
      simp only [register]; split
      · exact table_wf_insert _ _ _ (by have := (hashWindow h4 s p).isLt; simpa using this) hw
      · exact hw
    obtain ⟨i1, i2⟩ := ih (p + 1) (register h4 p s) hw'
    refine ⟨i1, fun c hc => ?_⟩
    rcases i2 c hc with h | ⟨h1, h2, h3⟩
    · revert h
      simp only [register]; split
      · rename_i hwin
        intro h
        rcases table_mem_insert _ _ _ _ h with h | h
        · exact .inl h
        · right; subst h; exact ⟨by simp, hwin, rfl⟩
      · exact fun h => .inl h
    · right; rw [hin] at h2; rw [hh] at h3; exact ⟨by omega, h2, h3⟩

/-- The accumulator of an open group holds one bit for each tag pushed (rules R27 and R132). -/
theorem accPush_bound : ∀ (a : Byte) (t : Bool) (c : BitVec 4), c.toNat ≤ 8 → c ≠ 8 → a.toNat < 2 ^ c.toNat →
    (accPush a t).toNat < 2 ^ (c + 1).toNat ∧ (c + 1).toNat ≤ 8 := by
  decide +revert

/-- EMIT keeps the output in canonical form and below `out_len`, and the framer's registers in their bounds (rules R27 to R29). -/
theorem emit_bounds (i : Instr) (s : State) (hw : Memory.wf s.outMem = true) (hb : ∀ c ∈ s.outMem, c.1 < s.outLen)
    (h1 : 4 ≤ s.ph) (h2 : s.ph < s.outLen) (h3 : s.cnt.toNat ≤ 8) (h4 : s.acc.toNat < 2 ^ s.cnt.toNat) :
    Memory.wf (emit i s).outMem = true ∧ (∀ c ∈ (emit i s).outMem, c.1 < (emit i s).outLen) ∧ 4 ≤ (emit i s).ph ∧
      (emit i s).ph < (emit i s).outLen ∧ (emit i s).cnt.toNat ≤ 8 ∧
      (emit i s).acc.toNat < 2 ^ (emit i s).cnt.toNat := by
  have first : ∀ t : Bool, (accPush 0 t).toNat < 2 := by decide
  by_cases h : s.cnt = 8
  · rw [emit_full i s h]
    refine ⟨memory_wf_writeBytes _ _ _ (memory_wf_write _ _ _ (memory_wf_write _ _ _ hw)), ?_, by simp; omega,
      by simp; omega, by simp, by simpa using first _⟩
    simp only
    intro c hc
    rcases memory_mem_writeBytes _ _ _ _ hc with hc | hc
    · rcases memory_mem_write _ _ _ _ hc with hc | hc
      · rcases memory_mem_write _ _ _ _ hc with hc | hc
        · have := hb c hc; omega
        · rw [hc]; simp; omega
      · rw [hc]; simp; omega
    · exact hc
  · rw [emit_open i s h]
    have := accPush_bound s.acc (instrTag i) s.cnt h3 h h4
    refine ⟨memory_wf_writeBytes _ _ _ hw, ?_, h1, by simp; omega, this.2, this.1⟩
    intro c hc
    rcases memory_mem_writeBytes _ _ _ _ hc with hc | hc
    · have := hb c hc; simp; omega
    · exact hc

end Sys2Proof.Machine
end

