-- ==== Sys2Proof/Laws/PerInstr.lean ====
section
/-! SUPPORT. Laws stated per instruction, one lemma per constructor: how many bytes each element of the stream takes. -/

namespace Sys2Proof.Laws.EncodedBytes

/-- The number of bytes the table of rule R93 gives each element. A job command has none (rule R22). -/
def byteCount : Instr → Nat
  | .magic => 1
  | .sizeShort _ => 3
  | .sizeEscape _ => 7
  | .groupHdr _ => 1
  | .lit _ => 1
  | .match2 _ _ => 2
  | .match3 _ _ => 3
  | .match4 _ _ => 4
  | .compress => 0
  | .decompress => 0
  | .encodeTokens => 0

/-- An instruction encodes to as many bytes as the table gives it, and it has a place in the stream exactly when it has bytes. -/
def Statement (i : Instr) : Prop :=
  (encode i).length = byteCount i ∧ (placeOf i ≠ none ↔ encode i ≠ []) ∧ (i.isStream = true ↔ encode i ≠ [])

theorem magic : Statement .magic := by simp [Statement, encode, byteCount, placeOf, Instr.isStream]

theorem sizeShort (n : BitVec 24) : Statement (.sizeShort n) := by
  simp [Statement, encode, byteCount, placeOf, Instr.isStream]

theorem sizeEscape (n : BitVec 32) : Statement (.sizeEscape n) := by
  simp [Statement, encode, byteCount, placeOf, Instr.isStream]

theorem groupHdr (tags : Byte) : Statement (.groupHdr tags) := by
  simp [Statement, encode, byteCount, placeOf, Instr.isStream]

theorem lit (v : Byte) : Statement (.lit v) := by
  simp [Statement, encode, byteCount, placeOf, Instr.isStream]

theorem match2 (la : BitVec 4) (da : BitVec 12) : Statement (.match2 la da) := by
  simp [Statement, encode, byteCount, placeOf, Instr.isStream]

theorem match3 (lb : BitVec 8) (da : BitVec 12) : Statement (.match3 lb da) := by
  simp [Statement, encode, byteCount, placeOf, Instr.isStream]

theorem match4 (lc : BitVec 16) (da : BitVec 12) : Statement (.match4 lc da) := by
  simp [Statement, encode, byteCount, placeOf, Instr.isStream]

theorem compress : Statement .compress := by simp [Statement, encode, byteCount, placeOf, Instr.isStream]

theorem decompress : Statement .decompress := by simp [Statement, encode, byteCount, placeOf, Instr.isStream]

theorem encodeTokens : Statement .encodeTokens := by simp [Statement, encode, byteCount, placeOf, Instr.isStream]

end Sys2Proof.Laws.EncodedBytes
end

