-- ==== Sys2Proof/Laws/Step.lean ====
section
/-! SUPPORT. What one step can do, said once: `step_next` and the lemmas it is built from. Invariants and frames are
derived from these, without unfolding the step. -/

namespace Sys2Proof.Machine

/-! ### What the decoder answers -/

/-- A match token that decodes is one of the three tiers, well formed, and takes as many bytes as it encodes to. -/
theorem decodeMatch_ok {bs : List Byte} {i : Instr} {n : Nat} (h : decodeMatch bs = .ok i n) :
    i.wf = true ∧ n = (encode i).length ∧ n ≤ bs.length ∧
      ((∃ la da, i = .match2 la da) ∨ (∃ lb da, i = .match3 lb da) ∨ ∃ lc da, i = .match4 lc da) := by
  match bs, h with
  | [], h => simp [decodeMatch] at h
  | [_], h => simp [decodeMatch] at h
  | b0 :: b1 :: rest, h =>
    simp only [decodeMatch] at h
    split at h
    · match rest, h with
      | [], h => simp at h
      | b2 :: _, h =>
        simp only [DecodeResult.ok.injEq] at h
        obtain ⟨rfl, rfl⟩ := h
        exact ⟨rfl, rfl, by simp, .inr (.inl ⟨_, _, rfl⟩)⟩
    · split at h
      · match rest, h with
        | [], h => simp at h
        | [_], h => simp at h
        | b2 :: b3 :: _, h =>
          simp only [DecodeResult.ok.injEq] at h
          obtain ⟨rfl, rfl⟩ := h
          exact ⟨rfl, rfl, by simp, .inr (.inr ⟨_, _, rfl⟩)⟩
      · rename_i h0 h1
        simp only [DecodeResult.ok.injEq] at h
        obtain ⟨rfl, rfl⟩ := h
        exact ⟨by simpa [Instr.wf] using And.intro h0 h1, rfl, by simp, .inl ⟨_, _, rfl⟩⟩

/-- Four bytes always hold a match token (rule R117). -/
theorem decodeMatch_total {bs : List Byte} (h : 4 ≤ bs.length) : ∃ i n, decodeMatch bs = .ok i n := by
  match bs, h with
  | b0 :: b1 :: b2 :: b3 :: _, _ =>
    simp only [decodeMatch]
    split
    · exact ⟨_, _, rfl⟩
    · split <;> exact ⟨_, _, rfl⟩

/-- A size header that decodes is the short form, or the escape with all seven bytes there (rule R75). -/
theorem decodeSize_ok {bs : List Byte} {i : Instr} {n : Nat} (h : decodeSize bs = .ok i n) :
    (∃ v, i = .sizeShort v ∧ n = 3 ∧ 3 ≤ bs.length) ∨ ∃ v, i = .sizeEscape v ∧ n = 7 ∧ 7 ≤ bs.length := by
  match bs, h with
  | [], h => simp [decodeSize] at h
  | [_], h => simp [decodeSize] at h
  | [_, _], h => simp [decodeSize] at h
  | [b1, b2, b3], h | [b1, b2, b3, _], h | [b1, b2, b3, _, _], h | [b1, b2, b3, _, _, _], h =>
    simp only [decodeSize, DecodeResult.ok.injEq] at h
    exact .inl ⟨_, h.1.symm, h.2.symm, by simp⟩
  | b1 :: b2 :: b3 :: b4 :: b5 :: b6 :: b7 :: _, h =>
    simp only [decodeSize] at h
    split at h
    · simp only [DecodeResult.ok.injEq] at h
      exact .inr ⟨_, h.1.symm, h.2.symm, by simp⟩
    · simp only [DecodeResult.ok.injEq] at h
      exact .inl ⟨_, h.1.symm, h.2.symm, by simp⟩

@[simp] theorem fetchBytes_length (pl : Place) (s : State) :
    (fetchBytes pl s).length = min (placeBytes pl) (s.inLen - placeOffset s pl) := by
  simp [fetchBytes, State.inBytes]

/-! ### What DECOMPRESS can do -/

/-- The next states of a DECOMPRESS at each of its points (rules R153 to R163). -/
inductive DecNext (s : State) : DecPoint → State → Prop where
  | noMagic : DecNext s .magic (raise .tooShort none s)
  | badMagic : DecNext s .magic (raise .invalidMagic none s)
  | magic : DecNext s .magic (decMagic s)
  | noSize : DecNext s .size (raise .tooShort none s)
  | short (n : BitVec 24) (h : 4 ≤ s.inLen) : DecNext s .size (decSize Config.here hdrLenShort (n.setWidth 32) s)
  | escape (n : BitVec 32) (h : 8 ≤ s.inLen) : DecNext s .size (decSize Config.here hdrLenEscape n s)
  | done (h : s.dlen.toNat ≤ s.outLen) : DecNext s .loop (finish s)
  | noHeader (h : s.outLen < s.dlen.toNat) (hr : s.rem = 0) (hp : s.inLen ≤ s.pos) : DecNext s .loop (readPastEnd [] s)
  | header (tags : Byte) (h : s.outLen < s.dlen.toNat) (hr : s.rem = 0) (hp : s.pos < s.inLen) :
      DecNext s .loop (headerLoad tags s)
  | noLit (h : s.outLen < s.dlen.toNat) (hr : s.rem ≠ 0) (hp : s.inLen ≤ s.pos) : DecNext s .loop (readPastEnd [] s)
  | lit (v : Byte) (h : s.outLen < s.dlen.toNat) (hr : s.rem ≠ 0) (hp : s.pos < s.inLen) : DecNext s .loop (decLit v s)
  | noMatch (got : List Byte) (h : s.outLen < s.dlen.toNat) (hr : s.rem ≠ 0) (hp : got.length = s.inLen - s.pos) :
      DecNext s .loop (readPastEnd got { s with temps := Temps.noteBytes s.temps got })
  | token (i : Instr) (d l : Nat) (h : s.outLen < s.dlen.toNat) (hr : s.rem ≠ 0)
      (hi : instrToken i = some (.copy d l)) (hd : 1 ≤ d) (hl : 3 ≤ l) (hp : s.pos + (encode i).length ≤ s.inLen) :
      DecNext s .loop (decMatch Config.here i d l s)

/-- The outcome of an action. -/
def Action.outcome : Action → Host.Outcome State Fault Refusal
  | .exec i s => Sys2Proof.Machine.exec i s
  | .move s => .next s
  | .stuck f => .fault f

theorem step_eq (s : State) : step s = (select Config.here s).outcome := by
  rw [step]
  cases select Config.here s <;> rfl

/-- A match token's meaning in the decoder's loop, whichever its tier. -/
theorem exec_match_dec {i : Instr} {s : State} (hph : s.phase = .dec .loop) {d l : Nat}
    (hi : instrToken i = some (.copy d l)) : exec i s = .next (decMatch Config.here i d l s) := by
  cases i <;> simp_all [instrToken, exec, execMatch2, execMatch3, execMatch4, matchToken]

/-- The operands of a well-formed match token are in range (rules R85 and R117). -/
theorem instrToken_range {i : Instr} (hw : i.wf = true) {d l : Nat} (hi : instrToken i = some (.copy d l)) :
    1 ≤ d ∧ d ≤ 4096 ∧ 3 ≤ l ∧ l ≤ 65808 := by
  cases i with
  | match2 la da =>
    simp only [instrToken, Option.some.injEq, Token.copy.injEq, matchDist, lenA] at hi
    simp only [Instr.wf, Bool.and_eq_true, bne_iff_ne, ne_eq] at hw
    have h0 : la.toNat ≠ 0 := fun e => hw.1 (BitVec.eq_of_toNat_eq e)
    have h1 : la.toNat ≠ 1 := fun e => hw.2 (BitVec.eq_of_toNat_eq e)
    have := la.isLt; have := da.isLt; omega
  | match3 lb da =>
    simp only [instrToken, Option.some.injEq, Token.copy.injEq, matchDist, lenB] at hi
    have := lb.isLt; have := da.isLt; omega
  | match4 lc da =>
    simp only [instrToken, Option.some.injEq, Token.copy.injEq, matchDist, lenC] at hi
    have := lc.isLt; have := da.isLt; omega
  | _ => simp [instrToken] at hi

/-- Every next state of a DECOMPRESS step is one of those listed. -/
theorem selectDec_next {p : DecPoint} {s t : State} (hph : s.phase = .dec p)
    (h : (selectDec p s).outcome = .next t) : DecNext s p t := by
  cases p with
  | magic =>
    simp only [selectDec, fetch] at h
    split at h
    · rename_i i n hd
      cases hb : fetchBytes .magic s with
      | nil => simp [hb, decode] at hd
      | cons b bs =>
        simp only [hb, decode] at hd
        split at hd
        · simp only [DecodeResult.ok.injEq] at hd
          obtain ⟨rfl, -⟩ := hd
          simp only [Action.outcome, exec, execMagic, hph, Host.Outcome.next.injEq] at h
          exact h ▸ .magic
        · simp at hd
    · rename_i e hd
      simp only [Action.outcome, Host.Outcome.next.injEq] at h
      cases e with
      | badMagic => exact h ▸ .badMagic
      | truncated => exact h ▸ .noMagic
  | size =>
    simp only [selectDec, fetch] at h
    split at h
    · rename_i i n hd
      rcases decodeSize_ok hd with ⟨v, rfl, -, hl⟩ | ⟨v, rfl, -, hl⟩ <;>
        simp only [Action.outcome, exec, execSizeShort, execSizeEscape, hph, Host.Outcome.next.injEq] at h <;>
        simp only [fetchBytes_length, placeBytes, placeOffset, maxElementBytes] at hl
      · exact h ▸ .short v (by omega)
      · exact h ▸ .escape v (by omega)
    · rename_i e hd
      simp only [Action.outcome, Host.Outcome.next.injEq] at h
      cases e <;> exact h ▸ .noSize
  | loop =>
    simp only [selectDec] at h
    split at h
    case isFalse hlt =>
      simp only [Action.outcome, Host.Outcome.next.injEq] at h
      exact h ▸ .done (by omega)
    case isTrue hlt =>
      simp only [loopPlace] at h
      split at h
      case isTrue hr =>
        simp only [fetch] at h
        have hlen : (fetchBytes .groupHdr s).length = _ := fetchBytes_length .groupHdr s
        cases hb : fetchBytes .groupHdr s with
        | nil =>
          rw [hb] at hlen
          simp [placeBytes, placeOffset] at hlen
          simp only [hb, decode, Action.outcome, decodeFailure, Host.Outcome.next.injEq] at h
          exact h ▸ .noHeader hlt hr (by omega)
        | cons b bs =>
          rw [hb] at hlen
          simp [placeBytes, placeOffset] at hlen
          simp only [hb, decode, Action.outcome, exec, execGroupHdr, hph, Host.Outcome.next.injEq] at h
          exact h ▸ .header b hlt hr (by omega)
      case isFalse hr =>
        cases htag : tagOf s.hdr with
        | false =>
          simp only [htag, fetch] at h
          have hlen : (fetchBytes (.token false) s).length = _ := fetchBytes_length (.token false) s
          cases hb : fetchBytes (.token false) s with
          | nil =>
            rw [hb] at hlen
            simp [placeBytes, placeOffset] at hlen
            simp only [hb, decode, Action.outcome, decodeFailure, Host.Outcome.next.injEq] at h
            exact h ▸ .noLit hlt hr (by omega)
          | cons b bs =>
            rw [hb] at hlen
            simp [placeBytes, placeOffset] at hlen
            simp only [hb, decode, Action.outcome, exec, execLit, hph, Host.Outcome.next.injEq] at h
            exact h ▸ .lit b hlt hr (by omega)
        | true =>
          simp only [htag, fetch] at h
          have hlen := fetchBytes_length (.token true) s
          simp only [placeBytes, placeOffset] at hlen
          split at h
          · rename_i i n hd
            obtain ⟨hw, rfl, hn, hi⟩ := decodeMatch_ok hd
            have htok : ∃ d l, instrToken i = some (.copy d l) := by
              rcases hi with ⟨_, _, rfl⟩ | ⟨_, _, rfl⟩ | ⟨_, _, rfl⟩ <;> exact ⟨_, _, rfl⟩
            obtain ⟨d, l, htok⟩ := htok
            obtain ⟨r1, r2, r3, r4⟩ := instrToken_range hw htok
            simp only [Action.outcome, exec_match_dec hph htok, Host.Outcome.next.injEq] at h
            have hpos : 0 < (encode i).length := by
              rcases hi with ⟨_, _, rfl⟩ | ⟨_, _, rfl⟩ | ⟨_, _, rfl⟩ <;> simp [encode]
            exact h ▸ .token i d l hlt hr htok r1 r3 (by omega)
          · rename_i e hd
            simp only [Action.outcome, decodeFailure, Host.Outcome.next.injEq] at h
            have : ¬ 4 ≤ (fetchBytes (.token true) s).length := by
              intro h4
              obtain ⟨i, n, he⟩ := decodeMatch_total h4
              simp [decode, he] at hd
            exact h ▸ .noMatch _ hlt hr (by omega)

/-! ### What an encoder job can do -/

/-- The next states of COMPRESS and ENCODE_TOKENS at each of their points (rules R221, R222 and R232). -/
inductive EncNext (s : State) (j : EncJob) : EncPoint → State → Prop where
  | magic : EncNext s j .magic (encHeader j .magic .size s)
  | size : EncNext s j .size (encHeader j (sizeInstr (encLength j s)) .init s)
  | init : EncNext s j .init { framerInit s with phase := .enc j .loop }
  | token (i : Instr) (s' : State) (tok : Token) (h : nextToken Config.here.hash4 j s = some (i, s'))
      (hi : instrToken i = some tok) : EncNext s j .loop (encToken Config.here.hash4 i tok.size j s')
  | done (h : nextToken Config.here.hash4 j s = none) : EncNext s j .loop (framerFinish (accFinish s.acc s.cnt) s)

/-- Every element `matchInstr` selects is a match token. -/
theorem matchInstr_token (d l : Nat) : ∃ d' l', instrToken (matchInstr d l) = some (.copy d' l') := by
  simp only [matchInstr]
  split
  · exact ⟨_, _, rfl⟩
  · split <;> exact ⟨_, _, rfl⟩

/-- Tier selection loses nothing of an operand in range (rules R86 and R105). -/
theorem matchInstr_operands {d l : Nat} (hd : 1 ≤ d ∧ d ≤ 4096) (hl : 3 ≤ l ∧ l ≤ 65808) :
    instrToken (matchInstr d l) = some (.copy d l) := by
  simp only [matchInstr]
  split
  · simp only [instrToken, matchDist, lenA, BitVec.toNat_ofNat, Option.some.injEq, Token.copy.injEq]
    omega
  · split <;>
      simp only [instrToken, matchDist, lenB, lenC, BitVec.toNat_ofNat, Option.some.injEq, Token.copy.injEq] <;> omega

/-- Every element the search decides on is a token. -/
theorem search_token (h4 : Hash4) (s : State) : ∃ tok, instrToken (search h4 s).1 = some tok := by
  simp only [search, searchWindow]
  repeat' split
  all_goals first
    | exact ⟨_, rfl⟩
    | (obtain ⟨d, l, h⟩ := matchInstr_token _ _; exact ⟨_, h⟩)

theorem nextToken_token {h4 : Hash4} {j : EncJob} {s s' : State} {i : Instr} (h : nextToken h4 j s = some (i, s')) :
    ∃ tok, instrToken i = some tok := by
  cases j with
  | compress =>
    simp only [nextToken] at h
    split at h
    · obtain ⟨tok, ht⟩ := search_token h4 s
      simp only [Option.some.injEq] at h
      exact ⟨tok, by rw [← ht, h]⟩
    · simp at h
  | tokens =>
    simp only [nextToken, Option.map_eq_some_iff, Prod.mk.injEq] at h
    obtain ⟨t, -, rfl, -⟩ := h
    cases t with
    | lit b => exact ⟨_, rfl⟩
    | copy d l =>
      obtain ⟨d', l', h⟩ := matchInstr_token d l
      exact ⟨_, h⟩

/-- Choosing a token writes only the temporaries. -/
theorem nextToken_frame {h4 : Hash4} {j : EncJob} {s s' : State} {i : Instr} (h : nextToken h4 j s = some (i, s')) :
    s' = { s with temps := s'.temps } := by
  cases j with
  | compress =>
    simp only [nextToken] at h
    split at h
    · simp only [Option.some.injEq] at h
      have := search_frame h4 s
      rw [h] at this
      exact this
    · simp at h
  | tokens =>
    simp only [nextToken, Option.map_eq_some_iff, Prod.mk.injEq] at h
    obtain ⟨t, -, -, rfl⟩ := h
    rfl

/-- A token's meaning in an encoder's loop, whichever its element. -/
theorem exec_token_enc {i : Instr} {s : State} {j : EncJob} (hph : s.phase = .enc j .loop) {tok : Token}
    (hi : instrToken i = some tok) : exec i s = .next (encToken Config.here.hash4 i tok.size j s) := by
  cases i <;> simp [instrToken] at hi <;> subst hi <;>
    simp [exec, execLit, execMatch2, execMatch3, execMatch4, matchToken, hph, Token.size]

/-- Every next state of an encoder's step is one of those listed. -/
theorem selectEnc_next {j : EncJob} {p : EncPoint} {s t : State} (hph : s.phase = .enc j p)
    (h : (selectEnc Config.here.hash4 j p s).outcome = .next t) : EncNext s j p t := by
  cases p with
  | magic =>
    simp only [selectEnc, Action.outcome, exec, execMagic, hph, Host.Outcome.next.injEq] at h
    exact h ▸ .magic
  | size =>
    have e : exec (sizeInstr (encLength j s)) s = .next (encHeader j (sizeInstr (encLength j s)) .init s) := by
      simp only [sizeInstr]
      split <;> simp [exec, execSizeShort, execSizeEscape, hph]
    simp only [selectEnc, Action.outcome, e, Host.Outcome.next.injEq] at h
    exact h ▸ .size
  | init =>
    simp only [selectEnc, Action.outcome, Host.Outcome.next.injEq] at h
    exact h ▸ .init
  | loop =>
    simp only [selectEnc] at h
    split at h
    · rename_i r hn
      obtain ⟨i, s'⟩ := r
      obtain ⟨tok, hi⟩ := nextToken_token hn
      have hs := nextToken_frame hn
      have hph' : s'.phase = .enc j .loop := by rw [hs]; exact hph
      simp only [Action.outcome, exec_token_enc hph' hi, Host.Outcome.next.injEq] at h
      exact h ▸ .token i s' tok hn hi
    · rename_i hn
      simp only [Action.outcome, exec, execGroupHdr, hph, Host.Outcome.next.injEq] at h
      exact h ▸ .done hn

/-! ### What a step can do -/

/-- The next states of the block. -/
inductive StepNext (s : State) : State → Prop where
  | reset (h : s.resetReq = true) : StepNext s (platformReset s)
  | start (c : Command) (h : s.resetReq = false) (hb : s.busy = false) (hr : s.startReq = true)
      (hc : s.cmd = .known c) : StepNext s (jobStart Config.here c s)
  | unknown (n : Nat) (h : s.resetReq = false) (hb : s.busy = false) (hr : s.startReq = true)
      (hc : s.cmd = .unused n) : StepNext s (rejectAtStart .unknownCommand s)
  | dec (p : DecPoint) (t : State) (h : s.resetReq = false) (hb : s.busy = true) (hp : s.phase = .dec p)
      (hn : DecNext s p t) : StepNext s t
  | enc (j : EncJob) (p : EncPoint) (t : State) (h : s.resetReq = false) (hb : s.busy = true)
      (hp : s.phase = .enc j p) (hn : EncNext s j p t) : StepNext s t

/-- The inversion of `step`: a next state is a platform reset's, a job start's, or that of the running job. -/
theorem step_next {s t : State} (h : step s = .next t) : StepNext s t := by
  rw [step_eq, select] at h
  split at h
  · rename_i hr
    simp only [Action.outcome, Host.Outcome.next.injEq] at h
    exact h ▸ .reset hr
  · rename_i hr
    have hr : s.resetReq = false := by simpa using hr
    split at h
    · rename_i hb
      simp only [selectBusy] at h
      split at h
      · simp [Action.outcome] at h
      · rename_i p hp
        exact .dec p t hr hb hp (selectDec_next hp h)
      · rename_i j p hp
        exact .enc j p t hr hb hp (selectEnc_next hp h)
    · rename_i hb
      have hb : s.busy = false := by simpa using hb
      simp only [selectIdle] at h
      split at h
      · rename_i hs
        simp only [selectStart] at h
        split at h
        · rename_i c hc
          have e : exec c.toInstr s = .next (jobStart Config.here c s) := by
            cases c <;> simp [Command.toInstr, exec, execCompress, execDecompress, execEncodeTokens, startCommand, hb]
          simp only [Action.outcome, e, Host.Outcome.next.injEq] at h
          exact h ▸ .start c hr hb hs hc
        · rename_i n hc
          simp only [Action.outcome, Host.Outcome.next.injEq] at h
          exact h ▸ .unknown n hr hb hs hc
      · simp [Action.outcome] at h

end Sys2Proof.Machine
end

