-- ==== Sys2Proof/Tests/Slice0.lean ====
section
/-! SUPPORT. The model's own tests: what is ill formed, a word of the spec for every constructor, one step of every
instruction, and a state that meets the hypotheses of each statement. Expected values come from spec/, mostly from
95_test_vectors.md. -/

namespace Sys2Proof.Tests

open Sys2Proof.Machine

/-- A job at a point of its pseudocode, with these bytes in `IN`; every other field as at power-on. -/
def running (p : Phase) (bs : List Byte) : State :=
  { State.reset with busy := true, phase := p, inMem := Memory.ofBytes bs, inLen := bs.length }

/-- A DECOMPRESS in its token loop with this declared length, after these bytes of output, and a tag on top. -/
def decoding (bs : List Byte) (pos : Nat) (out : List Byte) (d : BitVec 32) (rem : BitVec 4) (hdr : Byte) : State :=
  { running (.dec .loop) bs with
    pos := pos, outMem := Memory.ofBytes out, outLen := out.length, dlen := d, rem := rem, hdr := hdr }

/-- An encoder job in its token loop, after the header bytes of the stream and a group with `cnt` tags. -/
def encoding (j : EncJob) (bs : List Byte) (acc : Byte) (cnt : BitVec 4) : State :=
  { running (.enc j .loop) bs with outMem := [(0, 0x11)], outLen := 5 + cnt.toNat, ph := 4, acc := acc, cnt := cnt }

/-- A command that the host has asked for, with these bytes in `IN`. -/
def asked (c : CmdField) (bs : List Byte) : State :=
  { State.reset with cmd := c, startReq := true, inMem := Memory.ofBytes bs, inLen := bs.length }

/-- Whether a step answers a next state that passes a check. -/
def nextIs (o : Host.Outcome State Fault Refusal) (check : State → Bool) : Bool :=
  match o with
  | .next t => check t
  | .fault _ => false
  | .refused _ => false

/-- The first bytes of `OUT`. -/
def outBytes (n : Nat) (s : State) : List Byte := Memory.readBytes s.outMem 0 n

/-! ### What is ill formed -/

/-- Rule R81: `b0[7:4]` of a Tier A match is neither 0 nor 1. -/
theorem test_wf_match2 : Instr.wf (.match2 0 5) = false ∧ Instr.wf (.match2 1 5) = false ∧
    Instr.wf (.match2 2 0) = true ∧ Instr.wf (.match2 15 0xFFF) = true := by decide

/-- Rule R100: lengths 2 and 65809 and distances 0 and 4097 have no encoding. -/
theorem test_encodable : Token.encodable (.copy 1 2) = false ∧ Token.encodable (.copy 1 65809) = false ∧
    Token.encodable (.copy 0 3) = false ∧ Token.encodable (.copy 4097 3) = false ∧
    Token.encodable (.copy 4096 65808) = true ∧ Token.encodable (.lit 0) = true := by decide

/-- Rule R231 and vectors ET-4 to ET-7. -/
theorem test_contract : Token.inContract 0 (.copy 1 3) = false ∧ Token.inContract 1 (.copy 1 2) = false ∧
    Token.inContract 4096 (.copy 4096 3) = false ∧ Token.inContract 1 (.copy 1 65809) = false ∧
    Token.inContract 4095 (.copy 4095 3) = true := by decide

/-! ### A word of the spec for every constructor -/

/-- Rule R71: 0x11 is 0001 0001; DC-3: 0x10 is not the magic byte. -/
theorem test_word_magic : decode .magic [0b00010001] = .ok .magic 1 ∧ decode .magic [0x10] = .bad .badMagic := by decide

/-- Rule R72 and SH-3: n = 274 is 0x000112, least significant byte first; SH-9: a zero field with 7 bytes is short. -/
theorem test_word_sizeShort : decode .size [0b00010010, 0b00000001, 0b00000000] = .ok (.sizeShort 274) 3 ∧
    decode .size [0, 0, 0, 0, 0, 0] = .ok (.sizeShort 0) 3 := by decide

/-- Rule R73, SH-6 and SH-11: three zero bytes, then 32 bits, least significant byte first. -/
theorem test_word_sizeEscape : decode .size [0, 0, 0, 0xFF, 0xFF, 0xFF, 0x00] = .ok (.sizeEscape 0xFFFFFF) 7 ∧
    decode .size [0, 0, 0, 2, 0, 0, 0, 0x41] = .ok (.sizeEscape 2) 7 := by decide

/-- Rule R78 and FR-4: the tags 0 and 1 are 01 followed by six zeros. -/
theorem test_word_groupHdr : decode .groupHdr [0b01000000] = .ok (.groupHdr 0x40) 1 := by decide

/-- Rule R80 and TC-18. -/
theorem test_word_lit : decode (.token false) [0b00010001] = .ok (.lit 0x11) 1 ∧
    decode (.token false) [0x00, 0x10] = .ok (.lit 0) 1 := by decide

/-- Rule R81, TD-2 and TD-4: LLLLDDDD DDDDDDDD. -/
theorem test_word_match2 : decode (.token true) [0b00101111, 0b11111111] = .ok (.match2 0b0010 0b111111111111) 2 ∧
    decode (.token true) [0b10000000, 0b00000000] = .ok (.match2 8 0) 2 := by decide

/-- Rule R82 and TD-7: 0000LLLL LLLLDDDD DDDDDDDD. -/
theorem test_word_match3 : decode (.token true) [0b00000000, 0b11110001, 0b00100011] =
    .ok (.match3 0b00001111 0b000100100011) 3 := by decide

/-- Rule R83, TC-15 and TD-9: 0001LLLL LLLLLLLL LLLLDDDD DDDDDDDD. -/
theorem test_word_match4 : decode (.token true) [0b00010000, 0b11101110, 0b11110000, 0b00001001] =
      .ok (.match4 0b0000111011101111 0b000000001001) 4 ∧
    decode (.token true) [0x1F, 0xFF, 0xFF, 0xFE] = .ok (.match4 0xFFFF 0xFFE) 4 := by decide

/-- Rules R22 and R254: a code of an integration stands for its command, and any other is unused. -/
theorem test_word_commands :
    let codes : Command → Nat := fun c => match c with | .compress => 4 | .decompress => 7 | .encodeTokens => 9
    decodeCommand codes 4 = .known .compress ∧ decodeCommand codes 7 = .known .decompress ∧
      decodeCommand codes 9 = .known .encodeTokens ∧ decodeCommand codes 5 = .unused 5 ∧
      Command.toInstr .compress = .compress ∧ Command.toInstr .decompress = .decompress ∧
      Command.toInstr .encodeTokens = .encodeTokens := by decide

/-- The numbering of the opcode table: the first byte is bits 7..0. -/
theorem test_tableWords : decodeTableWord 8 0x11 = some .magic ∧ decodeTableWord 24 0x000112 = some (.sizeShort 0x000112) ∧
    decodeTableWord 56 0 = some (.sizeEscape 0) ∧ decodeTableWord 8 0 = some (.match3 0 0) ∧
    decodeTableWord 8 0x10 = some (.match4 0 0) ∧ decodeTableWord 16 0xFF2F = some (.match2 2 0xFFF) ∧
    decodeTableWord 24 0x23F100 = some (.match3 0x0F 0x123) ∧
    decodeTableWord 32 0x09F0EE10 = some (.match4 0x0EEF 0x009) := by decide

/-! ### One step of every instruction -/

/-- The magic byte placed at power-on is what the next step runs (rule R153). -/
theorem test_magic_placed : nextIs (step (State.reset.withFetchWord 8 0x11)) (fun t => t.phase == .dec .size) = true := by
  decide

/-- WRITE_HEADER's first byte (rule R221). -/
theorem test_magic_written : nextIs (exec .magic (running (.enc .compress .magic) []))
    (fun t => outBytes 1 t == [0x11] && t.outLen == 1) = true := by decide

/-- A short size header placed at power-on is what the next step runs (rule R154). -/
theorem test_sizeShort_placed :
    step (State.reset.withFetchWord 24 0x000112) = exec (.sizeShort 0x112) (State.reset.withFetchWord 24 0x000112) := by
  rfl

/-- SH-3: the short size header of 274. -/
theorem test_sizeShort_written : nextIs (exec (.sizeShort 274) { running (.enc .tokens .size) [] with outLen := 1 })
    (fun t => outBytes 4 t == [0, 0x12, 0x01, 0x00] && t.outLen == 4) = true := by decide

/-- An escaped size header placed at power-on is what the next step runs (rule R154). -/
theorem test_sizeEscape_placed :
    step (State.reset.withFetchWord 56 0x00FFFFFF000000) =
      exec (.sizeEscape 0x00FFFFFF) (State.reset.withFetchWord 56 0x00FFFFFF000000) := by
  rfl

/-- SH-6: the escaped size header of 0xFFFFFF. -/
theorem test_sizeEscape_written : nextIs (exec (.sizeEscape 0xFFFFFF) { running (.enc .tokens .size) [] with outLen := 1 })
    (fun t => outBytes 8 t == [0, 0, 0, 0, 0xFF, 0xFF, 0xFF, 0x00] && t.outLen == 8) = true := by decide

/-- HEADER_LOAD (rule R156), at the header byte of DC-22. -/
theorem test_groupHdr_loaded : nextIs (step (decoding [0x11, 4, 0, 0, 0x40, 0x41, 0x20, 0x00] 4 [] 4 0 0))
    (fun t => t.hdr == 0x40 && t.rem == 8 && t.pos == 5) = true := by decide

/-- FR-4: the tags 0 and 1 give the last header 0x40, and the job ends. -/
theorem test_groupHdr_finished : nextIs (step { encoding .tokens [] 1 2 with tokIdx := 0 })
    (fun t => t.outByte 4 == 0x40 && t.status == .ok && t.outLenReg == 7 && !t.busy) = true := by decide

/-- The literal of DC-22, and the tag that comes to the top after it. -/
theorem test_lit_decoded : nextIs (step (decoding [0x11, 4, 0, 0, 0x40, 0x41, 0x20, 0x00] 5 [] 4 8 0x40))
    (fun t => outBytes 1 t == [0x41] && t.hdr == 0x80 && t.rem == 7 && t.pos == 6) = true := by decide

/-- CP-2: "abc" starts with the literal `a`, under tag 0. -/
theorem test_lit_emitted : nextIs (step (encoding .compress [0x61, 0x62, 0x63] 0 0))
    (fun t => outBytes 6 t == [0x11, 0, 0, 0, 0, 0x61] && t.cur == 1 && t.cnt == 1) = true := by decide

/-- DC-22: MATCH(1, 3) after "A" gives "AAAA". -/
theorem test_match2_decoded : nextIs (step (decoding [0x11, 4, 0, 0, 0x40, 0x41, 0x20, 0x00] 6 [0x41] 4 7 0x80))
    (fun t => outBytes 4 t == [0x41, 0x41, 0x41, 0x41] && t.outLen == 4 && t.pos == 8 && t.rem == 6) = true := by decide

/-- ET-2: MATCH(1, 3) after LIT 61 is `20 00`, under tag 1. -/
theorem test_match2_emitted : nextIs (exec (.match2 2 0) { encoding .tokens [] 0 1 with outMem := [(0, 0x11), (5, 0x61)] })
    (fun t => outBytes 8 t == [0x11, 0, 0, 0, 0, 0x61, 0x20, 0x00] && t.acc == 1 && t.cnt == 2) = true := by decide

/-- DC-28: Tier B, MATCH(1, 18) after "A". -/
theorem test_match3_decoded : nextIs (step (decoding [0x11, 0x13, 0, 0, 0x40, 0x41, 0x00, 0x10, 0x00] 6 [0x41] 0x13 7 0x80))
    (fun t => outBytes 19 t == List.replicate 19 0x41 && t.outLen == 19 && t.pos == 9) = true := by decide

/-- FR-9: the ninth tag flushes the first header; the Tier B match is the first token of the new group. -/
theorem test_match3_emitted : nextIs (exec (.match3 1 0) (encoding .tokens [] 0xFF 8))
    (fun t => t.outByte 4 == 0xFF && t.ph == 13 && t.outLen == 17 && t.cnt == 1 && t.acc == 1 && t.outByte 15 == 0x10) =
      true := by decide

/-- DC-20, with a Tier C token: a backreference before the start of the output. -/
theorem test_match4_decoded : nextIs (step (decoding [0x11, 3, 0, 0, 0x80, 0x10, 0x00, 0x00, 0x00] 5 [] 3 8 0x80))
    (fun t => t.status == .invalidIndex && t.outLen == 0 && t.pos == 9 && !t.busy) = true := by decide

/-- TC-15: MATCH(10, 4096). -/
theorem test_match4_emitted : nextIs (exec (.match4 0x0EEF 9) (encoding .tokens [] 0 0))
    (fun t => outBytes 9 t == [0x11, 0, 0, 0, 0, 0x10, 0xEE, 0xF0, 0x09] && t.tokIdx == 1) = true := by decide

/-- Rule R281: an overlap is found first, for COMPRESS too. -/
theorem test_compress_aliased : nextIs (step { asked (.known .compress) [] with inOverlapsOut := true })
    (fun t => t.status == .rejected && t.errPayload == 4 && !t.busy) = true := by decide

/-- Rule R290: a start while a job runs has no transition. -/
theorem test_decompress_busy : exec .decompress (running (.dec .loop) []) = .refused .startWhileBusy := by rfl

/-- ET-4: MATCH(1, 3) with nothing before it is BadToken. -/
theorem test_encodeTokens_badToken : nextIs (exec .encodeTokens { asked (.known .encodeTokens) [] with tokens := [.copy 1 3] })
    (fun t => t.status == .rejected && t.errPayload == 2) = true := by
  simp [exec, execEncodeTokens, startCommand, asked, State.reset, jobStart, admission, inputOk, tokensOk, walkTokens,
    Token.inContract, nextIs, rejectAtStart, Reason.code]

/-- Vectors DC-13, DC-17 and DC-19: the index of the read that failed. -/
theorem test_truncated :
    nextIs (step (decoding [0x11, 1, 0, 0] 4 [] 1 0 0)) (fun t => t.status == .invalidIndex && t.errPayload == 4) ∧
    nextIs (step (decoding [0x11, 1, 0, 0, 0xFF, 0x41] 5 [] 1 8 0xFF))
      (fun t => t.status == .invalidIndex && t.errPayload == 6) ∧
    nextIs (step (decoding [0x11, 1, 0, 0, 0x80, 0x10, 0x00] 5 [] 1 8 0x80))
      (fun t => t.status == .invalidIndex && t.errPayload == 7) := by decide

/-- Vectors DC-1 to DC-5: the errors of the header. -/
theorem test_headerErrors :
    nextIs (step (running (.dec .magic) [])) (fun t => t.status == .tooShort) ∧
    nextIs (step (running (.dec .magic) [0x11])) (fun t => t.status == .tooShort) ∧
    nextIs (step (running (.dec .magic) [0x10])) (fun t => t.status == .invalidMagic) ∧
    nextIs (step (running (.dec .magic) [0x11, 1, 0])) (fun t => t.status == .tooShort) ∧
    nextIs (step (running (.dec .magic) [0x10, 0, 0, 0])) (fun t => t.status == .invalidMagic) := by decide

/-- Vectors DC-20 and DC-19, and rule R298: the payload of a bad backreference is not observed, that of a failed read is. -/
theorem test_observedPayload :
    nextIs (step (decoding [0x11, 3, 0, 0, 0x80, 0x20, 0x00] 5 [] 3 8 0x80))
      (fun t => observe t == some { status := .invalidIndex, payload := none, result := none }) ∧
    nextIs (step (decoding [0x11, 1, 0, 0, 0x80, 0x10, 0x00] 5 [] 1 8 0x80))
      (fun t => observe t == some { status := .invalidIndex, payload := some 7, result := none }) := by decide

/-! ### States and operands that meet the hypotheses of the statements

Where a hypothesis compares with an OPEN parameter, the witness takes a value that every parameter allows; a case that
only some parameters have is shown under that parameter's condition. -/

/-- Both ends of the exception: a zero short size before 3 bytes, and every other element before anything. -/
theorem witness_DecodeOfEncode : Instr.wf (.sizeShort 0) = true ∧ placeOf (.sizeShort 0) = some .size ∧
    ((.sizeShort 0 : Instr) = .sizeShort 0 → ([1, 2, 3] : List Byte).length < 4) ∧
    Instr.wf (.match4 0xFFFF 0xFFF) = true ∧ placeOf (.match4 0xFFFF 0xFFF) = some (.token true) ∧
    ((.match4 0xFFFF 0xFFF : Instr) = .sizeShort 0 → ([1, 2, 3, 4] : List Byte).length < 4) := by decide

theorem witness_EncodeOfDecode : decode (.token true) [0x1F, 0xFF, 0xFF, 0xFE, 0x00] = .ok (.match4 0xFFFF 0xFFE) 4 ∧
    decode .size [0, 0, 0, 0, 0, 0, 0] = .ok (.sizeEscape 0) 7 ∧ decode .magic [0x11] = .ok .magic 1 ∧
    decode .groupHdr [0] = .ok (.groupHdr 0) 1 ∧ decode (.token false) [0xFF] = .ok (.lit 0xFF) 1 := by decide

/-- For TokenRoundTrip and EncodedBytesOfEachTier: TC-1, TC-5, TC-6, TC-10, TC-12 and TC-17, both ends of every tier. -/
theorem witness_TokenRoundTrip :
    (1 ≤ 1 ∧ 1 ≤ 4096 ∧ 3 ≤ 3 ∧ 3 ≤ 65808) ∧ (1 ≤ 4096 ∧ 4096 ≤ 4096 ∧ 3 ≤ 65808 ∧ 65808 ≤ 65808) ∧
    (tokenBytes (.copy 1 3)).map BitVec.toNat = [0x20, 0x00] ∧
    (tokenBytes (.copy 4096 16)).map BitVec.toNat = [0xFF, 0xFF] ∧
    (tokenBytes (.copy 1 17)).map BitVec.toNat = [0x00, 0x00, 0x00] ∧
    (tokenBytes (.copy 1 272)).map BitVec.toNat = [0x0F, 0xF0, 0x00] ∧
    (tokenBytes (.copy 1 273)).map BitVec.toNat = [0x10, 0x00, 0x00, 0x00] ∧
    (tokenBytes (.copy 4096 65808)).map BitVec.toNat = [0x1F, 0xFF, 0xFF, 0xFF] := by decide

theorem witness_DecodedFields : (0x0F : Byte).toNat / 16 = 0 ∧ (0x10 : Byte).toNat / 16 = 1 ∧
    (0x1F : Byte).toNat / 16 = 1 ∧ 2 ≤ (0x20 : Byte).toNat / 16 ∧ 2 ≤ (0xFF : Byte).toNat / 16 := by decide

/-- SH-1, SH-5, SH-6 and SH-7: where the clauses meet, and both ends. -/
theorem witness_SizeHeaderWritten : (encode (sizeInstr 0)).map BitVec.toNat = [0, 0, 0] ∧
    (encode (sizeInstr 0xFFFFFE)).map BitVec.toNat = [0xFE, 0xFF, 0xFF] ∧
    (encode (sizeInstr 0xFFFFFF)).map BitVec.toNat = [0, 0, 0, 0xFF, 0xFF, 0xFF, 0x00] ∧
    (encode (sizeInstr 0xFFFFFFFF)).map BitVec.toNat = [0, 0, 0, 0xFF, 0xFF, 0xFF, 0xFF] ∧
    ([1, 2, 3] : List Byte).length < 4 := by decide

/-- One state for each of the five clauses. -/
theorem witness_StepRunsTheFetchedElement :
    (∃ (s : State) (i : Instr) (n : Nat), s.resetReq = false ∧ s.busy = true ∧ s.phase = .dec .magic ∧
      decode .magic (s.inBytes 0 1) = .ok i n) ∧
    (∃ (s : State) (i : Instr) (n : Nat), s.resetReq = false ∧ s.busy = true ∧ s.phase = .dec .size ∧
      decode .size (s.inBytes 1 7) = .ok i n) ∧
    (∃ (s : State) (i : Instr) (n : Nat), s.resetReq = false ∧ s.busy = true ∧ s.phase = .dec .loop ∧
      s.outLen < s.dlen.toNat ∧ s.rem = 0 ∧
      decode .groupHdr (s.inBytes s.pos 1) = .ok i n) ∧
    (∃ (s : State) (i : Instr) (n : Nat), s.resetReq = false ∧ s.busy = true ∧ s.phase = .dec .loop ∧
      s.outLen < s.dlen.toNat ∧ s.rem ≠ 0 ∧
      tagOf s.hdr = false ∧ decode (.token false) (s.inBytes s.pos 1) = .ok i n) ∧
    (∃ (s : State) (i : Instr) (n : Nat), s.resetReq = false ∧ s.busy = true ∧ s.phase = .dec .loop ∧
      s.outLen < s.dlen.toNat ∧ s.rem ≠ 0 ∧
      tagOf s.hdr = true ∧ decode (.token true) (s.inBytes s.pos 4) = .ok i n) :=
  ⟨⟨running (.dec .magic) [0x11], .magic, 1, by decide⟩,
   ⟨running (.dec .size) [0x11, 3, 0, 0], .sizeShort 3, 3, by decide⟩,
   ⟨decoding [0x11, 4, 0, 0, 0x40] 4 [] 4 0 0, .groupHdr 0x40, 1, by decide⟩,
   ⟨decoding [0x11, 4, 0, 0, 0x40, 0x41] 5 [] 4 8 0x40, .lit 0x41, 1, by decide⟩,
   ⟨decoding [0x11, 4, 0, 0, 0x40, 0x41, 0x20, 0x00] 6 [0x41] 4 1 0x80, .match2 2 0, 2, by decide⟩⟩

theorem witness_StepRunsTheStartedCommand (c : Command) : (asked (.known c) []).Ready c := ⟨rfl, rfl, rfl, rfl⟩

/-- Every point of both jobs; in the loop, with a token left and with none. -/
theorem witness_StepEmitsTheNextElement (j : EncJob) :
    (∃ s : State, s.resetReq = false ∧ s.busy = true ∧ s.phase = .enc j .magic) ∧
    (∃ s : State, s.resetReq = false ∧ s.busy = true ∧ s.phase = .enc j .size) ∧
    (∃ s : State, s.resetReq = false ∧ s.busy = true ∧ s.phase = .enc j .init) ∧
    (∃ s : State, s.resetReq = false ∧ s.busy = true ∧ s.phase = .enc j .loop ∧
      ∃ i s', nextToken Config.here.hash4 j s = some (i, s')) ∧
    (∃ s : State, s.resetReq = false ∧ s.busy = true ∧ s.phase = .enc j .loop ∧ nextToken Config.here.hash4 j s = none) := by
  refine ⟨⟨running (.enc j .magic) [], rfl, rfl, rfl⟩, ⟨running (.enc j .size) [], rfl, rfl, rfl⟩,
    ⟨running (.enc j .init) [], rfl, rfl, rfl⟩,
    ⟨{ encoding j [0x61] 0 0 with tokens := [.lit 0x61] }, rfl, rfl, rfl, ?_⟩, ⟨encoding j [] 0 0, rfl, rfl, rfl, ?_⟩⟩
  · cases j <;> exact ⟨_, _, rfl⟩
  · cases j <;> rfl

theorem witness_ResetAbandonsTheJob : ∃ s : State, s.resetReq = true ∧ s.busy = true :=
  ⟨{ running (.dec .loop) [0x11] with resetReq := true }, rfl, rfl⟩

theorem witness_UnknownCommandIsRejected : ∃ (s : State) (n : Nat),
    s.resetReq = false ∧ s.busy = false ∧ s.startReq = true ∧ s.cmd = .unused n :=
  ⟨asked (.unused 3) [], 3, rfl, rfl, rfl, rfl⟩

/-- The four clauses of the header test, at the lengths where they meet (DC-1, DC-4, DC-5 and DC-6). -/
theorem witness_HeaderErrorsInOrder : ∀ bs ∈ ([[], [0x11, 1, 0], [0x10], [0x10, 0, 0, 0], [0x11, 0, 0, 0]] : List (List Byte)),
    (running (.dec .magic) bs).resetReq = false ∧ (running (.dec .magic) bs).busy = true ∧
      (running (.dec .magic) bs).phase = .dec .magic := fun _ _ => ⟨rfl, rfl, rfl⟩

theorem witness_MagicIsParsed : ∃ s : State, s.phase = .dec .magic ∧ 4 ≤ s.inLen :=
  ⟨running (.dec .magic) [0x11, 0, 0, 0], rfl, by decide⟩

/-- A length of 0 is within every MAX_OUT; the largest length is beyond every smaller one. -/
theorem witness_SizeHeaderIsParsed : ∃ s : State, s.phase = .dec .size ∧ (0 : BitVec 24).toNat ≤ Config.here.maxOut ∧
    (0 : BitVec 32).toNat ≤ Config.here.maxOut ∧
    (Config.here.maxOut < 0xFFFFFFFF → Config.here.maxOut < (0xFFFFFFFF : BitVec 32).toNat) :=
  ⟨running (.dec .size) [0x11, 0, 0, 0], rfl, Nat.zero_le _, Nat.zero_le _, fun h => h⟩

/-- SH-8, SH-9, SH-10 and SH-3: short streams of 4 and 7 bytes, the escape at 8, and a field that is not 0. -/
theorem witness_DeclaredLengthFromTheStream :
    ∀ bs ∈ ([[0x11, 0, 0, 0], [0x11, 0, 0, 0, 0, 0, 0], [0x11, 0, 0, 0, 0, 0, 0, 0], [0x11, 0x12, 1, 0]] : List (List Byte)),
    (running (.dec .size) bs).resetReq = false ∧ (running (.dec .size) bs).busy = true ∧
      (running (.dec .size) bs).phase = .dec .size ∧ 4 ≤ (running (.dec .size) bs).inLen := by decide

theorem witness_HeaderElementsAreWritten (j : EncJob) : (running (.enc j .magic) []).phase = .enc j .magic ∧
    (running (.enc j .size) []).phase = .enc j .size := ⟨rfl, rfl⟩

/-- For GroupHeaderIsLoaded, LastGroupHeaderEndsTheJob, LastGroupHeaderIsLeftAligned, FirstPlaceholderIsReserved and LiteralIsDecoded. -/
theorem witness_GroupHeader (j : EncJob) : (decoding [] 4 [] 1 0 0).phase = .dec .loop ∧
    (encoding j [] 0 0).phase = .enc j .loop ∧ (8 : BitVec 4).toNat ≤ 8 ∧ (0 : BitVec 4).toNat ≤ 8 ∧
    (running (.enc j .init) []).phase = .enc j .init ∧ (running (.enc j .init) []).busy = true ∧
    (running (.enc j .init) []).resetReq = false := ⟨rfl, rfl, by decide, by decide, rfl, rfl, rfl⟩

/-- An open group and a full one. -/
theorem witness_TagIsPushed : (encoding .tokens [] 0 7).cnt ≠ 8 ∧ (encoding .tokens [] 0xFF 8).cnt = 8 ∧
    (encoding .tokens [] 0xFF 8).ph < (encoding .tokens [] 0xFF 8).outLen := by decide

/-- DC-22 fills `D` exactly: MATCH(1, 3) at `out_len` 1 with `D` 4. -/
theorem witness_MatchIsCopied : ∃ (s : State) (i : Instr) (d l : Nat), s.phase = .dec .loop ∧ i.wf = true ∧
    instrToken i = some (.copy d l) ∧ d ≤ s.outLen ∧ s.outLen + l ≤ s.dlen.toNat :=
  ⟨decoding [] 4 [0x41] 4 7 0x80, .match2 2 0, 1, 3, by decide⟩

/-- DC-21 is one byte too far, and DC-22 is not. -/
theorem witness_BackreferenceIsChecked :
    (∃ (s : State) (i : Instr) (d l : Nat), s.phase = .dec .loop ∧ i.wf = true ∧ instrToken i = some (.copy d l) ∧
      s.outLen < d) ∧
    (∃ (s : State) (i : Instr) (d l : Nat), s.phase = .dec .loop ∧ i.wf = true ∧ instrToken i = some (.copy d l) ∧
      d ≤ s.outLen) :=
  ⟨⟨decoding [] 4 [0x41] 2 7 0x80, .match2 2 1, 2, 3, by decide⟩,
   ⟨decoding [] 4 [0x41] 4 7 0x80, .match2 2 0, 1, 3, by decide⟩⟩

/-- DC-25: one byte more than `D`. -/
theorem witness_OverrunStops : ∃ (s : State) (i : Instr) (d l : Nat), s.phase = .dec .loop ∧ i.wf = true ∧
    instrToken i = some (.copy d l) ∧ d ≤ s.outLen ∧ s.outLen ≤ s.dlen.toNat ∧ s.dlen.toNat < s.outLen + l :=
  ⟨decoding [] 4 [0x41] 3 7 0x80, .match2 2 0, 1, 3, by decide⟩

/-- For ReadPastTheEndRaises and OnlyGivenPayloadsAreObserved: DC-13, DC-14, DC-18, a Tier B token and DC-19, each way in which
bytes run out. The other clauses of the latter have the hypotheses of BackreferenceIsChecked, OverrunStopsAtTheDeclaredLength,
HeaderErrorsInOrder, SizeHeaderIsParsed and DecompressFinishesAtTheDeclaredLength. -/
theorem witness_ReadPastTheEnd : ∀ s ∈ [decoding [0x11, 1, 0, 0] 4 [] 1 0 0, decoding [0x11, 1, 0, 0, 0] 5 [] 1 8 0,
      decoding [0x11, 1, 0, 0, 0x80, 0x20] 5 [] 1 8 0x80, decoding [0x11, 1, 0, 0, 0x80, 0x00, 0x00] 5 [] 1 8 0x80,
      decoding [0x11, 1, 0, 0, 0x80, 0x10, 0x00, 0x00] 5 [] 1 8 0x80],
    s.resetReq = false ∧ s.busy = true ∧ s.phase = .dec .loop ∧ s.outLen < s.dlen.toNat ∧ s.pos ≤ s.inLen ∧
    s.RunsOut := by unfold State.RunsOut; decide

theorem witness_DecompressFinishes : ∃ s : State, s.resetReq = false ∧ s.busy = true ∧ s.phase = .dec .loop ∧
    s.outLen = s.dlen.toNat := ⟨decoding [] 8 [0x41] 1 7 0x80, by decide⟩

/-- For TokenIsEncoded and TokenIsEmittedAndRegistered: a literal and a match of every tier, at the loop of either encoder job. -/
theorem witness_TokenIsEncoded (j : EncJob) : (encoding j [0x61] 0xFF 8).phase = .enc j .loop ∧
    instrToken (.lit 0x61) = some (.lit 0x61) ∧ instrToken (.match2 2 0) = some (.copy 1 3) ∧
    instrToken (.match3 0 0) = some (.copy 1 17) ∧ instrToken (.match4 0xFFFF 0xFFF) = some (.copy 4096 65808) :=
  ⟨rfl, by decide, by decide, by decide, by decide⟩

theorem witness_NoWindow : ∃ (s : State) (p : Nat), s.inLen < p + 4 ∧ p < s.inLen :=
  ⟨running (.enc .compress .loop) [0x61, 0x61, 0x61], 0, by decide⟩

/-- A finder at position 4 of "aaaaaaaa", whose table holds position 0 (MF-4's input, cut short). -/
def finding : State :=
  { encoding .compress [0x61, 0x61, 0x61, 0x61, 0x61, 0x61, 0x61, 0x61] 0 4 with cur := 4, ht := [(0, 0)] }

/-- A hash that takes every window to slot 0. -/
def oneSlot : Config :=
  { hash4 := fun _ _ _ _ => 0, overrun := .truncate, maxOut := 100, maxIn := 100, addrBits := 32, cmdCode := fun _ => 0 }

/-- For CommonPrefixIsLongest, MatchFinderDecides and LastBytesAreLiterals. -/
theorem witness_MatchFinder : finding.cur ≤ finding.inLen ∧ finding.cur + 4 ≤ finding.inLen ∧
    lookup finding (hashWindow oneSlot.hash4 finding finding.cur) = some 0 ∧
    (running (.enc .compress .loop) [0x61, 0x61, 0x61]).inLen < (running (.enc .compress .loop) [0x61, 0x61, 0x61]).cur + 4 := by
  decide

theorem witness_EmittedTokensAreGenuine : JobOk oneSlot finding .compress ∧ finding.cur < finding.inLen := by
  refine ⟨⟨by decide, by decide, ?_⟩, by decide⟩
  intro c hc
  simp only [finding, List.mem_singleton] at hc
  subst hc
  decide

theorem witness_AdmittedJobStarts : ∃ s : State, s.busy = false ∧ s.inOverlapsOut = false ∧
    s.inLen ≤ Config.here.maxIn ∧ s.inLen ≤ 0xFFFFFFFF ∧ tokensOk Config.here.maxIn s.tokens = true :=
  ⟨asked (.known .compress) [], rfl, rfl, Nat.zero_le _, by decide, by simp [asked, State.reset, tokensOk, walkTokens]⟩

/-- One state for each reason; the second is one byte longer than MAX_IN. -/
theorem witness_RejectionOrder :
    (∃ s : State, s.busy = false ∧ s.inOverlapsOut = true) ∧
    (∃ s : State, s.busy = false ∧ s.inOverlapsOut = false ∧ Config.here.maxIn < s.inLen) ∧
    (∃ s : State, s.busy = false ∧ s.inOverlapsOut = false ∧ Command.compress = .compress ∧ 0xFFFFFFFF < s.inLen) ∧
    (∃ s : State, s.busy = false ∧ s.inOverlapsOut = false ∧ s.inLen ≤ Config.here.maxIn ∧
      tokensOk Config.here.maxIn s.tokens = false) :=
  ⟨⟨{ State.reset with inOverlapsOut := true }, rfl, rfl⟩,
   ⟨{ State.reset with inLen := Config.here.maxIn + 1 }, rfl, rfl, Nat.lt_succ_self _⟩,
   ⟨{ State.reset with inLen := 0x100000000 }, rfl, rfl, rfl, by decide⟩,
   ⟨{ State.reset with tokens := [.copy 1 3] }, rfl, rfl, Nat.zero_le _,
    by simp [tokensOk, walkTokens, Token.inContract]⟩⟩

/-- The third clause's running job makes a step: DC-1's TooShort. -/
theorem witness_NoStartWhileBusy : ∃ s t : State, s.busy = true ∧ s.resetReq = false ∧
    step { s with startReq := false } = .next t := by
  refine ⟨running (.dec .magic) [], raise .tooShort none (running (.dec .magic) []), rfl, rfl, rfl⟩

/-- For HostSeesResultsOnlyWhenIdle and ProvidedInputIsRead. -/
theorem witness_Host : (∃ s : State, s.busy = true) ∧
    ∃ (s : State) (a : Nat), s.busy = false ∧ s.status = .ok ∧ a < s.outLenReg :=
  ⟨⟨running (.dec .magic) [], rfl⟩, ⟨{ State.reset with outLenReg := 1 }, 0, by decide⟩⟩

/-- For EveryStepKeepsTheInvariant, HostFieldsAreNotWritten and CursorsNeverMoveBack: an ENCODE_TOKENS of no token, before its last step. -/
theorem witness_EveryStepKeepsTheInvariant : ∃ s t : State, s.Inv Config.here ∧ s.busy = true ∧ s.resetReq = false ∧
    step s = .next t := by
  refine ⟨encoding .tokens [] 0 0, framerFinish (accFinish 0 0) (encoding .tokens [] 0 0), ?_, rfl, rfl, rfl⟩
  exact
    { inWf := by decide, outWf := by decide, htWf := by decide, busyIff := by decide, noStart := by decide
      given := by decide
      admitted := fun _ => ⟨rfl, Nat.zero_le _⟩
      outBound := by decide
      point := by simp [PointOk, JobOk, encoding, running, State.reset, tokensOk, walkTokens, hdrLenShort] }

/-- A start that clears an old table, and a token that registers its position. -/
theorem witness_OnlyCompressTouchesTheTable :
    (∃ s t : State, s.resetReq = false ∧ s.busy = false ∧ step s = .next t ∧ t.ht ≠ s.ht) ∧
    (∃ s t : State, s.resetReq = false ∧ s.busy = true ∧ step s = .next t ∧ t.ht ≠ s.ht) := by
  refine ⟨⟨{ asked (.known .compress) [] with ht := [(0, 0)] }, beginCompress { asked (.known .compress) [] with ht := [(0, 0)] },
      rfl, rfl, ?_, ?_⟩,
    ⟨encoding .compress [0x61, 0x61, 0x61, 0x61] 0 0, _, rfl, rfl, rfl, ?_⟩⟩
  · simp [step, select, selectIdle, selectStart, asked, State.reset, Command.toInstr, exec, execCompress, startCommand,
      jobStart, admission, inputOk, Memory.ofBytes, Memory.writeBytes, begin]
  · simp [beginCompress, asked]
  · show HashTable.insert [] _ _ ≠ []
    simp [HashTable.insert]

theorem witness_PositionsFit : Config.Adequate oneSlot ∧
    State.Inv oneSlot (decoding [0x11, 4, 0, 0, 0x40, 0x41] 6 [0x41] 4 7 0x80) ∧ State.Inv oneSlot finding := by
  refine ⟨by show 100 < 2 ^ 32 - 1; decide, ?_, ?_⟩
  · exact
      { inWf := by decide, outWf := by decide, htWf := by decide, busyIff := by decide, noStart := by decide
        given := by decide
        admitted := by decide, outBound := by decide
        point := by show 4 ≤ 6 ∧ 6 ≤ 6 ∧ 1 ≤ 4 ∧ 4 ≤ 100 ∧ 7 ≤ 8; decide }
  · exact
      { inWf := by decide, outWf := by decide, htWf := by decide, busyIff := by decide, noStart := by decide
        given := by decide
        admitted := by decide, outBound := by decide
        point := ⟨witness_EmittedTokensAreGenuine.1, by decide, by decide, by decide, by decide⟩ }

/-- A magic byte, and another byte beyond the end of the stream. -/
theorem witness_DecompressReadsOnlyItsInput : ∃ (s t : State) (m : Memory) (p : DecPoint), s.resetReq = false ∧
    s.busy = true ∧ s.phase = .dec p ∧ (∀ a, a < s.inLen → Memory.read m a = Memory.read s.inMem a) ∧
    step s = .next t ∧ Memory.read m 1 ≠ Memory.read s.inMem 1 :=
  ⟨running (.dec .magic) [0x11], raise .tooShort none (running (.dec .magic) [0x11]), [(0, 0x11), (1, 0xFF)], .magic, rfl, rfl,
   rfl, by decide, rfl, by decide⟩

/-- Two blocks with another table and another number of draws; the job, with overlapping buffers, is over in one step. -/
theorem witness_NothingCarriesOver : ∃ (s u t : State), s.Ready .decompress ∧ u.Ready .decompress ∧ u.inMem = s.inMem ∧
    u.inLen = s.inLen ∧ u.inOverlapsOut = s.inOverlapsOut ∧ u.tokens = s.tokens ∧ RunsTo s t ∧
    u.draws ≠ s.draws ∧ u.ht ≠ s.ht := by
  let s : State := { asked (.known .decompress) [] with inOverlapsOut := true }
  exact ⟨s, { s with draws := 7, ht := [(1, 2)] }, rejectAtStart .aliased s, ⟨rfl, rfl, rfl, rfl⟩, ⟨rfl, rfl, rfl, rfl⟩, rfl,
    rfl, rfl, rfl, ⟨0, rfl, rfl⟩, by decide, by decide⟩

/-- For DecompressAlwaysEnds, EncodeTokensWritesTheFramedStream, CompressWritesAFaithfulStream and
CompressDecompressRoundTrip: the empty input, whose job every MAX_IN admits, and ET-2 and CP-4 where MAX_IN admits them. -/
theorem witness_WholeJobs : (∃ s : State, s.Ready .decompress) ∧
    (∃ s : State, s.Ready .encodeTokens ∧ s.inOverlapsOut = false ∧ s.inLen ≤ Config.here.maxIn ∧
      tokensOk Config.here.maxIn s.tokens = true) ∧
    (∃ s : State, s.Ready .compress ∧ s.inOverlapsOut = false ∧ s.inLen ≤ Config.here.maxIn ∧ s.inLen ≤ 0xFFFFFFFF) ∧
    (4 ≤ Config.here.maxIn → tokensOk Config.here.maxIn [.lit 0x61, .copy 1 3] = true) ∧
    (5 ≤ Config.here.maxIn → (asked (.known .compress) [0x61, 0x61, 0x61, 0x61, 0x61]).inLen ≤ Config.here.maxIn) := by
  refine ⟨⟨asked (.known .decompress) [], rfl, rfl, rfl, rfl⟩,
    ⟨asked (.known .encodeTokens) [], ⟨rfl, rfl, rfl, rfl⟩, rfl, Nat.zero_le _,
      by simp [asked, State.reset, tokensOk, walkTokens]⟩,
    ⟨asked (.known .compress) [], ⟨rfl, rfl, rfl, rfl⟩, rfl, Nat.zero_le _, by decide⟩, ?_, fun h => h⟩
  intro h
  simpa [tokensOk, walkTokens, Token.inContract, Token.size, Config.maxDeclared] using h

/-- ET-2's stream with a byte after it, and the stream of no token with 2 bytes after it. -/
theorem witness_DecompressExpands :
    (∃ s : State, s.Ready .decompress ∧ s.inOverlapsOut = false ∧ walkTokens [.lit 0x61, .copy 1 3] 0 = some 4 ∧
      s.input = streamOf [.lit 0x61, .copy 1 3] ++ [0xFF] ∧ (4 = 0 → ([0xFF] : List Byte).length < 3)) ∧
    (∃ s : State, s.Ready .decompress ∧ s.inOverlapsOut = false ∧ walkTokens [] 0 = some 0 ∧
      s.input = streamOf [] ++ [0xFF, 0xFF] ∧ (0 = 0 → ([0xFF, 0xFF] : List Byte).length < 3)) :=
  ⟨⟨asked (.known .decompress) [0x11, 4, 0, 0, 0x40, 0x61, 0x20, 0x00, 0xFF], by refine ⟨⟨rfl, rfl, rfl, rfl⟩, rfl, ?_⟩; decide⟩,
   ⟨asked (.known .decompress) [0x11, 0, 0, 0, 0, 0xFF, 0xFF], by refine ⟨⟨rfl, rfl, rfl, rfl⟩, rfl, ?_⟩; decide⟩⟩

/-- ET-2, CP-4 and CP-1: the framed streams of the spec's token sequences. -/
theorem test_streamOf : streamOf [.lit 0x61, .copy 1 3] = [0x11, 4, 0, 0, 0x40, 0x61, 0x20, 0x00] ∧
    streamOf [.lit 0x61, .copy 1 4] = [0x11, 5, 0, 0, 0x40, 0x61, 0x30, 0x00] ∧ streamOf [] = [0x11, 0, 0, 0, 0] ∧
    expand [.lit 0x61, .copy 1 3] = [0x61, 0x61, 0x61, 0x61] := by decide

end Sys2Proof.Tests
end

section
/-! SUPPORT. The buffers as lists of bytes: what the host provides is what the block reads, and what `OUT` holds after the
operations that write it. -/

namespace Sys2Proof.Machine

/-! ### `IN` as a list -/

/-- The bytes of a list, read back from a memory that holds them from `a` on. -/
theorem memory_readBytes_eq {m : Memory} {a : Nat} {bs : List Byte}
    (h : ∀ i, i < bs.length → Memory.read m (a + i) = bs.getD i 0) : Memory.readBytes m a bs.length = bs := by
  refine List.ext_getElem? fun i => ?_
  by_cases hi : i < bs.length
  · rw [memory_readBytes_getElem _ _ _ _ hi, h i hi]
    simp [hi]
  · rw [List.getElem?_eq_none (by simpa using hi), List.getElem?_eq_none (by simpa using hi)]

theorem memory_readBytes_ofBytes (bs : List Byte) : Memory.readBytes (Memory.ofBytes bs) 0 bs.length = bs :=
  memory_readBytes_eq fun i _ => by rw [Nat.zero_add, memory_read_ofBytes]

@[simp] theorem input_length (s : State) : s.input.length = s.inLen := by simp [State.input]

/-- Byte `a` of the input is what `MemRead(IN, a, 1)` gives (rule R13). -/
theorem input_getElem? {s : State} {a : Nat} (h : a < s.inLen) : s.input[a]? = some (s.inByte a) := by
  rw [State.input, memory_readBytes_getElem _ _ _ _ h, Nat.zero_add, State.inByte]

/-- A bounded read of `IN` is a piece of the input (rules R60 and R152). -/
theorem inBytes_eq_input (s : State) (a n : Nat) : s.inBytes a n = (s.input.drop a).take n := by
  refine List.ext_getElem? fun i => ?_
  rw [State.inBytes, List.getElem?_take, List.getElem?_drop]
  by_cases hi : i < min n (s.inLen - a)
  · rw [memory_readBytes_getElem _ _ _ _ hi, if_pos (by omega), input_getElem? (by omega), State.inByte]
  · rw [List.getElem?_eq_none (by rw [memory_readBytes_length]; omega)]
    split
    · rw [List.getElem?_eq_none (by rw [input_length]; omega)]
    · rfl

/-- Settles O43: the buffer of a list of bytes reads back as that list. -/
theorem providedInputIsRead : Obligations.ProvidedInputIsRead := by
  intro s bs b hbusy
  refine ⟨{ s with inMem := Memory.ofBytes bs, inLen := bs.length, inOverlapsOut := b }, ?_, rfl,
    memory_readBytes_ofBytes bs, memory_wf_ofBytes bs, fun a ha => ?_⟩
  · simp [hostSetIn, hbusy]
  · rw [State.inByte, memory_read_ofBytes]
    simp [ha]

/-! ### `OUT` as a list -/

/-- `OUT` holds these bytes and nothing at or after them. -/
structure State.OutputIs (s : State) (bs : List Byte) : Prop where
  length : s.outLen = bs.length
  byte : ∀ x, s.outByte x = bs.getD x 0

/-- `Append` of some bytes (rule R13). -/
theorem State.OutputIs.appendBytes {s : State} {bs : List Byte} (h : s.OutputIs bs) (vs : List Byte) :
    (State.appendBytes vs s).OutputIs (bs ++ vs) := by
  rw [appendBytes_eq]
  refine ⟨by simp [h.length], fun x => ?_⟩
  have hx : Memory.read s.outMem x = bs.getD x 0 := h.byte x
  rw [State.outByte, memory_read_writeBytes, hx, h.length]
  split
  · rw [List.getD_append_right _ _ _ _ (by omega)]
  · by_cases hlt : x < bs.length
    · rw [List.getD_append _ _ _ _ hlt]
    · rw [List.getD_eq_default _ _ (by omega), List.getD_eq_default _ _ (by simp; omega)]

theorem State.OutputIs.append {s : State} {bs : List Byte} (h : s.OutputIs bs) (v : Byte) :
    (State.append v s).OutputIs (bs ++ [v]) := h.appendBytes [v]

/-- `MemWrite` over a byte that stands between two pieces of the output (rule R13). -/
theorem State.OutputIs.rewrite {s : State} {pre post : List Byte} {w : Byte} (h : s.OutputIs (pre ++ w :: post))
    (v : Byte) : (State.rewrite pre.length v s).OutputIs (pre ++ v :: post) := by
  refine ⟨by simp [h.length], fun x => ?_⟩
  have hx : Memory.read s.outMem x = (pre ++ w :: post).getD x 0 := h.byte x
  rw [State.outByte, rewrite_outMem, memory_read_write, hx]
  rcases Nat.lt_trichotomy x pre.length with hlt | rfl | hgt
  · rw [if_neg (by omega), List.getD_append _ _ _ _ hlt, List.getD_append _ _ _ _ hlt]
  · simp
  · obtain ⟨k, rfl⟩ := Nat.exists_eq_add_of_lt hgt
    rw [if_neg (by omega), List.getD_append_right _ _ _ _ (by omega), List.getD_append_right _ _ _ _ (by omega),
      show pre.length + k + 1 - pre.length = k + 1 by omega]
    rfl

/-- The end of a job with OK hands over what `OUT` holds (rules R22 and R282). -/
theorem State.OutputIs.finish_result {s : State} {bs : List Byte} (h : s.OutputIs bs) :
    (finish s).outLenReg = bs.length ∧ (finish s).result = bs := by
  have hlen : (finish s).outLenReg = bs.length := by simp [finish, h.length]
  refine ⟨hlen, ?_⟩
  rw [State.result, hlen]
  exact memory_readBytes_eq fun i _ => by rw [Nat.zero_add]; exact h.byte i

end Sys2Proof.Machine
end

section
/-! SUPPORT. Runs put together from steps, and the step of a running job. -/

namespace Sys2Proof.Machine

/-- Some number of steps leads from one state to another. -/
def Reaches : State → State → Prop := Relation.ReflTransGen fun a b => step a = .next b

theorem Reaches.refl (s : State) : Reaches s s := Relation.ReflTransGen.refl

theorem Reaches.head {s u t : State} (h : step s = .next u) (ht : Reaches u t) : Reaches s t :=
  Relation.ReflTransGen.head h ht

theorem runsTo_of_step {s t : State} (h : step s = .next t) (hb : t.busy = false) : RunsTo s t :=
  ⟨0, by simp [Host.Core.run, core, h], hb⟩

/-- A step in front of a run. -/
theorem RunsTo.head {s u t : State} (h : step s = .next u) (ht : RunsTo u t) : RunsTo s t := by
  obtain ⟨k, hk, hb⟩ := ht
  refine ⟨k + 1, ?_, hb⟩
  simpa only [Host.Core.run, show core.step s = .next u from h] using hk

/-- Steps in front of a run. -/
theorem Reaches.runsTo {s u t : State} (h : Reaches s u) (ht : RunsTo u t) : RunsTo s t := by
  induction h using Relation.ReflTransGen.head_induction_on with
  | refl => exact ht
  | head hstep _ ih => exact ih.head hstep

/-- A run whose last step is `finish` hands over what `OUT` holds. -/
theorem Reaches.finishesWith {s u w : State} {bs : List Byte} (h : Reaches s u) (hstep : step u = .next (finish w))
    (ho : w.OutputIs bs) : FinishesWith s bs :=
  ⟨finish w, h.runsTo (runsTo_of_step hstep rfl), rfl, ho.finish_result⟩

/-- A job runs at this point of its pseudocode, and no reset is asked for. -/
structure State.Running (s : State) (p : Phase) : Prop where
  noReset : s.resetReq = false
  busy : s.busy = true
  phase : s.phase = p

/-- The step of a running DECOMPRESS. -/
theorem State.Running.step_dec {s : State} {p : DecPoint} (h : s.Running (.dec p)) :
    step s = (selectDec p s).outcome := by
  simp [step_eq, select, selectBusy, h.noReset, h.busy, h.phase]

/-- The step of a running COMPRESS or ENCODE_TOKENS. -/
theorem State.Running.step_enc {s : State} {j : EncJob} {p : EncPoint} (h : s.Running (.enc j p)) :
    step s = (selectEnc Config.here.hash4 j p s).outcome := by
  simp [step_eq, select, selectBusy, h.noReset, h.busy, h.phase]

/-- The step that takes a start (rule R280). -/
theorem State.Ready.step_start {s : State} {c : Command} (h : s.Ready c) :
    step s = .next (jobStart Config.here c s) := by
  obtain ⟨hcmd, hbusy, hstart, hreset⟩ := h
  have hexec : exec c.toInstr s = .next (jobStart Config.here c s) := by
    cases c <;> simp [Command.toInstr, exec, execCompress, execDecompress, execEncodeTokens, startCommand, hbusy]
  simp [step_eq, select, selectIdle, selectStart, hcmd, hbusy, hstart, hreset, Action.outcome, hexec]

/-- The start of a job that ADMIT lets in (rule R281). -/
theorem jobStart_admitted {cfg : Config} {c : Command} {s : State} (ho : s.inOverlapsOut = false)
    (hin : s.inLen ≤ cfg.maxIn) (hc : c = .compress → s.inLen ≤ Config.maxDeclared)
    (ht : c = .encodeTokens → tokensOk cfg.maxIn s.tokens = true) : jobStart cfg c s = begin c s := by
  have hok : inputOk cfg.maxIn c s.inLen = true := by cases c <;> simp_all [inputOk]
  have hadm : admission cfg c s = none := by cases c <;> simp_all [admission]
  simp [jobStart, hadm]

/-- An input longer than MAX_IN is rejected at the start, if it does not overlap `OUT` (rule R281). -/
theorem jobStart_inputTooLarge {cfg : Config} {c : Command} {s : State} (ho : s.inOverlapsOut = false)
    (hin : cfg.maxIn < s.inLen) : jobStart cfg c s = rejectAtStart .inputTooLarge s := by
  have hbad : inputOk cfg.maxIn c s.inLen = false := by simp [inputOk, Nat.not_le.2 hin]
  simp [jobStart, admission, ho, hbad]

end Sys2Proof.Machine
end

section
/-! SUPPORT. Tokens: their operands, their elements, the contract they are inside of, and what they expand to. -/

namespace Sys2Proof.Machine

/-! ### The contract of rule R231 -/

theorem tokensLength_cons (t : Token) (ts : List Token) : tokensLength (t :: ts) = t.size + tokensLength ts := by
  simp [tokensLength]

/-- The walk of rule R231 passes a token that is inside the contract. -/
theorem walkTokens_cons {t : Token} {ts : List Token} {p n : Nat} :
    walkTokens (t :: ts) p = some n ↔ t.inContract p = true ∧ walkTokens ts (p + t.size) = some n := by
  simp only [walkTokens]
  split <;> simp_all

/-- A walk that ends has produced the length of its tokens. -/
theorem walkTokens_length {ts : List Token} {p n : Nat} (h : walkTokens ts p = some n) : n = p + tokensLength ts := by
  induction ts generalizing p with
  | nil => simpa [walkTokens, tokensLength] using h.symm
  | cons t ts ih =>
    rw [ih (walkTokens_cons.1 h).2, tokensLength_cons, Nat.add_assoc]

/-- A walk over two sequences is the walk over the second from where the first ends. -/
theorem walkTokens_append {ts us : List Token} {p n : Nat} :
    walkTokens (ts ++ us) p = some n ↔ ∃ m, walkTokens ts p = some m ∧ walkTokens us m = some n := by
  induction ts generalizing p with
  | nil => simp [walkTokens]
  | cons t ts ih => simp only [List.cons_append, walkTokens_cons, ih, and_assoc, exists_and_left]

/-- A token inside the contract is in the operand range of the encoder (rules R100 and R231). -/
theorem encodable_of_inContract {t : Token} {p : Nat} (h : t.inContract p = true) : t.encodable = true := by
  cases t with
  | lit b => rfl
  | copy d l =>
    simp only [Token.inContract, Token.encodable, decide_eq_true_eq] at h ⊢
    omega

/-- A token inside the contract stands for at least one byte. -/
theorem size_pos_of_inContract {t : Token} {p : Nat} (h : t.inContract p = true) : 1 ≤ t.size := by
  cases t with
  | lit b => simp [Token.size]
  | copy d l =>
    simp only [Token.inContract, Token.size, decide_eq_true_eq] at h ⊢
    omega

/-- Only the empty sequence produces nothing. -/
theorem walkTokens_eq_nil {ts : List Token} {p : Nat} (h : walkTokens ts p = some p) : ts = [] := by
  cases ts with
  | nil => rfl
  | cons t ts =>
    obtain ⟨ht, hw⟩ := walkTokens_cons.1 h
    have := size_pos_of_inContract ht
    have := walkTokens_length hw
    omega

/-! ### The element of a token (rule R100) -/

theorem instrToken_tokenInstr {t : Token} (h : t.encodable = true) : instrToken (tokenInstr t) = some t := by
  cases t with
  | lit b => rfl
  | copy d l =>
    simp only [Token.encodable, decide_eq_true_eq] at h
    exact matchInstr_operands (by omega) (by omega)

theorem instrTag_tokenInstr (t : Token) : instrTag (tokenInstr t) = tokenTag t := by
  cases t with
  | lit b => rfl
  | copy d l =>
    simp only [tokenInstr, matchInstr, tokenTag]
    split
    · rfl
    · split <;> rfl

theorem placeOf_tokenInstr (t : Token) : placeOf (tokenInstr t) = some (.token (tokenTag t)) := by
  cases t with
  | lit b => rfl
  | copy d l =>
    simp only [tokenInstr, matchInstr, tokenTag]
    split
    · rfl
    · split <;> rfl

/-- Tier selection gives well-formed elements: a Tier A length field is at least 2 (rules R81 and R100). -/
theorem tokenInstr_wf {t : Token} (h : t.encodable = true) : (tokenInstr t).wf = true := by
  cases t with
  | lit b => rfl
  | copy d l =>
    simp only [Token.encodable, decide_eq_true_eq] at h
    simp only [tokenInstr, matchInstr]
    split
    · have hne : ∀ k, k < 2 → BitVec.ofNat 4 (l - 1) ≠ BitVec.ofNat 4 k := fun k hk e => by
        have := congrArg BitVec.toNat e
        simp only [BitVec.toNat_ofNat] at this; omega
      simp only [Instr.wf, Bool.and_eq_true, bne_iff_ne]
      exact ⟨hne 0 (by omega), hne 1 (by omega)⟩
    · split <;> rfl

/-! ### The expansion of rule R234 -/

@[simp] theorem expandCopy_length (d l : Nat) (out : List Byte) : (expandCopy d l out).length = out.length + l := by
  induction l generalizing out with
  | zero => rfl
  | succ l ih => simp only [expandCopy, ih, List.length_append, List.length_singleton]; omega

@[simp] theorem expandToken_length (out : List Byte) (t : Token) :
    (expandToken out t).length = out.length + t.size := by
  cases t <;> simp [expandToken, Token.size]

/-- A copy whose bytes are those of a list, `d` before them, goes on with that list. -/
theorem expandCopy_take {bs : List Byte} {d l c : Nat} (hd : 1 ≤ d) (hc : d ≤ c) (hl : c + l ≤ bs.length)
    (h : ∀ k, k < l → bs[c + k]? = bs[c - d + k]?) : expandCopy d l (bs.take c) = bs.take (c + l) := by
  induction l generalizing c with
  | zero => rfl
  | succ l ih =>
    have hcb : (bs.take c).length = c := by rw [List.length_take]; omega
    have hb : (bs.take c).getD (c - d) 0 = bs[c]'(by omega) := by
      have h0 := h 0 (by omega)
      rw [Nat.add_zero, Nat.add_zero, List.getElem?_eq_getElem (by omega)] at h0
      rw [List.getD_eq_getElem?_getD, List.getElem?_take_of_lt (by omega), ← h0]
      rfl
    rw [expandCopy, hcb, hb, List.take_append_getElem, ih (by omega) (by omega)]
    · congr 1; omega
    · intro k hk
      have := h (k + 1) (by omega)
      rwa [show c + 1 + k = c + (k + 1) by omega, show c + 1 - d + k = c - d + (k + 1) by omega]

end Sys2Proof.Machine
end

section
/-! SUPPORT. The decoder after the encoder: the round trip of every element of the stream (rule R87). -/

namespace Sys2Proof

theorem decodeSize_escape (n : BitVec 32) (rest : List Byte) :
    decodeSize (encode (.sizeEscape n) ++ rest) = .ok (.sizeEscape n) 7 := by
  simp [encode, decodeSize, le24, le32_bytes]

/-- A short size reads back unless it is 0 and the escape's four bytes follow (rule R75). -/
theorem decodeSize_short (n : BitVec 24) {rest : List Byte} (h : n = 0 → rest.length < 4) :
    decodeSize (encode (.sizeShort n) ++ rest) = .ok (.sizeShort n) 3 := by
  match rest, h with
  | [], _ | [_], _ | [_, _], _ | [_, _, _], _ => simp [encode, decodeSize, le24_bytes]
  | _ :: _ :: _ :: _ :: _, h =>
    have hn : n ≠ 0#24 := fun e => absurd (h e) (by simp)
    simp [encode, decodeSize, le24_bytes, hn]

/-- The tiers of a match read back (rules R85 and R111 to R114). -/
theorem decodeMatch_encode {i : Instr} (hw : i.wf = true) (hp : placeOf i = some (.token true)) (rest : List Byte) :
    decodeMatch (encode i ++ rest) = .ok i (encode i).length := by
  cases i with
  | match2 la da =>
    obtain ⟨h0, h1⟩ : la ≠ 0#4 ∧ la ≠ 1#4 := by simpa [Instr.wf] using hw
    simp [encode, decodeMatch, hiNibble_append, loNibble_append, h0, h1, fields_append_4_8]
  | match3 lb da =>
    simp [encode, decodeMatch, hiNibble_append, loNibble_append, fields_append_4_8, fields_append_4_4]
  | match4 lc da =>
    simp [encode, decodeMatch, hiNibble_append, loNibble_append, fields_append_4_8, fields_append_4_8_4]
  | _ => simp [placeOf] at hp

/-- What an element encodes to reads back as the element at its place, whatever follows it; a zero short size is the one
exception (rules R75 and R87). -/
theorem decode_encode {i : Instr} {pl : Place} {rest : List Byte} (hw : i.wf = true) (hp : placeOf i = some pl)
    (h0 : i = .sizeShort 0 → rest.length < 4) : decode pl (encode i ++ rest) = .ok i (encode i).length := by
  cases i with
  | magic => cases hp; rfl
  | sizeShort n => cases hp; exact decodeSize_short n fun e => h0 (by rw [e])
  | sizeEscape n => cases hp; exact decodeSize_escape n rest
  | groupHdr tags => cases hp; rfl
  | lit v => cases hp; rfl
  | match2 la da => cases hp; exact decodeMatch_encode hw rfl rest
  | match3 lb da => cases hp; exact decodeMatch_encode hw rfl rest
  | match4 lc da => cases hp; exact decodeMatch_encode hw rfl rest
  | compress => simp [placeOf] at hp
  | decompress => simp [placeOf] at hp
  | encodeTokens => simp [placeOf] at hp

end Sys2Proof

namespace Sys2Proof.Machine

/-- The decoder reads enough bytes at each place for every element that stands there. -/
theorem encode_length_le_placeBytes {i : Instr} {pl : Place} (hp : placeOf i = some pl) :
    (encode i).length ≤ placeBytes pl := by
  cases i <;> simp [placeOf] at hp <;> subst hp <;> simp [encode, placeBytes, maxElementBytes]

/-- DECOMPRESS runs the element whose bytes stand at the place it reads. -/
theorem fetch_element {s : State} {i : Instr} {pl : Place} {rest : List Byte}
    (hin : s.input.drop (placeOffset s pl) = encode i ++ rest) (hw : i.wf = true) (hp : placeOf i = some pl)
    (h0 : i = .sizeShort 0 → rest.length < 4) : fetch pl s = .exec i s := by
  have hbytes : fetchBytes pl s = encode i ++ rest.take (placeBytes pl - (encode i).length) := by
    rw [fetchBytes, inBytes_eq_input, hin, List.take_append, List.take_of_length_le (encode_length_le_placeBytes hp)]
  have hdec := decode_encode (rest := rest.take (placeBytes pl - (encode i).length)) hw hp fun e =>
    Nat.lt_of_le_of_lt (List.length_take_le' _ _) (h0 e)
  simp only [fetch, hbytes, hdec]

end Sys2Proof.Machine
end

section
/-! SUPPORT. The framer writes `frame` (rules R77 and R130 to R135): the groups of a token sequence, and what `OUT` and the
framer's registers hold while a group is open. -/

namespace Sys2Proof.Machine

/-! ### The groups of a token sequence -/

/-- The fuel of `groups` does not matter once there is one unit for each token. -/
theorem groups_fuel {n m : Nat} {ts : List Token} (hn : ts.length ≤ n) (hm : ts.length ≤ m) :
    groups n ts = groups m ts := by
  induction n generalizing m ts with
  | zero =>
    obtain rfl : ts = [] := List.length_eq_zero_iff.1 (by omega)
    cases m <;> rfl
  | succ n ih =>
    cases ts with
    | nil => cases m <;> rfl
    | cons t ts =>
      cases m with
      | zero => simp at hm
      | succ m =>
        have hdrop : ((t :: ts).drop 8).length ≤ ts.length := by rw [List.length_drop, List.length_cons]; omega
        rw [groups, groups, ih (hdrop.trans (Nat.le_of_succ_le_succ hn)) (hdrop.trans (Nat.le_of_succ_le_succ hm))]

/-- A sequence of at most 8 tokens is one group (rules R77 and R134). -/
theorem frame_of_length_le {ts : List Token} (h : ts.length ≤ 8) : frame ts = groupBytes ts := by
  cases ts with
  | nil => rfl
  | cons t ts =>
    have hdrop : (t :: ts).drop 8 = [] := List.drop_eq_nil_of_le h
    have hnil : groups ts.length [] = [] := by cases ts.length <;> rfl
    simp only [frame, reduceCtorEq, if_false, List.length_cons, groups, hdrop, hnil, List.take_of_length_le h,
      List.map_cons, List.map_nil, List.flatten_cons, List.flatten_nil, List.append_nil]

/-- A full group is framed before the tokens that follow it (rule R77). -/
theorem frame_append {g rest : List Token} (hg : g.length = 8) (hr : rest ≠ []) :
    frame (g ++ rest) = groupBytes g ++ frame rest := by
  cases g with
  | nil => simp at hg
  | cons t ts =>
    have htake : (t :: (ts ++ rest)).take 8 = t :: ts := by
      rw [← List.cons_append, List.take_append_of_le_length (by omega), List.take_of_length_le (by omega)]
    have hdrop : (t :: (ts ++ rest)).drop 8 = rest := by
      rw [← List.cons_append, ← hg, List.drop_left]
    have hfuel : groups (ts ++ rest).length rest = groups rest.length rest := groups_fuel (by simp) (Nat.le_refl _)
    simp only [frame, List.cons_append, reduceCtorEq, hr, if_false, List.length_cons, groups, htake, hdrop, hfuel,
      List.map_cons, List.flatten_cons]

/-- Full groups, and then the last one. -/
theorem frame_flatten {gs : List (List Token)} {g : List Token} (hgs : ∀ x ∈ gs, x.length = 8) (hg : g.length ≤ 8)
    (hne : g = [] → gs = []) : frame (gs.flatten ++ g) = (gs.map groupBytes).flatten ++ groupBytes g := by
  induction gs with
  | nil => simpa using frame_of_length_le hg
  | cons x gs ih =>
    have hg0 : g ≠ [] := fun e => List.cons_ne_nil x gs (hne e)
    rw [List.flatten_cons, List.append_assoc, frame_append (hgs x List.mem_cons_self) (by simp [hg0]),
      ih (fun y hy => hgs y (List.mem_cons_of_mem _ hy)) fun e => absurd e hg0]
    simp

/-! ### The accumulator -/

/-- The header of a group with one more token (rules R78 and R135). -/
theorem groupBits_snoc (i : Nat) (g : List Token) (t : Token) :
    groupBits i (g ++ [t]) = groupBits i g ||| tagBit (tokenTag t) <<< (7 - (i + g.length)) := by
  induction g generalizing i with
  | nil => simp [groupBits]
  | cons u g ih =>
    rw [List.cons_append, groupBits, groupBits, ih, BitVec.or_assoc, List.length_cons, Nat.add_assoc, Nat.add_comm 1]

theorem cnt_succ {cnt : BitVec 4} (h : cnt.toNat < 8) : (cnt + 1).toNat = cnt.toNat + 1 := by
  rw [BitVec.toNat_add]
  exact Nat.mod_eq_of_lt (Nat.add_lt_add_right (Nat.lt_of_lt_of_le h (by decide : 8 ≤ 15)) 1)

/-- PUSH_TAG into an open group, seen from the header the group would end with (rules R132 and R134). -/
theorem accFinish_accPush (acc : Byte) (cnt : BitVec 4) (tag : Bool) (h : cnt.toNat < 8) :
    accFinish (accPush acc tag) (cnt + 1) = accFinish acc cnt ||| tagBit tag <<< (7 - cnt.toNat) := by
  rw [accFinish, accFinish, accPush, cnt_succ h, BitVec.shiftLeft_or_distrib, ← BitVec.shiftLeft_add,
    show 1 + (8 - (cnt.toNat + 1)) = 8 - cnt.toNat by omega, show 8 - (cnt.toNat + 1) = 7 - cnt.toNat by omega]

/-! ### An open group -/

/-- The framer has a group of these tokens open, after these bytes: its placeholder is 0x00 until the group is closed
(rules R131 to R133). -/
structure State.GroupOpen (s : State) (pre : List Byte) (g : List Token) : Prop where
  output : s.OutputIs (pre ++ 0 :: (g.map tokenBytes).flatten)
  ph : s.ph = pre.length
  count : s.cnt.toNat = g.length
  atMostEight : g.length ≤ 8
  header : accFinish s.acc s.cnt = groupBits 0 g

/-- FRAMER_INIT opens an empty group. -/
theorem State.OutputIs.groupOpen {s : State} {pre : List Byte} (h : s.OutputIs pre) :
    (framerInit s).GroupOpen pre [] where
  output := ⟨(h.append 0).length, (h.append 0).byte⟩
  ph := h.length
  count := rfl
  atMostEight := Nat.zero_le _
  header := rfl

/-- The header written to its placeholder closes the group (rules R132 and R134). -/
theorem State.GroupOpen.close {s : State} {pre : List Byte} {g : List Token} (h : s.GroupOpen pre g) :
    (State.rewrite s.ph (groupBits 0 g) s).OutputIs (pre ++ groupBytes g) := by
  rw [h.ph]
  exact h.output.rewrite _

/-- The flush of a full group (rule R132). -/
theorem State.GroupOpen.flush {s : State} {pre : List Byte} {g : List Token} (h : s.GroupOpen pre g)
    (hfull : s.cnt = 8) : (flushGroup s).GroupOpen (pre ++ groupBytes g) [] := by
  have hacc : s.acc = groupBits 0 g := by
    rw [← h.header, hfull]
    exact (BitVec.shiftLeft_zero s.acc).symm
  rw [flushGroup, hacc]
  exact h.close.groupOpen

/-- EMIT into a group that is not full. -/
theorem State.GroupOpen.emit_token {s : State} {pre : List Byte} {g : List Token} (h : s.GroupOpen pre g)
    (hopen : s.cnt ≠ 8) (t : Token) : (emit (tokenInstr t) s).GroupOpen pre (g ++ [t]) := by
  have hlt : s.cnt.toNat < 8 := Nat.lt_of_le_of_ne (h.count ▸ h.atMostEight) fun e => hopen (BitVec.eq_of_toNat_eq e)
  have hout := h.output.appendBytes (tokenBytes t)
  rw [appendBytes_eq, show pre ++ 0 :: (g.map tokenBytes).flatten ++ tokenBytes t =
    pre ++ 0 :: ((g ++ [t]).map tokenBytes).flatten by simp] at hout
  rw [emit_open _ _ hopen]
  refine ⟨⟨hout.length, hout.byte⟩, h.ph, ?_, ?_, ?_⟩
  · rw [cnt_succ hlt, h.count, List.length_append, List.length_singleton]
  · rw [List.length_append, List.length_singleton, ← h.count]
    exact hlt
  · simp only [accFinish_accPush _ _ _ hlt, h.header, groupBits_snoc, instrTag_tokenInstr, Nat.zero_add, h.count]

/-! ### The framed output -/

/-- The framer has written these tokens after this header: some full groups, and one that is still open. -/
def State.Framed (s : State) (hdr : List Byte) (ts : List Token) : Prop :=
  ∃ gs g, ts = gs.flatten ++ g ∧ (∀ x ∈ gs, x.length = 8) ∧ (g = [] → gs = []) ∧
    s.GroupOpen (hdr ++ (gs.map groupBytes).flatten) g

theorem State.OutputIs.framed {s : State} {hdr : List Byte} (h : s.OutputIs hdr) :
    (framerInit s).Framed hdr [] :=
  ⟨[], [], rfl, by simp, fun _ => rfl, by simpa using h.groupOpen⟩

/-- What the framer has written is seen in `OUT` and the framer's registers alone. -/
theorem State.Framed.congr {s t : State} {hdr : List Byte} {ts : List Token} (h : s.Framed hdr ts)
    (hmem : t.outMem = s.outMem) (hlen : t.outLen = s.outLen) (hph : t.ph = s.ph) (hcnt : t.cnt = s.cnt)
    (hacc : t.acc = s.acc) : t.Framed hdr ts := by
  obtain ⟨gs, g, hts, hgs, hne, hopen⟩ := h
  have hout : t.OutputIs (hdr ++ (gs.map groupBytes).flatten ++ 0 :: (g.map tokenBytes).flatten) :=
    ⟨hlen ▸ hopen.output.length, fun x => by rw [State.outByte, hmem]; exact hopen.output.byte x⟩
  exact ⟨gs, g, hts, hgs, hne, hout, hph ▸ hopen.ph, hcnt ▸ hopen.count, hopen.atMostEight,
    by rw [hacc, hcnt]; exact hopen.header⟩

/-- EMIT frames one more token (rules R132 and R133). -/
theorem State.Framed.emit_token {s : State} {hdr : List Byte} {ts : List Token} (h : s.Framed hdr ts) (t : Token) :
    (emit (tokenInstr t) s).Framed hdr (ts ++ [t]) := by
  obtain ⟨gs, g, rfl, hgs, hne, hopen⟩ := h
  by_cases hc : s.cnt = 8
  · have hg8 : g.length = 8 := by rw [← hopen.count, hc]; rfl
    have hflush : emit (tokenInstr t) s = emit (tokenInstr t) (flushGroup s) := by
      simp only [emit, pushTag, flushIfFull, if_pos hc, if_neg (show (flushGroup s).cnt ≠ 8 by simp [flushGroup])]
    refine ⟨gs ++ [g], [t], by simp, ?_, by simp, ?_⟩
    · simpa [or_imp, forall_and] using ⟨hgs, hg8⟩
    · rw [hflush]
      simpa using (hopen.flush hc).emit_token (by simp [flushGroup]) t
  · exact ⟨gs, g ++ [t], by simp, hgs, by simp, hopen.emit_token hc t⟩

/-- FRAMER_FINISH leaves the header and the framed tokens in `OUT` (rule R134). -/
theorem State.Framed.close {s : State} {hdr : List Byte} {ts : List Token} (h : s.Framed hdr ts) :
    (State.rewrite s.ph (accFinish s.acc s.cnt) s).OutputIs (hdr ++ frame ts) := by
  obtain ⟨gs, g, rfl, hgs, hne, hopen⟩ := h
  rw [frame_flatten hgs hopen.atMostEight hne, hopen.header, ← List.append_assoc]
  exact hopen.close

end Sys2Proof.Machine
end

section
/-! SUPPORT. The encoder jobs: the header both of them write (rule R221), the tokens the match finder decides on (rule R198),
and the stream that COMPRESS hands over (rules R220 and R222). -/

namespace Sys2Proof.Machine

/-! ### The header -/

theorem exec_sizeInstr_enc {s : State} {j : EncJob} (hp : s.phase = .enc j .size) (n : Nat) :
    exec (sizeInstr n) s = .next (encHeader j (sizeInstr n) .init s) := by
  simp only [sizeInstr]
  split <;> simp [exec, execSizeShort, execSizeEscape, hp]

/-- WRITE_HEADER writes the output and the point of the job, and nothing else (rule R221). -/
theorem encHeader_frame (j : EncJob) (i : Instr) (next : EncPoint) (s : State) :
    encHeader j i next s =
      { s with
        outMem := (encHeader j i next s).outMem
        outLen := (encHeader j i next s).outLen
        phase := .enc j next } := by
  rw [encHeader, appendBytes_eq]

theorem State.OutputIs.after_encHeader {s : State} {bs : List Byte} (h : s.OutputIs bs) (j : EncJob) (i : Instr)
    (next : EncPoint) : (encHeader j i next s).OutputIs (bs ++ encode i) :=
  ⟨(h.appendBytes (encode i)).length, (h.appendBytes (encode i)).byte⟩

theorem State.Running.after_encHeader {s : State} {p : Phase} (h : s.Running p) (j : EncJob) (i : Instr) (next : EncPoint) :
    (encHeader j i next s).Running (.enc j next) := by
  rw [encHeader_frame]
  exact ⟨h.noReset, h.busy, rfl⟩

theorem State.Running.step_encMagic {s : State} {j : EncJob} (h : s.Running (.enc j .magic)) :
    step s = .next (encHeader j .magic .size s) := by
  simp [h.step_enc, selectEnc, Action.outcome, exec, execMagic, h.phase]

theorem State.Running.step_encSize {s : State} {j : EncJob} (h : s.Running (.enc j .size)) :
    step s = .next (encHeader j (sizeInstr (encLength j s)) .init s) := by
  simp only [h.step_enc, selectEnc, Action.outcome, exec_sizeInstr_enc h.phase]

theorem State.Running.step_encInit {s : State} {j : EncJob} (h : s.Running (.enc j .init)) :
    step s = .next { framerInit s with phase := .enc j .loop } := by
  simp only [h.step_enc, selectEnc, Action.outcome]

/-- The length an encoder declares does not change while it writes the header. -/
theorem encLength_encHeader (j : EncJob) (i : Instr) (next : EncPoint) (s : State) :
    encLength j (encHeader j i next s) = encLength j s := by
  rw [encHeader_frame]
  cases j <;> rfl

/-- An encoder job writes its header and opens the first group (rules R131 and R221). -/
theorem State.Running.writes_header {s : State} {j : EncJob} (h : s.Running (.enc j .magic)) (ho : s.OutputIs []) :
    ∃ t, Reaches s t ∧ t.Running (.enc j .loop) ∧
      t.Framed (encode .magic ++ encode (sizeInstr (encLength j s))) [] ∧
      t = { s with outMem := t.outMem, outLen := t.outLen, acc := 0, cnt := 0, ph := t.ph, phase := .enc j .loop } := by
  have hsize := h.after_encHeader j .magic .size
  have hinit := hsize.after_encHeader j (sizeInstr (encLength j s)) .init
  have step2 := hsize.step_encSize
  rw [encLength_encHeader] at step2
  refine ⟨_, .head h.step_encMagic (.head step2 (.head hinit.step_encInit (.refl _))),
    ⟨hinit.noReset, hinit.busy, rfl⟩, ?_, ?_⟩
  · exact ((ho.after_encHeader j .magic .size).after_encHeader j (sizeInstr (encLength j s)) .init).framed.congr rfl rfl rfl rfl rfl
  · simp only [encHeader, appendBytes_eq, framerInit, State.append]

/-! ### The tokens of the match finder -/

/-- What COMMON_PREFIX counts are equal bytes, within its cap and within the input (rule R196). -/
theorem commonBytes_spec (s : State) (fuel a b : Nat) (hb : b ≤ s.inLen) :
    commonBytes s fuel a b ≤ fuel ∧ b + commonBytes s fuel a b ≤ s.inLen ∧
      ∀ k, k < commonBytes s fuel a b → s.inByte (a + k) = s.inByte (b + k) := by
  induction fuel generalizing a b with
  | zero => exact ⟨Nat.le_refl _, hb, fun k hk => absurd hk (Nat.not_lt_zero k)⟩
  | succ fuel ih =>
    simp only [commonBytes]
    split
    · rename_i h
      obtain ⟨h1, h2, h3⟩ := ih (a + 1) (b + 1) h.1
      refine ⟨by omega, by omega, fun k hk => ?_⟩
      cases k with
      | zero => exact h.2
      | succ k =>
        have := h3 k (by omega)
        rwa [Nat.add_right_comm a, Nat.add_right_comm b] at this
    · exact ⟨Nat.zero_le _, hb, fun k hk => absurd hk (Nat.not_lt_zero k)⟩

/-- A genuine match at `cur` (rule R198): in range, within the input, and its bytes are those `d` before them. -/
structure State.Genuine (s : State) (d l : Nat) : Prop where
  distance : 1 ≤ d ∧ d ≤ 4095
  length : 4 ≤ l ∧ l ≤ 65808
  source : d ≤ s.cur
  within : s.cur + l ≤ s.inLen
  bytes : ∀ k, k < l → s.inByte (s.cur + k) = s.inByte (s.cur - d + k)

/-- The search decides on the literal at `cur` or on a genuine match (rule R198), as the table holds only positions before
`cur` (rule R195). -/
theorem search_genuine {h4 : Hash4} {s : State} (hht : ∀ c ∈ s.ht, c.2 < s.cur) (hcur : s.cur < s.inLen) :
    (search h4 s).1 = .lit (s.inByte s.cur) ∨ ∃ d l, (search h4 s).1 = matchInstr d l ∧ s.Genuine d l := by
  simp only [search, searchWindow]
  split
  · split
    · exact .inl rfl
    · rename_i c hc
      have hlt : c < s.cur := hht _ (table_mem_of_lookup _ _ _ hc)
      obtain ⟨hcap, hend, hbytes⟩ := commonBytes_spec s Config.maxMatch c s.cur (Nat.le_of_lt hcur)
      split
      · rename_i huse
        split
        · rename_i hmin
          refine .inr ⟨_, _, rfl, ⟨by omega, huse⟩, ⟨hmin, hcap⟩, by omega, hend, fun k hk => ?_⟩
          rw [show s.cur - (s.cur - c) = c by omega]
          exact (hbytes k hk).symm
        · exact .inl rfl
      · exact .inl rfl
  · exact .inl rfl

/-- A token that stands for the bytes of the input at `cur` (rules R198 and R233). -/
structure State.TokenAt (s : State) (t : Token) : Prop where
  emitted : tokenEmitted t
  contract : t.inContract s.cur = true
  within : s.cur + t.size ≤ s.inLen
  expands : expandToken (s.input.take s.cur) t = s.input.take (s.cur + t.size)

theorem State.tokenAt_lit {s : State} (h : s.cur < s.inLen) : s.TokenAt (.lit (s.inByte s.cur)) where
  emitted := trivial
  contract := rfl
  within := h
  expands := by
    rw [expandToken, Token.size, List.take_add_one, input_getElem? h, Option.toList_some]

theorem State.Genuine.tokenAt {s : State} {d l : Nat} (h : s.Genuine d l) : s.TokenAt (.copy d l) := by
  obtain ⟨hd, hl, hsrc, hin, hbytes⟩ := h
  refine ⟨⟨hd.1, hd.2, hl.1, hl.2⟩, by simp only [Token.inContract, decide_eq_true_eq]; omega, hin, ?_⟩
  refine expandCopy_take hd.1 hsrc (by rw [input_length]; exact hin) fun k hk => ?_
  rw [input_getElem? (by omega), input_getElem? (by omega), hbytes k hk]

/-- The next token of COMPRESS stands for the bytes at `cur`. -/
theorem search_tokenAt {h4 : Hash4} {s : State} (hht : ∀ c ∈ s.ht, c.2 < s.cur) (hcur : s.cur < s.inLen) :
    ∃ t, (search h4 s).1 = tokenInstr t ∧ s.TokenAt t := by
  rcases search_genuine hht hcur with h | ⟨d, l, h, hg⟩
  · exact ⟨.lit _, h, s.tokenAt_lit hcur⟩
  · exact ⟨.copy d l, h, hg.tokenAt⟩

/-! ### The token loop of COMPRESS -/

/-- A COMPRESS at the head of its token loop, which has written these tokens after this header. -/
structure State.Compressing (s : State) (hdr : List Byte) (ts : List Token) : Prop where
  running : s.Running (.enc .compress .loop)
  cursor : s.cur ≤ s.inLen
  tableWf : HashTable.wf s.ht = true
  table : ∀ c ∈ s.ht, c.2 < s.cur
  emitted : ∀ t ∈ ts, tokenEmitted t
  contract : walkTokens ts 0 = some s.cur
  expands : expand ts = s.input.take s.cur
  framed : s.Framed hdr ts

/-- One token more (rule R197): what it stands for is written, and `cur` passes it. -/
theorem State.Compressing.after_finderEmit {s : State} {hdr : List Byte} {ts : List Token} (h : s.Compressing hdr ts)
    {tok : Token} (hat : s.TokenAt tok) (h4 : Hash4) :
    (finderEmit h4 (tokenInstr tok) tok.size s).Compressing hdr (ts ++ [tok]) := by
  have hemit : (emit (tokenInstr tok) s).ht = s.ht := by rw [emit_frame]
  obtain ⟨hwf, hmem⟩ := registerSpan_mem h4 tok.size s.cur (emit (tokenInstr tok) s) (by rw [hemit]; exact h.tableWf)
  have hf := finderEmit_frame h4 (tokenInstr tok) tok.size s
  constructor
  case running => rw [hf]; exact ⟨h.running.noReset, h.running.busy, h.running.phase⟩
  case cursor => rw [hf]; exact hat.within
  case tableWf => exact hwf
  case table =>
    intro c hc
    rw [show (finderEmit h4 (tokenInstr tok) tok.size s).cur = s.cur + tok.size from rfl]
    rcases hmem c hc with hold | ⟨hnew, -, -⟩
    · have := h.table c (hemit ▸ hold)
      omega
    · exact hnew
  case emitted => simpa [or_imp, forall_and] using ⟨h.emitted, hat.emitted⟩
  case contract =>
    rw [hf]
    exact walkTokens_append.2 ⟨s.cur, h.contract, walkTokens_cons.2 ⟨hat.contract, rfl⟩⟩
  case expands =>
    rw [hf, expand, List.foldl_append, ← expand, h.expands]
    exact hat.expands
  case framed => exact (h.framed.emit_token tok).congr (by rw [hf]) (by rw [hf]) (by rw [hf]) (by rw [hf]) (by rw [hf])

/-- While input is left, a step of COMPRESS writes one more token of it. -/
theorem State.Compressing.step_token {s : State} {hdr : List Byte} {ts : List Token} (h : s.Compressing hdr ts)
    (hlt : s.cur < s.inLen) :
    ∃ tok t, step s = .next t ∧ t.Compressing hdr (ts ++ [tok]) ∧ t.input = s.input ∧ s.cur < t.cur := by
  obtain ⟨tok, htok, hat⟩ := search_tokenAt (h4 := Config.here.hash4) h.table hlt
  have hsearch := search_frame Config.here.hash4 s
  generalize (search Config.here.hash4 s).2.temps = tmp at hsearch
  have hs' : State.Compressing { s with temps := tmp } hdr ts :=
    ⟨⟨h.running.noReset, h.running.busy, h.running.phase⟩, h.cursor, h.tableWf, h.table, h.emitted, h.contract, h.expands,
      h.framed.congr rfl rfl rfl rfl rfl⟩
  have hat' : State.TokenAt { s with temps := tmp } tok := ⟨hat.emitted, hat.contract, hat.within, hat.expands⟩
  have hexec := exec_token_enc hs'.running.phase (instrToken_tokenInstr (encodable_of_inContract hat.contract))
  refine ⟨tok, _, ?_, hs'.after_finderEmit hat' Config.here.hash4, ?_, ?_⟩
  · simp only [h.running.step_enc, selectEnc, nextToken, if_pos hlt, htok, hsearch, Action.outcome, hexec, encToken]
  · rw [finderEmit_frame]; rfl
  · exact Nat.lt_add_of_pos_right (size_pos_of_inContract hat.contract)

/-- COMPRESS finishes from the head of its loop, with tokens that stand for the input (rules R222 and R233). -/
theorem State.Compressing.finishes {s : State} {hdr : List Byte} {ts : List Token} (h : s.Compressing hdr ts) :
    ∃ us : List Token, (∀ t ∈ us, tokenEmitted t) ∧ walkTokens us 0 = some s.inLen ∧ expand us = s.input ∧
      FinishesWith s (hdr ++ frame us) := by
  by_cases hlt : s.cur < s.inLen
  · obtain ⟨tok, t, hstep, ht, hin, hcur⟩ := h.step_token hlt
    have hlen : t.inLen = s.inLen := by rw [← input_length, hin, input_length]
    obtain ⟨us, hem, hwalk, hexp, v, hrun, hv⟩ := ht.finishes
    exact ⟨us, hem, hlen ▸ hwalk, hin ▸ hexp, v, hrun.head hstep, hv⟩
  · have hend : s.cur = s.inLen := Nat.le_antisymm h.cursor (Nat.le_of_not_lt hlt)
    have hstep : step s = .next (finish (State.rewrite s.ph (accFinish s.acc s.cnt) s)) := by
      simp only [h.running.step_enc, selectEnc, nextToken, if_neg hlt, Action.outcome, exec, execGroupHdr,
        h.running.phase, framerFinish]
    refine ⟨ts, h.emitted, hend ▸ h.contract, ?_, (Reaches.refl s).finishesWith hstep h.framed.close⟩
    rw [h.expands, hend, List.take_of_length_le (by rw [input_length])]
termination_by s.inLen - s.cur
decreasing_by omega

/-- COMPRESS of an admitted input finishes with the framed stream of tokens that the match finder may emit, that are inside
the contract, and that expand to the input (rules R198, R222 and R233). -/
theorem compress_finishes {s : State} (h : s.Ready .compress) (ho : s.inOverlapsOut = false)
    (hin : s.inLen ≤ Config.here.maxIn) (hmax : s.inLen ≤ Config.maxDeclared) :
    ∃ ts : List Token, (∀ t ∈ ts, tokenEmitted t) ∧ walkTokens ts 0 = some s.inLen ∧ expand ts = s.input ∧
      FinishesWith s (streamOf ts) := by
  have hstart := h.step_start
  rw [jobStart_admitted ho hin (fun _ => hmax) (by simp)] at hstart
  have hrun : (beginCompress s).Running (.enc .compress .magic) := ⟨h.2.2.2, rfl, rfl⟩
  obtain ⟨t, hreach, htrun, hframed, ht⟩ := hrun.writes_header ⟨rfl, fun x => by simp [beginCompress, State.outByte]⟩
  have hcomp : t.Compressing (encode .magic ++ encode (sizeInstr s.inLen)) [] := by
    refine ⟨htrun, ?_, ?_, ?_, by simp, ?_, ?_, hframed⟩
    all_goals rw [ht]
    · exact Nat.zero_le _
    · rfl
    · simp [beginCompress]
    · rfl
    · rfl
  obtain ⟨ts, hem, hwalk, hexp, hfin⟩ := hcomp.finishes
  have htin : t.input = s.input := by rw [ht]; rfl
  have htlen : t.inLen = s.inLen := by rw [ht]; rfl
  rw [htlen] at hwalk
  have hlen : s.inLen = tokensLength ts := by simpa using walkTokens_length hwalk
  obtain ⟨v, hv, hres⟩ := hfin
  refine ⟨ts, hem, hwalk, htin ▸ hexp, v, (hreach.runsTo hv).head hstart, ?_⟩
  rwa [hlen] at hres

end Sys2Proof.Machine
end

section
/-! SUPPORT. DECOMPRESS of a framed stream (rules R153 to R163 and R234): the header, the groups and the tokens, each read
where the stream has it. -/

namespace Sys2Proof.Machine

/-! ### The header -/

/-- SIZE_SHORT or SIZE_ESCAPE, as the encoder chose it, in DECOMPRESS (rules R74 and R154). -/
theorem exec_sizeInstr_dec {s : State} (hp : s.phase = .dec .size) (n : Nat) :
    exec (sizeInstr n) s =
      .next (decSize Config.here (1 + (encode (sizeInstr n)).length) (BitVec.ofNat 32 n) s) := by
  simp only [sizeInstr]
  split
  · have hw : (BitVec.ofNat 24 n).setWidth 32 = BitVec.ofNat 32 n := by
      apply BitVec.eq_of_toNat_eq
      simp only [BitVec.toNat_setWidth, BitVec.toNat_ofNat]
      have : n < 0xFFFFFF := ‹_›
      omega
    simp only [exec, execSizeShort, hp, hw]
    rfl
  · simp only [exec, execSizeEscape, hp]
    rfl

theorem sizeInstr_wf (n : Nat) : (sizeInstr n).wf = true := by
  simp only [sizeInstr]
  split <;> rfl

theorem placeOf_sizeInstr (n : Nat) : placeOf (sizeInstr n) = some .size := by
  simp only [sizeInstr]
  split <;> rfl

/-- The short form declares 0 only for the empty input (rule R74). -/
theorem sizeInstr_eq_zero {n : Nat} (h : sizeInstr n = .sizeShort 0) : n = 0 := by
  simp only [sizeInstr] at h
  split at h
  · have hlt : n < 0xFFFFFF := ‹_›
    have h0 : (BitVec.ofNat 24 n).toNat = 0 := congrArg BitVec.toNat (Instr.sizeShort.inj h)
    rw [BitVec.toNat_ofNat] at h0
    omega
  · simp at h

theorem three_le_encode_sizeInstr (n : Nat) : 3 ≤ (encode (sizeInstr n)).length := by
  simp only [sizeInstr]
  split <;> simp [encode]

/-- The magic byte of a stream with a whole header (rule R153). -/
theorem State.Running.step_decMagic {s : State} (h : s.Running (.dec .magic)) {rest : List Byte}
    (hin : s.input = encode .magic ++ rest) (hrest : 3 ≤ rest.length) : step s = .next { s with phase := .dec .size } := by
  have hlen : ¬ s.inLen < 4 := by
    rw [← input_length, hin, List.length_append, encode, List.length_singleton]
    omega
  have hf : fetch .magic s = .exec .magic s := fetch_element (rest := rest) hin rfl rfl (by simp)
  simp only [h.step_dec, selectDec, hf, Action.outcome, exec, execMagic, h.phase, decMagic, if_neg hlen]

/-- The size header that the encoder wrote for `n` (rules R75 and R154). -/
theorem State.Running.step_decSize {s : State} (h : s.Running (.dec .size)) {n : Nat} {rest : List Byte}
    (hin : s.input.drop 1 = encode (sizeInstr n) ++ rest) (h0 : n = 0 → rest.length < 4) :
    step s = .next (decSize Config.here (1 + (encode (sizeInstr n)).length) (BitVec.ofNat 32 n) s) := by
  have hf : fetch .size s = .exec (sizeInstr n) s :=
    fetch_element hin (sizeInstr_wf n) (placeOf_sizeInstr n) fun e => h0 (sizeInstr_eq_zero e)
  simp only [h.step_dec, selectDec, hf, Action.outcome, exec_sizeInstr_dec h.phase n]

/-! ### The registers of the group header -/

theorem tagBit_getLsbD_succ (tag : Bool) (k : Nat) : (tagBit tag).getLsbD (k + 1) = false := by
  cases tag <;> simp [tagBit]

/-- The tags from the second place on leave bit 7 alone (rule R78). -/
theorem groupBits_succ_getLsbD (i : Nat) (g : List Token) : (groupBits (i + 1) g).getLsbD 7 = false := by
  induction g generalizing i with
  | nil => simp [groupBits]
  | cons t g ih =>
    obtain ⟨k, hk⟩ : ∃ k, 7 - (7 - (i + 1)) = k + 1 := ⟨6 - (7 - (i + 1)), by omega⟩
    rw [groupBits, BitVec.getLsbD_or, ih, BitVec.getLsbD_shiftLeft, hk, tagBit_getLsbD_succ]
    simp

/-- The tags of a group that starts one place later are one bit lower. -/
theorem groupBits_succ_shift {i : Nat} {g : List Token} (h : i + g.length ≤ 7) :
    groupBits (i + 1) g <<< 1 = groupBits i g := by
  induction g generalizing i with
  | nil => simp [groupBits]
  | cons t g ih =>
    rw [List.length_cons] at h
    rw [groupBits, groupBits, BitVec.shiftLeft_or_distrib, ih (by omega), ← BitVec.shiftLeft_add,
      show 7 - (i + 1) + 1 = 7 - i by omega]

/-- TAG_TEST finds the tag of the first token of what is left of a group (rules R78 and R157). -/
theorem tagOf_groupBits (t : Token) (g : List Token) : tagOf (groupBits 0 (t :: g)) = tokenTag t := by
  rw [tagOf, groupBits, BitVec.getLsbD_or, groupBits_succ_getLsbD]
  cases tokenTag t <;> rfl

/-- TAG_ADVANCE leaves the header of what is left of a group after its first token (rules R78 and R162). -/
theorem shiftHdr_groupBits {t : Token} {g : List Token} (h : g.length ≤ 7) :
    shiftHdr (groupBits 0 (t :: g)) = groupBits 0 g := by
  have h0 : tagBit (tokenTag t) <<< 7 <<< 1 = 0 := by cases tokenTag t <;> rfl
  rw [shiftHdr, groupBits, BitVec.shiftLeft_or_distrib, groupBits_succ_shift (by omega), h0]
  exact BitVec.zero_or

/-! ### One token -/

theorem State.OutputIs.after_copyByte {s : State} {out : List Byte} (h : s.OutputIs out) (d : Nat) :
    (copyByte d s).OutputIs (out ++ [out.getD (out.length - d) 0]) := by
  rw [← h.byte, ← h.length]
  exact ⟨(h.append _).length, (h.append _).byte⟩

/-- BACKREF_COPY within the declared length appends the copy of rule R160. -/
theorem State.OutputIs.after_backrefCopy {s : State} {out : List Byte} (h : s.OutputIs out) {d l : Nat}
    (hl : out.length + l ≤ s.dlen.toNat) :
    (backrefCopy d l s).1.OutputIs (expandCopy d l out) ∧ (backrefCopy d l s).2 = false := by
  induction l generalizing s out with
  | zero => exact ⟨h, rfl⟩
  | succ l ih =>
    rw [backrefCopy, if_neg (by rw [h.length]; omega), expandCopy]
    exact ih (h.after_copyByte d) (by simp; omega)

/-- A DECOMPRESS in its token loop that is to produce `n` bytes: the bytes it still has to read, and those it has written. -/
structure State.Decoding (s : State) (n : Nat) (todo out : List Byte) : Prop where
  running : s.Running (.dec .loop)
  declared : s.dlen.toNat = n
  todo : s.input.drop s.pos = todo
  output : s.OutputIs out

/-- At the declared length the job finishes (rule R163). -/
theorem State.Decoding.step_done {s : State} {n : Nat} {todo out : List Byte} (h : s.Decoding n todo out)
    (hn : out.length = n) : step s = .next (finish s) := by
  have hlt : ¬ s.outLen < s.dlen.toNat := by rw [h.output.length, h.declared]; omega
  simp only [h.running.step_dec, selectDec, if_neg hlt, Action.outcome]

/-- Where output is needed and no tags remain, the next byte is loaded as a group header (rule R156). -/
theorem State.Decoding.step_header {s : State} {n : Nat} {b : Byte} {todo out : List Byte}
    (h : s.Decoding n (b :: todo) out) (hn : out.length < n) (hr : s.rem = 0) :
    step s = .next (headerLoad b s) ∧ (headerLoad b s).Decoding n todo out := by
  have hlt : s.outLen < s.dlen.toNat := by rw [h.output.length, h.declared]; exact hn
  have hf : fetch .groupHdr s = .exec (.groupHdr b) s := fetch_element (rest := todo) h.todo rfl rfl (by simp)
  refine ⟨?_, ⟨h.running.noReset, h.running.busy, h.running.phase⟩, h.declared, ?_,
    ⟨h.output.length, h.output.byte⟩⟩
  · simp only [h.running.step_dec, selectDec, if_pos hlt, loopPlace, if_pos hr, hf, Action.outcome, exec, execGroupHdr,
      h.running.phase]
  · rw [headerLoad_pos, ← List.drop_drop, show (headerLoad b s).input = s.input from rfl, h.todo, List.drop_one,
      List.tail_cons]

/-- The next state of a token step in the decoder's loop. -/
def decodeToken (cfg : Config) : Token → State → State
  | .lit v, s => decLit v s
  | .copy d l, s => decMatch cfg (tokenInstr (.copy d l)) d l s

theorem exec_tokenInstr_dec {s : State} (hp : s.phase = .dec .loop) {t : Token} (ht : t.encodable = true) :
    exec (tokenInstr t) s = .next (decodeToken Config.here t s) := by
  cases t with
  | lit v => simp only [tokenInstr, exec, execLit, hp, decodeToken]
  | copy d l => exact exec_match_dec hp (instrToken_tokenInstr ht)

/-- A match that passes BACKREF_CHECK and is copied whole ends with TAG_ADVANCE (rules R159, R160 and R162). -/
theorem decodeToken_copy {cfg : Config} {d l : Nat} {s : State} (hd : d ≤ s.outLen)
    (hflag : (backrefCopy d l (beginCopy d (noteMatch (tokenBytes (.copy d l)) d l s))).2 = false) :
    decodeToken cfg (.copy d l) s =
      tagAdvance (backrefCopy d l (beginCopy d (noteMatch (tokenBytes (.copy d l)) d l s))).1 := by
  rw [tokenBytes] at hflag ⊢
  simp only [decodeToken, decMatch, decBackref, noteMatch_outLen, if_neg (Nat.not_lt.2 hd), endCopy, hflag]

/-- A token inside the contract and the declared length is expanded, and its tag is used up (rules R158 to R162 and R234). -/
theorem State.Decoding.after_token {s : State} {n : Nat} {t : Token} {todo out : List Byte}
    (h : s.Decoding n (tokenBytes t ++ todo) out) (ht : t.inContract out.length = true) (hn : out.length + t.size ≤ n)
    (cfg : Config) :
    (decodeToken cfg t s).Decoding n todo (expandToken out t) ∧ (decodeToken cfg t s).hdr = shiftHdr s.hdr ∧
      (decodeToken cfg t s).rem = s.rem - 1 := by
  have htodo : s.input.drop (s.pos + (tokenBytes t).length) = todo := by
    rw [← List.drop_drop, h.todo, List.drop_left]
  cases t with
  | lit v =>
    have hout := h.output.append v
    exact ⟨⟨⟨h.running.noReset, h.running.busy, h.running.phase⟩, h.declared, htodo, ⟨hout.length, hout.byte⟩⟩, rfl, rfl⟩
  | copy d l =>
    simp only [Token.inContract, decide_eq_true_eq] at ht
    have hout : (beginCopy d (noteMatch (tokenBytes (.copy d l)) d l s)).OutputIs out := ⟨h.output.length, h.output.byte⟩
    obtain ⟨hcopy, hflag⟩ := hout.after_backrefCopy (d := d) (l := l) (by
      rw [beginCopy_dlen, noteMatch_dlen, h.declared]; exact hn)
    rw [decodeToken_copy (by rw [h.output.length]; omega) hflag, backrefCopy_frame]
    exact ⟨⟨⟨h.running.noReset, h.running.busy, h.running.phase⟩, h.declared, htodo, ⟨hcopy.length, hcopy.byte⟩⟩, rfl, rfl⟩

theorem State.Decoding.step_token {s : State} {n : Nat} {t : Token} {todo out : List Byte}
    (h : s.Decoding n (tokenBytes t ++ todo) out) (ht : t.encodable = true) (hn : out.length < n) (hr : s.rem ≠ 0)
    (htag : tagOf s.hdr = tokenTag t) : step s = .next (decodeToken Config.here t s) := by
  have hlt : s.outLen < s.dlen.toNat := by rw [h.output.length, h.declared]; exact hn
  have hne : tokenInstr t ≠ .sizeShort 0 := fun e => by simpa [e, placeOf] using placeOf_tokenInstr t
  have hf : fetch (.token (tokenTag t)) s = .exec (tokenInstr t) s :=
    fetch_element h.todo (tokenInstr_wf ht) (placeOf_tokenInstr t) fun e => absurd e hne
  simp only [h.running.step_dec, selectDec, if_pos hlt, loopPlace, if_neg hr, htag, hf, Action.outcome,
    exec_tokenInstr_dec h.running.phase ht]

/-! ### Groups and the frame -/

/-- The tokens of a group, its header having been loaded, are expanded one by one (rules R157 to R162). -/
theorem State.Decoding.reads_group {g : List Token} {s : State} {n m : Nat} {todo out : List Byte}
    (h : s.Decoding n ((g.map tokenBytes).flatten ++ todo) out) (hw : walkTokens g out.length = some m) (hm : m ≤ n)
    (hhdr : s.hdr = groupBits 0 g) (hlen : g.length ≤ 8) (hr : g.length ≤ s.rem.toNat) :
    ∃ t, Reaches s t ∧ t.Decoding n todo (g.foldl expandToken out) ∧ t.rem.toNat = s.rem.toNat - g.length := by
  induction g generalizing s out with
  | nil => exact ⟨s, .refl s, h, rfl⟩
  | cons tok g ih =>
    rw [List.length_cons] at hlen hr
    rw [List.map_cons, List.flatten_cons, List.append_assoc] at h
    obtain ⟨hin, hw⟩ := walkTokens_cons.1 hw
    have hpos := size_pos_of_inContract hin
    have hle := walkTokens_length hw
    have hne : s.rem ≠ 0 := fun e => by simp [e] at hr
    have hstep := h.step_token (encodable_of_inContract hin) (by omega) hne (hhdr ▸ tagOf_groupBits tok g)
    obtain ⟨hd, hhdr', hrem⟩ := h.after_token hin (by omega) Config.here
    rw [hhdr, shiftHdr_groupBits (by omega)] at hhdr'
    have hrem' : (decodeToken Config.here tok s).rem.toNat = s.rem.toNat - 1 := by
      rw [hrem, BitVec.toNat_sub_of_le (by rw [BitVec.le_def]; exact Nat.one_le_iff_ne_zero.2 (by omega))]
      rfl
    obtain ⟨t, hreach, ht, hrt⟩ := ih hd (by rw [expandToken_length]; exact hw) hhdr' (by omega) (by omega)
    exact ⟨t, .head hstep hreach, ht, by rw [hrt, hrem', List.length_cons]; omega⟩

/-- A group is read from its header on (rules R77 and R156). -/
theorem State.Decoding.reads_framed_group {g : List Token} {s : State} {n m : Nat} {todo out : List Byte}
    (h : s.Decoding n (groupBytes g ++ todo) out) (hw : walkTokens g out.length = some m) (hm : m ≤ n)
    (hlt : out.length < n) (hlen : g.length ≤ 8) (hr : s.rem = 0) :
    ∃ t, Reaches s t ∧ t.Decoding n todo (g.foldl expandToken out) ∧ t.rem.toNat = 8 - g.length := by
  obtain ⟨hstep, hd⟩ := State.Decoding.step_header (todo := (g.map tokenBytes).flatten ++ todo) h hlt hr
  obtain ⟨t, hreach, ht⟩ := hd.reads_group hw hm rfl hlen hlen
  exact ⟨t, .head hstep hreach, ht⟩

theorem foldl_expandToken_length {ts : List Token} {out : List Byte} {n : Nat}
    (h : walkTokens ts out.length = some n) : (ts.foldl expandToken out).length = n := by
  induction ts generalizing out with
  | nil => exact Option.some.inj h
  | cons t ts ih => exact ih (by rw [expandToken_length]; exact (walkTokens_cons.1 h).2)

/-- DECOMPRESS from a group boundary on: the framed tokens are expanded, and the job finishes (rules R155, R163 and R234). -/
theorem State.Decoding.finishes {ts : List Token} {s : State} {n : Nat} {extra out : List Byte}
    (h : s.Decoding n (frame ts ++ extra) out) (hw : walkTokens ts out.length = some n) (hr : s.rem = 0) :
    FinishesWith s (ts.foldl expandToken out) := by
  by_cases hts : ts = []
  · subst hts
    exact (Reaches.refl s).finishesWith (h.step_done (Option.some.inj hw)) h.output
  have hlt : out.length < n :=
    Nat.lt_of_le_of_ne (walkTokens_length hw ▸ Nat.le_add_right _ _) fun e => hts (walkTokens_eq_nil (e ▸ hw))
  by_cases hlast : ts.length ≤ 8
  · rw [frame_of_length_le hlast] at h
    obtain ⟨t, hreach, ht, -⟩ := h.reads_framed_group hw (Nat.le_refl n) hlt hlast hr
    exact hreach.finishesWith (ht.step_done (foldl_expandToken_length hw)) ht.output
  · have hsplit : ts.take 8 ++ ts.drop 8 = ts := List.take_append_drop 8 ts
    have hg : (ts.take 8).length = 8 := List.length_take_of_le (by omega)
    have hrest : ts.drop 8 ≠ [] := fun e => by rw [List.drop_eq_nil_iff] at e; omega
    rw [← hsplit, frame_append hg hrest, List.append_assoc] at h
    obtain ⟨m, hwg, hwr⟩ := walkTokens_append.1 (hsplit ▸ hw)
    have hm : m ≤ n := walkTokens_length hwr ▸ Nat.le_add_right _ _
    obtain ⟨t, hreach, ht, hrem⟩ := h.reads_framed_group hwg hm hlt (Nat.le_of_eq hg) hr
    rw [← foldl_expandToken_length hwg] at hwr
    obtain ⟨v, hrun, hv⟩ := ht.finishes hwr (BitVec.eq_of_toNat_eq (by rw [hrem, hg]; rfl))
    rw [← List.foldl_append, hsplit] at hv
    exact ⟨v, hreach.runsTo hrun, hv⟩
termination_by ts.length
decreasing_by rw [List.length_drop]; omega

/-! ### Whole jobs -/

/-- DECOMPRESS reads the header of a framed stream and goes on to the parse of its declared length (rules R153 and R154). -/
theorem decompress_reads_header {s : State} {n : Nat} {rest : List Byte} (h : s.Ready .decompress)
    (ho : s.inOverlapsOut = false) (hmax : s.inLen ≤ Config.here.maxIn)
    (hin : s.input = encode .magic ++ encode (sizeInstr n) ++ rest) (h0 : n = 0 → rest.length < 4) :
    ∃ u, Reaches s u ∧ step u = .next (decSize Config.here (1 + (encode (sizeInstr n)).length) (BitVec.ofNat 32 n)
      { beginDecompress s with phase := .dec .size }) := by
  have hstart := h.step_start
  rw [jobStart_admitted ho hmax (by simp) (by simp)] at hstart
  have hmagic : (beginDecompress s).Running (.dec .magic) := ⟨h.2.2.2, rfl, rfl⟩
  have hsize : State.Running { beginDecompress s with phase := .dec .size } (.dec .size) := ⟨h.2.2.2, rfl, rfl⟩
  rw [List.append_assoc] at hin
  have hlen : 3 ≤ (encode (sizeInstr n) ++ rest).length := by
    have := three_le_encode_sizeInstr n
    rw [List.length_append]; omega
  have hdrop : s.input.drop 1 = encode (sizeInstr n) ++ rest := by rw [hin]; rfl
  exact ⟨_, .head hstart (.head (hmagic.step_decMagic hin hlen) (.refl _)), hsize.step_decSize hdrop h0⟩

/-- A declared length within MAX_OUT opens the token loop right after the header (rule R154). -/
theorem State.Running.decSize_decoding {s : State} (h : s.Running (.dec .size)) (ho : s.OutputIs []) {d : BitVec 32}
    {cfg : Config} (hdrLen : Nat) (hd : d.toNat ≤ cfg.maxOut) :
    (decSize cfg hdrLen d s).Decoding d.toNat (s.input.drop hdrLen) [] ∧ (decSize cfg hdrLen d s).rem = 0 := by
  rw [decSize, if_neg (Nat.not_lt.2 hd)]
  exact ⟨⟨⟨h.noReset, h.busy, rfl⟩, rfl, rfl, rfl, ho.byte⟩, rfl⟩

/-- Where the encoder declares 0, what follows its size header is too short to make it an escape (rule R75). -/
theorem frame_length_of_empty {ts : List Token} {extra : List Byte} (hw : walkTokens ts 0 = some 0)
    (hx : extra.length < 3) : (frame ts ++ extra).length < 4 := by
  rw [walkTokens_eq_nil hw, List.length_append, show (frame []).length = 1 from rfl]
  omega

section FramedStream

variable {s : State} {ts : List Token} {extra : List Byte} {n : Nat} (h : s.Ready .decompress)
  (ho : s.inOverlapsOut = false) (hw : walkTokens ts 0 = some n) (hn : n ≤ Config.maxDeclared)
  (hin : s.input = streamOf ts ++ extra) (hx : n = 0 → extra.length < 3)

include h ho

/-- An input longer than MAX_IN is rejected at the start (rule R281). -/
theorem decompress_rejects_input (hmax : Config.here.maxIn < s.inLen) :
    ∃ t, RunsTo s t ∧ t.status = .rejected ∧ t.errPayload = 1 := by
  have hstart := h.step_start
  rw [jobStart_inputTooLarge ho hmax] at hstart
  exact ⟨_, runsTo_of_step hstart rfl, rfl, rfl⟩

include hw hn hin hx

/-- DECOMPRESS of a framed stream reaches the parse of the length of its tokens. -/
theorem decompress_reads_length (hmax : s.inLen ≤ Config.here.maxIn) :
    ∃ u, Reaches s u ∧ step u = .next (decSize Config.here (1 + (encode (sizeInstr n)).length) (BitVec.ofNat 32 n)
      { beginDecompress s with phase := .dec .size }) ∧ (BitVec.ofNat 32 n).toNat = n ∧
      s.input.drop (1 + (encode (sizeInstr n)).length) = frame ts ++ extra := by
  have hn' : n = tokensLength ts := by simpa using walkTokens_length hw
  have hin' : s.input = encode .magic ++ encode (sizeInstr n) ++ (frame ts ++ extra) := by
    rw [hin, streamOf, ← hn', List.append_assoc]
  obtain ⟨u, hu, hstep⟩ := decompress_reads_header h ho hmax hin' fun e => frame_length_of_empty (e ▸ hw) (hx e)
  refine ⟨u, hu, hstep, ?_, ?_⟩
  · rw [BitVec.toNat_ofNat]
    exact Nat.mod_eq_of_lt (Nat.lt_succ_of_le hn)
  · rw [hin', List.drop_left' (by rw [List.length_append]; rfl)]

/-- A framed stream that declares more than MAX_OUT is rejected (rule R154). -/
theorem decompress_rejects_output (hmax : s.inLen ≤ Config.here.maxIn) (hout : Config.here.maxOut < n) :
    ∃ t, RunsTo s t ∧ t.status = .rejected ∧ t.errPayload = 3 := by
  obtain ⟨u, hu, hstep, hval, -⟩ := decompress_reads_length h ho hw hn hin hx hmax
  rw [decSize, if_pos (by rw [hval]; exact hout)] at hstep
  exact ⟨_, hu.runsTo (runsTo_of_step hstep rfl), rfl, rfl⟩

/-- DECOMPRESS of a framed stream finishes with the expansion of its tokens (rule R234). -/
theorem decompress_finishes (hmax : s.inLen ≤ Config.here.maxIn) (hout : n ≤ Config.here.maxOut) :
    FinishesWith s (expand ts) := by
  obtain ⟨u, hu, hstep, hval, hdrop⟩ := decompress_reads_length h ho hw hn hin hx hmax
  have hsize : State.Running { beginDecompress s with phase := .dec .size } (.dec .size) := ⟨h.2.2.2, rfl, rfl⟩
  have hempty : State.OutputIs { beginDecompress s with phase := .dec .size } [] := ⟨rfl, fun x => rfl⟩
  obtain ⟨hdec, hrem⟩ := hsize.decSize_decoding hempty (d := BitVec.ofNat 32 n) (cfg := Config.here)
    (1 + (encode (sizeInstr n)).length) (by rw [hval]; exact hout)
  rw [hval, show State.input { beginDecompress s with phase := .dec .size } = s.input from rfl, hdrop] at hdec
  obtain ⟨v, hrun, hv⟩ := hdec.finishes hw hrem
  exact ⟨v, hu.runsTo (hrun.head hstep), hv⟩

end FramedStream

/-- Settles O56: the stream that COMPRESS hands over frames tokens that expand to the input, and DECOMPRESS expands them. -/
theorem compressDecompressRoundTrip : Obligations.CompressDecompressRoundTrip := by
  intro s hs ho hin hmax
  obtain ⟨ts, -, hw, hexp, t, hrun, hok, -, hres⟩ := compress_finishes hs ho hin hmax
  refine ⟨t, hrun, hok, fun u hu huo huin => ?_⟩
  have hstream : u.input = streamOf ts ++ [] := by rw [huin, hres, List.append_nil]
  have hempty : s.inLen = 0 → ([] : List Byte).length < 3 := fun _ => by simp
  split
  · rename_i hbounds
    rw [← hexp]
    exact decompress_finishes hu huo hw hmax hstream hempty hbounds.1 hbounds.2
  · rename_i hbounds
    by_cases hi : u.inLen ≤ Config.here.maxIn
    · obtain ⟨v, hv, hrej, -⟩ := decompress_rejects_output hu huo hw hmax hstream hempty hi (by omega)
      exact ⟨v, hv, hrej⟩
    · obtain ⟨v, hv, hrej, -⟩ := decompress_rejects_input hu huo (by omega)
      exact ⟨v, hv, hrej⟩

end Sys2Proof.Machine
end

section
/-! SUPPORT. What a start and a step of a running job leave unchanged: the host's fields, `HT` and the registers of the other
jobs (rules R23, R36 and R41); and what the port shows (rules R22 and R291). -/

namespace Sys2Proof.Machine

/-! ### The frames of the running jobs -/

/-- What follows a copy goes on to the next tag or ends the job (rules R161 and R162). -/
theorem endCopy_cases (o : Overrun) (r : State × Bool) :
    endCopy o r = tagAdvance r.1 ∨ endCopy o r = raise .invalidIndex none r.1 := by
  simp only [endCopy]
  split
  · exact .inr rfl
  · exact .inl rfl
  · exact .inl rfl

/-- A match token in DECOMPRESS copies some bytes, none where the check fails, and then goes on to the next tag or ends the
job (rules R159 to R162). -/
theorem decMatch_cases (cfg : Config) (i : Instr) (d l : Nat) (s : State) :
    ∃ n c u, c = (backrefCopy d n (beginCopy d (noteMatch (encode i) d l s))).1 ∧
      u = { s with pos := s.pos + (encode i).length, outMem := c.outMem, outLen := c.outLen, temps := u.temps } ∧
      (decMatch cfg i d l s = tagAdvance u ∨ decMatch cfg i d l s = raise .invalidIndex none u) := by
  by_cases hd : s.outLen < d
  · exact ⟨0, _, noteMatch (encode i) d l s, rfl, rfl, .inr (if_pos hd)⟩
  · refine ⟨l, _, _, rfl, backrefCopy_frame d l (beginCopy d (noteMatch (encode i) d l s)), ?_⟩
    rw [decMatch, decBackref, noteMatch_outLen, if_neg hd]
    exact endCopy_cases _ _

/-- A step of DECOMPRESS writes the result, the output and the decoder's registers, and nothing else. -/
theorem DecNext.frame {s t : State} {p : DecPoint} (h : DecNext s p t) :
    t = { s with
      busy := t.busy, status := t.status, errPayload := t.errPayload, payloadGiven := t.payloadGiven
      outMem := t.outMem, outLenReg := t.outLenReg, pos := t.pos, outLen := t.outLen, dlen := t.dlen, hdr := t.hdr
      rem := t.rem, temps := t.temps, phase := t.phase, draws := t.draws } := by
  cases h with
  | magic => rw [decMagic]; split <;> rfl
  | short n | escape n => rw [decSize]; split <;> rfl
  | token i d l =>
    obtain ⟨n, c, u, -, hu, h | h⟩ := decMatch_cases Config.here i d l s <;> rw [h, hu] <;> rfl
  | _ => rfl

/-- A step of an encoder job writes the result, the output, the framer's and the finder's registers, and nothing else. -/
theorem EncNext.frame {s t : State} {j : EncJob} {p : EncPoint} (h : EncNext s j p t) :
    t = { s with
      busy := t.busy, status := t.status, errPayload := t.errPayload, payloadGiven := t.payloadGiven
      outMem := t.outMem, outLenReg := t.outLenReg, cur := t.cur, outLen := t.outLen, acc := t.acc, cnt := t.cnt
      ph := t.ph, temps := t.temps, ht := t.ht, phase := t.phase, tokIdx := t.tokIdx, draws := t.draws } := by
  cases h with
  | magic | size => rw [encHeader_frame]
  | token i s' tok h =>
    rw [nextToken_frame h]
    cases j with
    | compress => rw [encToken, finderEmit_frame]
    | tokens => rw [encToken, emit_frame]
  | _ => rfl

/-! ### What a start leaves unchanged -/

/-- A start writes none of the host's fields (rules R23 and R280). -/
theorem jobStart_keeps_host (cfg : Config) (c : Command) (s : State) :
    (jobStart cfg c s).cmd = s.cmd ∧ (jobStart cfg c s).inMem = s.inMem ∧ (jobStart cfg c s).inLen = s.inLen ∧
      (jobStart cfg c s).inOverlapsOut = s.inOverlapsOut ∧ (jobStart cfg c s).tokens = s.tokens := by
  rw [jobStart]
  split
  · exact ⟨rfl, rfl, rfl, rfl, rfl⟩
  · cases c <;> exact ⟨rfl, rfl, rfl, rfl, rfl⟩

/-- A start leaves `HT` alone, but for the start of COMPRESS, which empties it (rules R36 and R280). -/
theorem jobStart_ht (cfg : Config) (c : Command) (s : State) :
    (jobStart cfg c s).ht = s.ht ∨ (c = .compress ∧ (jobStart cfg c s).ht = []) := by
  rw [jobStart]
  split
  · exact .inl rfl
  · cases c with
    | compress => exact .inr ⟨rfl, rfl⟩
    | decompress => exact .inl rfl
    | encodeTokens => exact .inl rfl

/-- Only a token of COMPRESS changes `HT` in an encoder job (rules R36, R197 and R232). -/
theorem EncNext.ht_eq {s t : State} {j : EncJob} {p : EncPoint} (h : EncNext s j p t) :
    t.ht = s.ht ∨ (j = .compress ∧ p = .loop) := by
  cases h with
  | magic | size => rw [encHeader_frame]; exact .inl rfl
  | init | done => exact .inl rfl
  | token i s' tok hn =>
    cases j with
    | compress => exact .inr ⟨rfl, rfl⟩
    | tokens => rw [encToken, emit_frame, nextToken_frame hn]; exact .inl rfl

/-- Settles O46: neither a start nor a step of a running job writes a field of the host. -/
theorem hostFieldsAreNotWritten : Obligations.HostFieldsAreNotWritten := by
  intro s t hreset hstep
  cases step_next hstep with
  | reset h => rw [hreset] at h; contradiction
  | start c => exact jobStart_keeps_host Config.here c s
  | unknown => exact ⟨rfl, rfl, rfl, rfl, rfl⟩
  | dec p _ _ _ _ hn => rw [hn.frame]; exact ⟨rfl, rfl, rfl, rfl, rfl⟩
  | enc j p _ _ _ _ hn => rw [hn.frame]; exact ⟨rfl, rfl, rfl, rfl, rfl⟩

/-- Settles O48: a step that changes `HT` is the start of COMPRESS or a token of it. -/
theorem onlyCompressTouchesTheTable : Obligations.OnlyCompressTouchesTheTable := by
  intro s t hreset hstep hne
  cases step_next hstep with
  | reset h => rw [hreset] at h; contradiction
  | start c _ hb _ hc =>
    obtain h | ⟨rfl, h⟩ := jobStart_ht Config.here c s
    · exact absurd h hne
    · exact .inl ⟨hb, hc, h⟩
  | unknown => exact absurd rfl hne
  | dec p _ _ _ _ hn => exact absurd (congrArg State.ht hn.frame) hne
  | enc j p _ _ hb hp hn =>
    obtain h | ⟨rfl, rfl⟩ := hn.ht_eq
    · exact absurd h hne
    · exact .inr ⟨hb, hp⟩

/-! ### The start and the port -/

/-- Settles O9: of an idle block that is asked for a start, `select` answers the command. -/
theorem stepRunsTheStartedCommand : Obligations.StepRunsTheStartedCommand := by
  intro s c ⟨hcmd, hbusy, hstart, hreset⟩
  simp [step_eq, select, selectIdle, selectStart, hcmd, hbusy, hstart, hreset, Action.outcome]

/-- Settles O41: the port refuses every access while a job runs, and after OK a byte of `OUT` is a byte of the result. -/
theorem hostSeesResultsOnlyWhenIdle : Obligations.HostSeesResultsOnlyWhenIdle := by
  refine ⟨fun s bs b ts a hb => ?_, fun s a hb hok ha => ⟨?_, ?_⟩⟩
  · simp [hostSetIn, hostSetTokens, hostReadOut, hostReadStatus, hostReadPayload, hostReadOutLen, observe, hb]
  · simp [hostReadOut, hb, hok, ha]
  · rw [State.result, memory_readBytes_getElem _ _ _ _ ha, Nat.zero_add, State.outByte]

end Sys2Proof.Machine
end

section
/-! SUPPORT. The invariant of the block: the states in which no job runs, a start, and each step of a running job. -/

namespace Sys2Proof.Machine

/-! ### The bounds at a point of a job -/

theorem pointOk_of_phase {cfg : Config} {s : State} {p : Phase} (hp : s.phase = p) (h : PointOk cfg { s with phase := p }) :
    PointOk cfg s := by
  subst hp
  exact h

section
variable {cfg : Config} {s : State} (h : s.Inv cfg)
include h

theorem State.Inv.pointOk {p : Phase} (hp : s.phase = p) : PointOk cfg { s with phase := p } := by
  subst hp
  exact h.point

theorem State.Inv.busy {p : Phase} (hp : s.phase = p) (hne : p ≠ .idle) : s.busy = true :=
  h.busyIff.2 (hp ▸ hne)

theorem State.Inv.jobOk {j : EncJob} {p : EncPoint} (hp : s.phase = .enc j p) : JobOk cfg s j := by
  have hpt := h.pointOk hp
  cases p with
  | magic | size | init | loop => exact hpt.1

theorem State.Inv.pos_le {p : DecPoint} (hp : s.phase = .dec p) : s.pos ≤ s.inLen := by
  have hpt := h.pointOk hp
  cases p with
  | magic | size => exact hpt.1 ▸ Nat.zero_le _
  | loop => exact hpt.2.1

end

/-- Settles O49: the positions of `IN` are below MAX_IN, which leaves one value of the width unused. -/
theorem positionsFitTheWidth : Obligations.PositionsFitTheWidth := by
  intro cfg s hcfg h
  rw [Config.Adequate] at hcfg
  refine ⟨fun j p hp hj => ?_, fun p hp => ?_⟩
  · subst hj
    have hin := (h.admitted (h.busy hp nofun)).2
    obtain ⟨hcur, -, hht⟩ := h.jobOk hp
    refine ⟨by omega, fun c hc => ?_⟩
    have := (hht c hc).1
    omega
  · have hin := (h.admitted (h.busy hp nofun)).2
    have := h.pos_le hp
    omega

/-! ### No job runs -/

/-- Settles O44. -/
theorem powerOnMeetsTheInvariant : Obligations.PowerOnMeetsTheInvariant where
  inWf := rfl
  outWf := rfl
  htWf := rfl
  busyIff := by decide
  noStart := nofun
  admitted := nofun
  outBound := nofun
  given := nofun
  point := trivial

theorem platformReset_inv (cfg : Config) (s : State) : (platformReset s).Inv cfg where
  inWf := memory_wf_canon _ _
  outWf := memory_wf_canon _ _
  htWf := table_wf_canon _
  busyIff := ⟨nofun, fun h => absurd rfl h⟩
  noStart := nofun
  admitted := nofun
  outBound := nofun
  given := nofun
  point := trivial

/-- The end of a job keeps what the buffers and the table must be; a payload is given only where rule R298 lets it be
observed. -/
theorem jobEnd_inv {cfg : Config} {s : State} {st : Status} {payload : Option Nat} (hin : Memory.wf s.inMem = true)
    (hout : Memory.wf s.outMem = true) (hht : HashTable.wf s.ht = true)
    (hgiven : payload.isSome = true → st = .invalidIndex ∨ st = .rejected) : (jobEnd st payload s).Inv cfg where
  inWf := hin
  outWf := hout
  htWf := hht
  busyIff := ⟨nofun, fun h => absurd rfl h⟩
  noStart := nofun
  admitted := nofun
  outBound := nofun
  given := fun h => ⟨rfl, hgiven h⟩
  point := trivial

/-! ### A start -/

theorem State.Inv.idle {cfg : Config} {s : State} (h : s.Inv cfg) (hb : s.busy = false) : s.phase = .idle := by
  by_contra hp
  exact Bool.false_ne_true (hb ▸ h.busyIff.2 hp)

theorem rejectAtStart_inv {cfg : Config} {s : State} (h : s.Inv cfg) (hb : s.busy = false) (r : Reason) :
    (rejectAtStart r s).Inv cfg where
  inWf := h.inWf
  outWf := h.outWf
  htWf := h.htWf
  busyIff := ⟨nofun, fun hp => absurd (h.idle hb) hp⟩
  noStart := nofun
  admitted := nofun
  outBound := nofun
  given := fun _ => ⟨rfl, .inr rfl⟩
  point := by rw [PointOk, rejectAtStart_phase, h.idle hb]; trivial

/-- What ADMIT has checked when it lets a start in (rule R281). -/
theorem admission_none {cfg : Config} {c : Command} {s : State} (h : admission cfg c s = none) :
    s.inOverlapsOut = false ∧ s.inLen ≤ cfg.maxIn ∧ (c = .compress → s.inLen ≤ Config.maxDeclared) ∧
      (c = .encodeTokens → tokensOk cfg.maxIn s.tokens = true) := by
  simp only [admission] at h
  split at h
  · contradiction
  split at h
  · contradiction
  split at h
  · contradiction
  rename_i hoverlap hinput htokens
  have hin : s.inLen ≤ cfg.maxIn ∧ (c = .compress → s.inLen ≤ Config.maxDeclared) := by
    simpa [inputOk, imp_iff_not_or] using hinput
  exact ⟨by simpa using hoverlap, hin.1, hin.2, by simpa using htokens⟩

/-- The first point of an admitted job meets the invariant (rules R41 and R280). -/
theorem begin_inv {cfg : Config} {c : Command} {s : State} (h : s.Inv cfg) (hadm : admission cfg c s = none) :
    (begin c s).Inv cfg := by
  obtain ⟨ho, hin, hc, ht⟩ := admission_none hadm
  constructor
  case inWf => cases c <;> exact h.inWf
  case outWf => cases c <;> rfl
  case htWf =>
    cases c with
    | compress => rfl
    | decompress | encodeTokens => exact h.htWf
  case busyIff => cases c <;> exact ⟨nofun, fun _ => rfl⟩
  case noStart => cases c <;> exact fun _ => rfl
  case admitted => cases c <;> exact fun _ => ⟨ho, hin⟩
  case outBound => cases c <;> exact fun _ _ hmem => absurd hmem List.not_mem_nil
  case given => cases c <;> exact nofun
  case point =>
    cases c with
    | compress => exact ⟨⟨Nat.zero_le _, hc rfl, fun _ hmem => absurd hmem List.not_mem_nil⟩, rfl⟩
    | decompress => exact ⟨rfl, rfl⟩
    | encodeTokens => exact ⟨⟨Nat.zero_le _, ht rfl⟩, rfl⟩

/-- A start keeps the invariant, admitted or not (rules R280 and R281). -/
theorem jobStart_inv {cfg : Config} {s : State} (h : s.Inv cfg) (hb : s.busy = false) (c : Command) :
    (jobStart cfg c s).Inv cfg := by
  rw [jobStart]
  split
  · exact rejectAtStart_inv h hb _
  · rename_i hadm
    exact begin_inv h hadm

/-! ### DECOMPRESS -/

/-- A write below a bound keeps the memory below it. -/
theorem memory_write_below {m : Memory} {a n : Nat} {v : Byte} (hm : ∀ c ∈ m, c.1 < n) (ha : a < n) :
    ∀ c ∈ Memory.write m a v, c.1 < n := by
  intro c hc
  rcases memory_mem_write _ _ _ _ hc with hc | rfl
  · exact hm c hc
  · exact ha

/-- The size header keeps the invariant, the token stream starting within the input (rule R154). -/
theorem decSize_inv {cfg : Config} {s : State} (h : s.Inv cfg) (hp : s.phase = .dec .size) {hdrLen : Nat}
    (hlo : 4 ≤ hdrLen) (hhi : hdrLen ≤ s.inLen) (d : BitVec 32) : (decSize cfg hdrLen d s).Inv cfg := by
  have hb := h.busy hp nofun
  have hout : s.outLen = 0 := (h.pointOk hp).2.1
  rw [decSize]
  split
  · exact jobEnd_inv h.inWf h.outWf h.htWf fun _ => .inr rfl
  · rename_i hmax
    exact { h with
      busyIff := ⟨nofun, fun _ => hb⟩
      outBound := fun _ => hout ▸ h.outBound hb
      point := ⟨hlo, hhi, Nat.zero_le _, Nat.le_of_not_lt hmax, Nat.zero_le _⟩ }

/-- A token read within the input, whose output stays within the declared length, keeps the invariant (rules R158 to R162). -/
theorem tagAdvance_inv {cfg : Config} {s : State} (h : s.Inv cfg) (hp : s.phase = .dec .loop) (hr : s.rem ≠ 0)
    {pos n : Nat} {m : Memory} (tmp : Temps) (hpos : s.pos ≤ pos) (hin : pos ≤ s.inLen) (hwf : Memory.wf m = true)
    (hbound : ∀ c ∈ m, c.1 < n) (hn : n ≤ s.dlen.toNat) :
    (tagAdvance { s with pos := pos, outMem := m, outLen := n, temps := tmp }).Inv cfg := by
  obtain ⟨hlo, -, -, hmax, hrem⟩ : PointOk cfg { s with phase := .dec .loop } := h.pointOk hp
  have hrem' : (s.rem - 1).toNat ≤ 8 := by bv_omega
  exact { h with
    outWf := hwf
    outBound := fun _ => hbound
    point := pointOk_of_phase hp ⟨Nat.le_trans hlo hpos, hin, hn, hmax, hrem'⟩ }

/-- Each step of DECOMPRESS keeps the invariant (rules R153 to R163). -/
theorem DecNext.inv {s t : State} {p : DecPoint} (h : s.Inv Config.here) (hp : s.phase = .dec p)
    (hn : DecNext s p t) : t.Inv Config.here := by
  have hb := h.busy hp nofun
  have hpt := h.pointOk hp
  cases hn with
  | noMagic | badMagic | noSize | done => exact jobEnd_inv h.inWf h.outWf h.htWf nofun
  | noHeader | noLit | noMatch => exact jobEnd_inv h.inWf h.outWf h.htWf fun _ => .inl rfl
  | magic =>
    rw [decMagic]
    split
    · exact jobEnd_inv h.inWf h.outWf h.htWf nofun
    · rename_i hlen
      exact { h with busyIff := ⟨nofun, fun _ => hb⟩, point := ⟨hpt.1, hpt.2, Nat.le_of_not_lt hlen⟩ }
  | short n hlen => exact decSize_inv h hp (Nat.le_refl 4) hlen _
  | escape n hlen => exact decSize_inv h hp (by decide) hlen n
  | header tags hlt hr hpos =>
    obtain ⟨hlo, -, hout, hmax, -⟩ := hpt
    exact { h with point := pointOk_of_phase hp ⟨Nat.le_succ_of_le hlo, hpos, hout, hmax, Nat.le_refl 8⟩ }
  | lit v hlt hr hpos =>
    refine tagAdvance_inv h hp hr s.temps (Nat.le_succ _) hpos (memory_wf_write _ _ _ h.outWf) ?_ hlt
    exact memory_write_below (fun c hc => Nat.lt_succ_of_lt (h.outBound hb c hc)) (Nat.lt_succ_self _)
  | token i d l hlt hr hi hd hl hpos =>
    obtain ⟨n, c, u, rfl, hu, hends⟩ := decMatch_cases Config.here i d l s
    obtain ⟨hwf, hbound⟩ := backrefCopy_wf d n (beginCopy d (noteMatch (encode i) d l s)) h.outWf (h.outBound hb)
    obtain ⟨hlen, -⟩ := backrefCopy_outLen d n (beginCopy d (noteMatch (encode i) d l s)) (Nat.le_of_lt hlt)
    rcases hends with e | e <;> rw [e, hu]
    · refine tagAdvance_inv h hp hr u.temps (Nat.le_add_right _ _) hpos hwf hbound ?_
      rw [hlen]
      exact Nat.min_le_right _ _
    · exact jobEnd_inv h.inWf hwf h.htWf nofun

/-! ### The encoder jobs -/

theorem encode_sizeInstr_length (n : Nat) : (encode (sizeInstr n)).length = 3 ∨ (encode (sizeInstr n)).length = 7 := by
  rw [sizeInstr]
  split
  · exact .inl rfl
  · exact .inr rfl

/-- A header element keeps the output in canonical form and below `out_len`. -/
theorem encHeader_inv {cfg : Config} {s : State} {j : EncJob} {p next : EncPoint} (h : s.Inv cfg)
    (hp : s.phase = .enc j p) {i : Instr} (hpoint : PointOk cfg (encHeader j i next s)) :
    (encHeader j i next s).Inv cfg := by
  have hb := h.busy hp nofun
  rw [encHeader, appendBytes_eq] at hpoint ⊢
  refine { h with outWf := ?_, busyIff := ⟨nofun, fun _ => hb⟩, outBound := fun _ c hc => ?_, point := hpoint }
  · exact memory_wf_writeBytes _ _ _ h.outWf
  · rcases memory_mem_writeBytes _ _ _ _ hc with hc | hc
    · exact Nat.lt_add_right _ (h.outBound hb c hc)
    · exact hc

/-- EMIT keeps the invariant. -/
theorem emit_inv {cfg : Config} {s : State} {j : EncJob} (h : s.Inv cfg) (hp : s.phase = .enc j .loop) (i : Instr) :
    (emit i s).Inv cfg := by
  have hb := h.busy hp nofun
  obtain ⟨hjob, hph, hlt, hcnt, hacc⟩ : PointOk cfg { s with phase := .enc j .loop } := h.pointOk hp
  obtain ⟨hwf, hbound, hpoint⟩ := emit_bounds i s h.outWf (h.outBound hb) hph hlt hcnt hacc
  rw [emit_frame]
  exact { h with outWf := hwf, outBound := fun _ => hbound, point := pointOk_of_phase hp ⟨hjob, hpoint⟩ }

/-- At the head of the token loop, the table and the job's own cursors are free within what `JobOk` asks of them. -/
theorem encLoop_inv {cfg : Config} {s u : State} {j : EncJob} (h : s.Inv cfg) (hp : s.phase = .enc j .loop)
    (hu : u = { s with cur := u.cur, ht := u.ht, temps := u.temps, tokIdx := u.tokIdx })
    (hht : HashTable.wf u.ht = true) (hjob : JobOk cfg u j) : u.Inv cfg := by
  have hframer := (h.pointOk hp).2
  rw [hu] at hjob ⊢
  exact { h with htWf := hht, point := pointOk_of_phase hp ⟨hjob, hframer⟩ }

/-- The next token of COMPRESS stands for the bytes at `cur`. -/
theorem nextToken_compress_tokenAt {h4 : Hash4} {s s' : State} {i : Instr} {tok : Token}
    (hht : ∀ c ∈ s.ht, c.2 < s.cur) (h : nextToken h4 .compress s = some (i, s')) (hi : instrToken i = some tok) :
    s.TokenAt tok := by
  rw [nextToken] at h
  split at h
  · rename_i hlt
    obtain ⟨tok', htok, hat⟩ := search_tokenAt (h4 := h4) hht hlt
    obtain rfl : (search h4 s).1 = i := congrArg Prod.fst (Option.some.inj h)
    rw [htok, instrToken_tokenInstr (encodable_of_inContract hat.contract)] at hi
    exact Option.some.inj hi ▸ hat
  · contradiction

/-- A token of COMPRESS within the input keeps the invariant: the table gets positions that `cur` passes (rules R194 to
R197). -/
theorem finderEmit_inv {cfg : Config} {s : State} (h : s.Inv cfg) (hp : s.phase = .enc .compress .loop) (i : Instr)
    {len : Nat} (hin : s.cur + len ≤ s.inLen) : (finderEmit cfg.hash4 i len s).Inv cfg := by
  have he := emit_inv h hp i
  obtain ⟨-, hmax, hold⟩ := h.jobOk hp
  have hframe := emit_frame i s
  obtain ⟨hwf, hmem⟩ := registerSpan_mem cfg.hash4 len s.cur (emit i s) he.htWf
  refine encLoop_inv he (by rw [hframe]; exact hp) ?_ hwf ?_
  · rw [finderEmit, registerSpan_frame]
  · rw [finderEmit_frame]
    refine ⟨hin, hmax, fun c hc => ?_⟩
    rcases hmem c hc with hc | hc
    · rw [hframe] at hc
      obtain ⟨hlt, hwin, hhash⟩ := hold c hc
      exact ⟨Nat.lt_add_right _ hlt, hwin, hhash⟩
    · rwa [hframe] at hc

/-- Each step of an encoder job keeps the invariant (rules R221, R222 and R232). -/
theorem EncNext.inv {s t : State} {j : EncJob} {p : EncPoint} (h : s.Inv Config.here) (hp : s.phase = .enc j p)
    (hn : EncNext s j p t) : t.Inv Config.here := by
  have hb := h.busy hp nofun
  have hpt := h.pointOk hp
  have hjob := h.jobOk hp
  cases hn with
  | magic =>
    refine encHeader_inv h hp ?_
    rw [encHeader, appendBytes_eq]
    exact ⟨hjob, congrArg (· + 1) hpt.2⟩
  | size =>
    refine encHeader_inv h hp ?_
    rw [encHeader, appendBytes_eq]
    refine ⟨hjob, ?_⟩
    rw [show s.outLen = 1 from hpt.2]
    exact (encode_sizeInstr_length _).imp (congrArg (1 + ·)) (congrArg (1 + ·))
  | init =>
    have hlo : 4 ≤ s.outLen := by
      rcases hpt.2 with e | e <;> exact e ▸ by decide
    have hbound : ∀ c ∈ s.outMem, c.1 < s.outLen + 1 := fun c hc => Nat.lt_succ_of_lt (h.outBound hb c hc)
    refine { h with
      outWf := ?_, outBound := fun _ => ?_, busyIff := ⟨nofun, fun _ => hb⟩
      point := ⟨hjob, hlo, Nat.lt_succ_self _, Nat.zero_le 8, Nat.zero_lt_one⟩ }
    · exact memory_wf_write s.outMem s.outLen 0 h.outWf
    · exact memory_write_below (v := 0) hbound (Nat.lt_succ_self s.outLen)
  | token i s' tok hnext hi =>
    obtain ⟨tmp, rfl⟩ : ∃ tmp, s' = { s with temps := tmp } := ⟨_, nextToken_frame hnext⟩
    have hs' : State.Inv Config.here { s with temps := tmp } := encLoop_inv h hp rfl h.htWf hjob
    cases j with
    | compress =>
      have hat := nextToken_compress_tokenAt (fun c hc => (hjob.2.2 c hc).1) hnext hi
      exact finderEmit_inv hs' hp i hat.within
    | tokens =>
      obtain ⟨_, hget, -⟩ := Option.map_eq_some_iff.1 hnext
      have hlt : s.tokIdx < s.tokens.length := (List.getElem?_eq_some_iff.1 hget).1
      have he := emit_inv hs' hp i
      rw [encToken]
      refine encLoop_inv he (by rw [emit_frame]; exact hp) rfl he.htWf ?_
      rw [emit_frame]
      exact ⟨hlt, hjob.2⟩
  | done => exact jobEnd_inv h.inWf (memory_wf_write _ _ _ h.outWf) h.htWf nofun

/-- Settles O45: a reset and a start lead to states without a job or at its first point, and each point of a job has its
bounds from those before it. -/
theorem everyStepKeepsTheInvariant : Obligations.EveryStepKeepsTheInvariant := by
  intro s t h hstep
  cases step_next hstep with
  | reset => exact platformReset_inv _ s
  | start c _ hb => exact jobStart_inv h hb c
  | unknown _ _ hb => exact rejectAtStart_inv h hb _
  | dec p _ _ _ hp hn => exact hn.inv h hp
  | enc j p _ _ _ hp hn => exact hn.inv h hp

/-! ### The cursors -/

/-- EMIT only adds to the output. -/
theorem outLen_le_emit (i : Instr) (s : State) : s.outLen ≤ (emit i s).outLen := by
  by_cases hc : s.cnt = 8
  · rw [emit_full i s hc]
    exact Nat.le_add_right_of_le (Nat.le_succ _)
  · rw [emit_open i s hc]
    exact Nat.le_add_right _ _

/-- The size header is read where both positions are still 0 (rules R41 and R154). -/
theorem decSize_cursors {cfg : Config} {s : State} (h : s.Inv cfg) (hp : s.phase = .dec .size) (hdrLen : Nat)
    (d : BitVec 32) :
    s.pos ≤ (decSize cfg hdrLen d s).pos ∧ s.outLen ≤ (decSize cfg hdrLen d s).outLen := by
  obtain ⟨hpos, hout, -⟩ : s.pos = 0 ∧ s.outLen = 0 ∧ 4 ≤ s.inLen := h.pointOk hp
  rw [hpos, hout]
  exact ⟨Nat.zero_le _, Nat.zero_le _⟩

theorem DecNext.cursors {s t : State} {p : DecPoint} (h : s.Inv Config.here) (hp : s.phase = .dec p) (hn : DecNext s p t) :
    s.pos ≤ t.pos ∧ s.outLen ≤ t.outLen := by
  cases hn with
  | noMagic | badMagic | noSize | done => exact ⟨Nat.le_refl _, Nat.le_refl _⟩
  | magic => rw [decMagic]; split <;> exact ⟨Nat.le_refl _, Nat.le_refl _⟩
  | short | escape => exact decSize_cursors h hp _ _
  | noHeader | noLit | noMatch => exact ⟨Nat.le_add_right _ _, Nat.le_refl _⟩
  | header => exact ⟨Nat.le_succ _, Nat.le_refl _⟩
  | lit => exact ⟨Nat.le_succ _, Nat.le_succ _⟩
  | token i d l =>
    obtain ⟨n, c, u, rfl, hu, hends⟩ := decMatch_cases Config.here i d l s
    have hgrow := (backrefCopy_keeps d n (beginCopy d (noteMatch (encode i) d l s))).1
    rcases hends with e | e <;> rw [e, hu] <;> exact ⟨Nat.le_add_right _ _, hgrow⟩

theorem EncNext.cursors {s t : State} {j : EncJob} {p : EncPoint} (hn : EncNext s j p t) :
    s.cur ≤ t.cur ∧ s.outLen ≤ t.outLen := by
  cases hn with
  | magic | size => rw [encHeader, appendBytes_eq]; exact ⟨Nat.le_refl _, Nat.le_add_right _ _⟩
  | init => exact ⟨Nat.le_refl _, Nat.le_succ _⟩
  | done => exact ⟨Nat.le_refl _, Nat.le_refl _⟩
  | token i s' tok hnext =>
    obtain ⟨tmp, rfl⟩ : ∃ tmp, s' = { s with temps := tmp } := ⟨_, nextToken_frame hnext⟩
    have hgrow := outLen_le_emit i { s with temps := tmp }
    cases j with
    | compress => rw [encToken, finderEmit_frame]; exact ⟨Nat.le_add_right _ _, hgrow⟩
    | tokens => rw [encToken, emit_frame]; exact ⟨Nat.le_refl _, hgrow⟩

/-- Settles O47: each job moves its own cursor forwards and leaves the other job's cursor alone. -/
theorem cursorsNeverMoveBack : Obligations.CursorsNeverMoveBack := by
  intro s t h hb hreset hstep
  cases step_next hstep with
  | reset hr => rw [hreset] at hr; contradiction
  | start c _ hidle | unknown _ _ hidle => rw [hb] at hidle; contradiction
  | dec p _ _ _ hp hn => exact ⟨(congrArg State.cur hn.frame).ge, hn.cursors h hp⟩
  | enc j p _ _ _ hp hn => exact ⟨hn.cursors.1, (congrArg State.pos hn.frame).ge, hn.cursors.2⟩

end Sys2Proof.Machine
end

section
/-! SUPPORT. What a job can read (rules R21, R41 and R255): two blocks whose states agree on it make the same steps up to
what no job reads, and are observed alike when the job ends (rule R298). -/

namespace Sys2Proof.Machine

/-! ### What the running job cannot read -/

/-- The state without the result of an earlier job, the temporaries and the number of draws (rules R22, R33 and R38). -/
def State.withoutResult (s : State) : State :=
  { s with status := .ok, errPayload := 0, outLenReg := 0, temps := State.reset.temps, draws := 0 }

/-- What DECOMPRESS reads at a point: no register of an encoder, and `D` only once the header is parsed (rules R30 and R41). -/
def State.decView (p : DecPoint) (s : State) : State :=
  { s.withoutResult with
    cur := 0, acc := 0, cnt := 0, ph := 0, ht := [], tokIdx := 0, dlen := if p = .loop then s.dlen else 0 }

/-- What an encoder job reads at a point: no register of the decoder, `cur` and `HT` in COMPRESS only, and `ph` only once the
framer has its first placeholder (rules R29 and R41). -/
def State.encView (j : EncJob) (p : EncPoint) (s : State) : State :=
  { s.withoutResult with
    pos := 0, dlen := 0, hdr := 0, rem := 0
    cur := if j = .compress then s.cur else 0
    ht := if j = .compress then s.ht else []
    tokIdx := if j = .tokens then s.tokIdx else 0
    ph := if p = .loop then s.ph else 0 }

/-- What the block reads. While no job runs it is only whether a start or a reset is asked for. -/
def State.view (s : State) : State :=
  if s.busy then
    match s.phase with
    | .idle => s.withoutResult
    | .dec p => s.decView p
    | .enc j p => s.encView j p
  else { State.reset with startReq := s.startReq, resetReq := s.resetReq }

/-- What an outcome shows: what the block reads in the next state, and what the host observes. -/
def outcomeView : Host.Outcome State Fault Refusal → Option (State × Option Observation)
  | .next t => some (t.view, observe t)
  | .fault _ => none
  | .refused _ => none

theorem observe_running {s : State} (hb : s.busy = true) : observe s = none := if_pos hb

theorem view_dec {s : State} {p : DecPoint} (hb : s.busy = true) (hp : s.phase = .dec p) : s.view = s.decView p := by
  simp [State.view, hb, hp]

theorem view_enc {s : State} {j : EncJob} {p : EncPoint} (hb : s.busy = true) (hp : s.phase = .enc j p) :
    s.view = s.encView j p := by
  simp [State.view, hb, hp]

/-- Two running DECOMPRESS states that agree on what it reads show the same. -/
theorem outcomeView_dec {s u : State} {p : DecPoint} (hs : s.busy = true ∧ s.phase = .dec p)
    (hu : u.busy = true ∧ u.phase = .dec p) (h : s.decView p = u.decView p) :
    outcomeView (.next s) = outcomeView (.next u) := by
  simp only [outcomeView, view_dec hs.1 hs.2, view_dec hu.1 hu.2, h, observe_running hs.1, observe_running hu.1]

/-- Two running encoder states that agree on what the job reads show the same. -/
theorem outcomeView_enc {s u : State} {j : EncJob} {p : EncPoint} (hs : s.busy = true ∧ s.phase = .enc j p)
    (hu : u.busy = true ∧ u.phase = .enc j p) (h : s.encView j p = u.encView j p) :
    outcomeView (.next s) = outcomeView (.next u) := by
  simp only [outcomeView, view_enc hs.1 hs.2, view_enc hu.1 hu.2, h, observe_running hs.1, observe_running hu.1]

/-- The end of a job shows its status, a given payload and, after OK, `OUT` below `out_len`; no draw (rule R298). -/
theorem outcomeView_jobEnd {s u : State} (st : Status) (payload : Option Nat)
    (h : s.outMem = u.outMem ∧ s.outLen = u.outLen ∧ s.startReq = u.startReq ∧ s.resetReq = u.resetReq) :
    outcomeView (.next (jobEnd st payload s)) = outcomeView (.next (jobEnd st payload u)) := by
  obtain ⟨hmem, hlen, hstart, hreset⟩ := h
  have hobs : observe (jobEnd st payload s) = observe (jobEnd st payload u) := by
    cases payload <;> by_cases hok : st = .ok <;> simp [observe, State.result, hok, hmem, hlen]
  simp [outcomeView, State.view, hobs, hstart, hreset]

/-! ### DECOMPRESS -/

@[simp] theorem decView_inLen (p : DecPoint) (s : State) : (s.decView p).inLen = s.inLen := rfl
@[simp] theorem decView_outLen (p : DecPoint) (s : State) : (s.decView p).outLen = s.outLen := rfl
@[simp] theorem decView_loop_dlen (s : State) : (s.decView .loop).dlen = s.dlen := rfl
@[simp] theorem decView_busy (p : DecPoint) (s : State) : (s.decView p).busy = s.busy := rfl
@[simp] theorem decView_phase (p : DecPoint) (s : State) : (s.decView p).phase = s.phase := rfl

/-- BACKREF_COPY reads `OUT`, `out_len` and `D` alone (rule R160). -/
theorem backrefCopy_decView (d n : Nat) (s : State) :
    (backrefCopy d n (s.decView .loop)).2 = (backrefCopy d n s).2 ∧
      (backrefCopy d n (s.decView .loop)).1.decView .loop = (backrefCopy d n s).1.decView .loop := by
  induction n generalizing s with
  | zero => exact ⟨rfl, rfl⟩
  | succ n ih =>
    by_cases hfull : s.outLen = s.dlen.toNat
    · simp only [backrefCopy, decView_outLen, decView_loop_dlen, hfull, reduceIte]
      exact ⟨trivial, rfl⟩
    · simp only [backrefCopy, decView_outLen, decView_loop_dlen, hfull, reduceIte]
      have hs := ih (copyByte d s)
      have hv := ih (copyByte d (s.decView .loop))
      rw [show (copyByte d (s.decView .loop)).decView .loop = (copyByte d s).decView .loop from rfl] at hv
      exact ⟨hv.1.symm.trans hs.1, hv.2.symm.trans hs.2⟩

/-- Two copies from states that agree on what DECOMPRESS reads agree on it again, and on whether they overrun. -/
theorem backrefCopy_congr {s u : State} (d n : Nat) (h : s.decView .loop = u.decView .loop) :
    (backrefCopy d n s).2 = (backrefCopy d n u).2 ∧
      (backrefCopy d n s).1.decView .loop = (backrefCopy d n u).1.decView .loop := by
  have hs := backrefCopy_decView d n s
  have hu := backrefCopy_decView d n u
  rw [h] at hs
  exact ⟨hs.1.symm.trans hu.1, hs.2.symm.trans hu.2⟩

/-- What follows a copy does not depend on more than the copy does. -/
theorem outcomeView_endCopy {r q : State × Bool} (o : Overrun) (hr : r.1.busy = true ∧ r.1.phase = .dec .loop)
    (hq : q.1.busy = true ∧ q.1.phase = .dec .loop)
    (h : r.2 = q.2 ∧ r.1.decView .loop = q.1.decView .loop) :
    outcomeView (.next (endCopy o r)) = outcomeView (.next (endCopy o q)) := by
  obtain ⟨⟨s, b⟩, u, b'⟩ := r, q
  obtain ⟨rfl, hview⟩ : b = b' ∧ s.decView .loop = u.decView .loop := h
  have hadvance : outcomeView (.next (tagAdvance s)) = outcomeView (.next (tagAdvance u)) :=
    outcomeView_dec hr hq (congrArg tagAdvance hview)
  have hraise : outcomeView (.next (raise .invalidIndex none s)) = outcomeView (.next (raise .invalidIndex none u)) :=
    outcomeView_jobEnd _ _ ⟨(congrArg State.outMem hview :), (congrArg State.outLen hview :),
      (congrArg State.startReq hview :), (congrArg State.resetReq hview :)⟩
  cases b <;> cases o <;> assumption

section
variable {s : State} {p : DecPoint}

theorem outcomeView_decMatch (h : s.Running (.dec .loop)) (cfg : Config) (i : Instr) (d l : Nat) :
    outcomeView (.next (decMatch cfg i d l (s.decView .loop))) = outcomeView (.next (decMatch cfg i d l s)) := by
  by_cases hd : s.outLen < d
  · simp only [decMatch, decBackref, noteMatch_outLen, decView_outLen, hd, reduceIte]
    exact outcomeView_jobEnd _ _ ⟨rfl, rfl, rfl, rfl⟩
  · simp only [decMatch, decBackref, noteMatch_outLen, decView_outLen, hd, reduceIte]
    refine outcomeView_endCopy _ ?_ ?_ (backrefCopy_congr d l rfl)
    · rw [backrefCopy_frame]; exact ⟨h.busy, h.phase⟩
    · rw [backrefCopy_frame]; exact ⟨h.busy, h.phase⟩

theorem outcomeView_decSize (h : s.Running (.dec .size)) (cfg : Config) (hdrLen : Nat) (d : BitVec 32) :
    outcomeView (.next (decSize cfg hdrLen d (s.decView .size))) = outcomeView (.next (decSize cfg hdrLen d s)) := by
  simp only [decSize]
  split
  · exact outcomeView_jobEnd _ _ ⟨rfl, rfl, rfl, rfl⟩
  · exact outcomeView_dec ⟨h.busy, rfl⟩ ⟨h.busy, rfl⟩ rfl

theorem outcomeView_decMagic (h : s.Running (.dec .magic)) :
    outcomeView (.next (decMagic (s.decView .magic))) = outcomeView (.next (decMagic s)) := by
  by_cases hlen : s.inLen < 4
  · simp only [decMagic, decView_inLen, hlen, reduceIte]
    exact outcomeView_jobEnd _ _ ⟨rfl, rfl, rfl, rfl⟩
  · simp only [decMagic, decView_inLen, hlen, reduceIte]
    exact outcomeView_dec ⟨h.busy, rfl⟩ ⟨h.busy, rfl⟩ rfl

/-- No element's meaning in DECOMPRESS reads more than the job does at its point. -/
theorem exec_decView (h : s.Running (.dec p)) (i : Instr) :
    outcomeView (exec i (s.decView p)) = outcomeView (exec i s) := by
  have hb := h.busy
  have hp := h.phase
  cases i with
  | compress | decompress | encodeTokens =>
    simp only [exec, execCompress, execDecompress, execEncodeTokens, startCommand, decView_busy, hb, if_true]
  | magic =>
    simp only [exec, execMagic, decView_phase, hp]
    cases p with
    | magic => exact outcomeView_decMagic h
    | size | loop => rfl
  | sizeShort n =>
    simp only [exec, execSizeShort, decView_phase, hp]
    cases p with
    | size => exact outcomeView_decSize h _ _ _
    | magic | loop => rfl
  | sizeEscape n =>
    simp only [exec, execSizeEscape, decView_phase, hp]
    cases p with
    | size => exact outcomeView_decSize h _ _ _
    | magic | loop => rfl
  | groupHdr tags =>
    simp only [exec, execGroupHdr, decView_phase, hp]
    cases p with
    | loop => exact outcomeView_dec ⟨hb, hp⟩ ⟨hb, hp⟩ rfl
    | magic | size => rfl
  | lit v =>
    simp only [exec, execLit, decView_phase, hp]
    cases p with
    | loop => exact outcomeView_dec ⟨hb, hp⟩ ⟨hb, hp⟩ rfl
    | magic | size => rfl
  | match2 | match3 | match4 =>
    simp only [exec, execMatch2, execMatch3, execMatch4, matchToken, decView_phase, hp]
    cases p with
    | loop => exact outcomeView_decMatch h _ _ _ _
    | magic | size => rfl

theorem fetch_decView (h : s.Running (.dec p)) (pl : Place) :
    outcomeView (fetch pl (s.decView p)).outcome = outcomeView (fetch pl s).outcome := by
  have hbytes : fetchBytes pl (s.decView p) = fetchBytes pl s := by cases pl <;> rfl
  simp only [fetch, hbytes]
  cases decode pl (fetchBytes pl s) with
  | ok i n => exact exec_decView h i
  | bad e =>
    cases pl with
    | magic => cases e <;> exact outcomeView_jobEnd _ _ ⟨rfl, rfl, rfl, rfl⟩
    | size | groupHdr => exact outcomeView_jobEnd _ _ ⟨rfl, rfl, rfl, rfl⟩
    | token tag => cases tag <;> exact outcomeView_jobEnd _ _ ⟨rfl, rfl, rfl, rfl⟩

/-- A step of DECOMPRESS shows the same from all states that agree on what it reads. -/
theorem step_decView (h : s.Running (.dec p)) : outcomeView (step (s.decView p)) = outcomeView (step s) := by
  have hview : (s.decView p).Running (.dec p) := ⟨h.noReset, h.busy, h.phase⟩
  rw [h.step_dec, hview.step_dec]
  cases p with
  | magic | size => exact fetch_decView h _
  | loop =>
    by_cases hlt : s.outLen < s.dlen.toNat
    · simp only [selectDec, decView_outLen, decView_loop_dlen, hlt, reduceIte]
      exact fetch_decView h (loopPlace s)
    · simp only [selectDec, decView_outLen, decView_loop_dlen, hlt, reduceIte]
      exact outcomeView_jobEnd _ _ ⟨rfl, rfl, rfl, rfl⟩

end

/-! ### The encoder jobs -/

/-- EMIT reads the output and the framer's registers alone (rules R132 and R133). -/
theorem emit_encView (i : Instr) (j : EncJob) (s : State) :
    (emit i (s.encView j .loop)).encView j .loop = (emit i s).encView j .loop := by
  have hcnt : (s.encView j .loop).cnt = s.cnt := rfl
  by_cases hc : s.cnt = 8
  · rw [emit_full i s hc, emit_full i _ (hcnt.trans hc)]
    cases j <;> rfl
  · rw [emit_open i s hc, emit_open i _ (hcnt.symm ▸ hc)]
    cases j <;> rfl

theorem register_encView (h4 : Hash4) (p : Nat) (s : State) :
    (register h4 p (s.encView .compress .loop)).encView .compress .loop = (register h4 p s).encView .compress .loop := by
  by_cases hwin : HasWindow s p
  · simp only [register, if_pos hwin, if_pos (show HasWindow (s.encView .compress .loop) p from hwin)]
    rfl
  · simp only [register, if_neg hwin, if_neg (show ¬ HasWindow (s.encView .compress .loop) p from hwin)]
    rfl

theorem registerSpan_congr {s u : State} (h4 : Hash4) (p n : Nat)
    (h : s.encView .compress .loop = u.encView .compress .loop) :
    (registerSpan h4 p n s).encView .compress .loop = (registerSpan h4 p n u).encView .compress .loop := by
  induction n generalizing p s u with
  | zero => exact h
  | succ n ih =>
    refine ih (p + 1) ?_
    rw [← register_encView, h, register_encView]

theorem encToken_encView (h4 : Hash4) (i : Instr) (len : Nat) (j : EncJob) (s : State) :
    (encToken h4 i len j (s.encView j .loop)).encView j .loop = (encToken h4 i len j s).encView j .loop := by
  have hemit := emit_encView i j s
  cases j with
  | compress => exact congrArg (fun u : State => { u with cur := s.cur + len }) (registerSpan_congr h4 s.cur len hemit)
  | tokens => exact congrArg (fun u : State => { u with tokIdx := s.tokIdx + 1 }) hemit

/-- A token leaves an encoder job running at the head of its loop. -/
theorem encToken_running (h4 : Hash4) (i : Instr) (len : Nat) (j : EncJob) (s : State) :
    (encToken h4 i len j s).busy = s.busy ∧ (encToken h4 i len j s).phase = s.phase := by
  cases j with
  | compress => rw [encToken, finderEmit_frame]; exact ⟨rfl, rfl⟩
  | tokens => rw [encToken, emit_frame]; exact ⟨rfl, rfl⟩

theorem commonBytes_encView (s : State) (fuel a b : Nat) :
    commonBytes (s.encView .compress .loop) fuel a b = commonBytes s fuel a b := by
  induction fuel generalizing a b with
  | zero => rfl
  | succ fuel ih => simp only [commonBytes, ih]; rfl

/-- The element that the search decides on (rules R193 and R197 to R199). -/
theorem search_element (h4 : Hash4) (s : State) :
    (search h4 s).1 =
      if HasWindow s s.cur then
        match lookup s (hashWindow h4 s s.cur) with
        | none => .lit (s.inByte s.cur)
        | some c =>
          if Usable s c ∧ Config.minMatchEmit ≤ commonPrefix s c then matchInstr (s.cur - c) (commonPrefix s c)
          else .lit (s.inByte s.cur)
      else .lit (s.inByte s.cur) := by
  rw [search]
  split
  · simp only [searchWindow]
    cases lookup s (hashWindow h4 s s.cur) with
    | none => rfl
    | some c => by_cases hc : Usable s c <;> by_cases hl : Config.minMatchEmit ≤ commonPrefix s c <;> simp [hc, hl]
  · rfl

/-- The search decides by the input, `cur` and the table alone (rule R197). -/
theorem search_encView (h4 : Hash4) (s : State) : (search h4 (s.encView .compress .loop)).1 = (search h4 s).1 := by
  have hprefix (c : Nat) : commonPrefix (s.encView .compress .loop) c = commonPrefix s c := commonBytes_encView s _ c _
  simp only [search_element, hprefix]
  rfl

/-- The choice of the next token, too, reads no more than the job's own registers and input (rules R222 and R232). -/
theorem nextToken_encView (h4 : Hash4) (j : EncJob) (s : State) :
    (nextToken h4 j (s.encView j .loop)).map Prod.fst = (nextToken h4 j s).map Prod.fst := by
  cases j with
  | compress =>
    change (if s.cur < s.inLen then some (search h4 (s.encView .compress .loop)) else none).map Prod.fst = _
    rw [nextToken]
    split
    · exact congrArg some (search_encView h4 s)
    · rfl
  | tokens =>
    simp only [nextToken, Option.map_map]
    rfl

/-- A header element is written alike, whatever stands where the job does not read (rule R221). -/
theorem encHeader_encView (j : EncJob) (i : Instr) {p next : EncPoint} (hp : p ≠ .loop) (hnext : next ≠ .loop)
    (s : State) :
    (encHeader j i next (s.encView j p)).encView j next = (encHeader j i next s).encView j next := by
  simp only [encHeader, appendBytes_eq, State.encView, if_neg hp, if_neg hnext]
  cases j <;> rfl

section
variable {s : State} {j : EncJob} {p : EncPoint}

theorem outcomeView_encHeader (h : s.Running (.enc j p)) (i : Instr) {next : EncPoint} (hp : p ≠ .loop)
    (hnext : next ≠ .loop) :
    outcomeView (.next (encHeader j i next (s.encView j p))) = outcomeView (.next (encHeader j i next s)) := by
  have hv : (s.encView j p).Running (.enc j p) := ⟨h.noReset, h.busy, h.phase⟩
  have hs := h.after_encHeader j i next
  have hu := hv.after_encHeader j i next
  exact outcomeView_enc ⟨hu.busy, hu.phase⟩ ⟨hs.busy, hs.phase⟩ (encHeader_encView j i hp hnext s)

/-- A token of an encoder job is written alike from two states that agree on what the job reads. -/
theorem outcomeView_token (h : s.Running (.enc j .loop)) {i : Instr} {tok : Token} (hi : instrToken i = some tok)
    {u : State} (hu : u.Running (.enc j .loop)) (hview : u.encView j .loop = s.encView j .loop) :
    outcomeView (exec i u) = outcomeView (exec i s) := by
  rw [exec_token_enc h.phase hi, exec_token_enc hu.phase hi]
  obtain ⟨hsb, hsp⟩ := encToken_running Config.here.hash4 i tok.size j s
  obtain ⟨hub, hup⟩ := encToken_running Config.here.hash4 i tok.size j u
  refine outcomeView_enc ⟨hub.trans hu.busy, hup.trans hu.phase⟩ ⟨hsb.trans h.busy, hsp.trans h.phase⟩ ?_
  rw [← encToken_encView, hview, encToken_encView]

/-- A step of an encoder job shows the same from all states that agree on what it reads. -/
theorem step_encView (h : s.Running (.enc j p)) : outcomeView (step (s.encView j p)) = outcomeView (step s) := by
  have hv : (s.encView j p).Running (.enc j p) := ⟨h.noReset, h.busy, h.phase⟩
  cases p with
  | magic =>
    rw [h.step_encMagic, hv.step_encMagic]
    exact outcomeView_encHeader h _ nofun nofun
  | size =>
    have hlen : encLength j (s.encView j .size) = encLength j s := by cases j <;> rfl
    rw [h.step_encSize, hv.step_encSize, hlen]
    exact outcomeView_encHeader h _ nofun nofun
  | init =>
    rw [h.step_encInit, hv.step_encInit]
    refine outcomeView_enc ⟨h.busy, rfl⟩ ⟨h.busy, rfl⟩ ?_
    cases j <;> rfl
  | loop =>
    have hnext := nextToken_encView Config.here.hash4 j s
    rw [h.step_enc, hv.step_enc, selectEnc, selectEnc]
    cases hs : nextToken Config.here.hash4 j s with
    | none =>
      rw [hs, Option.map_none, Option.map_eq_none_iff] at hnext
      simp only [hnext, Action.outcome, exec, execGroupHdr, h.phase, hv.phase]
      exact outcomeView_jobEnd _ _ ⟨rfl, rfl, rfl, rfl⟩
    | some r =>
      obtain ⟨i, s'⟩ := r
      rw [hs, Option.map_some, Option.map_eq_some_iff] at hnext
      obtain ⟨⟨i', u'⟩, hu, rfl⟩ := hnext
      obtain ⟨tok, hi⟩ := nextToken_token hs
      obtain ⟨tmp, rfl⟩ : ∃ tmp, s' = { s with temps := tmp } := ⟨_, nextToken_frame hs⟩
      obtain ⟨tmp', rfl⟩ : ∃ tmp', u' = { s.encView j .loop with temps := tmp' } := ⟨_, nextToken_frame hu⟩
      simp only [hu]
      refine outcomeView_token (s := { s with temps := tmp }) ⟨h.noReset, h.busy, h.phase⟩ hi
        ⟨h.noReset, h.busy, h.phase⟩ ?_
      cases j <;> rfl

end

/-! ### Any step, and whole runs -/

/-- What a step shows depends only on what the block reads, while neither a reset nor a start is asked for. -/
theorem step_view {s : State} (hreset : s.resetReq = false) (hstart : s.startReq = false) :
    outcomeView (step s.view) = outcomeView (step s) := by
  by_cases hb : s.busy = true
  · cases hp : s.phase with
    | idle => simp [State.view, State.withoutResult, step_eq, select, selectBusy, Action.outcome, hb, hp, hreset]
    | dec p => rw [view_dec hb hp]; exact step_decView ⟨hreset, hb, hp⟩
    | enc j p => rw [view_enc hb hp]; exact step_encView ⟨hreset, hb, hp⟩
  · simp [State.view, step_eq, select, selectIdle, Action.outcome, hb, hreset, hstart, State.reset]

/-- Neither a reset nor a start is asked for. -/
def State.Unasked (s : State) : Prop := s.resetReq = false ∧ s.startReq = false

theorem view_requests (s : State) : s.view.resetReq = s.resetReq ∧ s.view.startReq = s.startReq := by
  rw [State.view]
  split
  · split <;> exact ⟨rfl, rfl⟩
  · exact ⟨rfl, rfl⟩

theorem State.Unasked.of_view {s u : State} (h : s.Unasked) (hview : s.view = u.view) : u.Unasked := by
  rw [State.Unasked, ← (view_requests u).1, ← (view_requests u).2, ← hview, (view_requests s).1, (view_requests s).2]
  exact h

/-- The block asks itself for nothing. -/
theorem State.Unasked.after_step {s t : State} (h : s.Unasked) (hstep : step s = .next t) : t.Unasked := by
  obtain ⟨hreset, hstart⟩ := h
  cases step_next hstep with
  | reset hr => rw [hreset] at hr; contradiction
  | start _ _ _ hr | unknown _ _ _ hr => rw [hstart] at hr; contradiction
  | dec _ _ _ _ _ hn => rw [hn.frame]; exact ⟨hreset, hstart⟩
  | enc _ _ _ _ _ _ hn => rw [hn.frame]; exact ⟨hreset, hstart⟩

/-- An outcome that shows what a next state shows is itself a next state. -/
theorem outcomeView_eq_next {o : Host.Outcome State Fault Refusal} {t : State}
    (h : outcomeView o = outcomeView (.next t)) : ∃ v, o = .next v ∧ v.view = t.view ∧ observe v = observe t := by
  cases o with
  | next v => exact ⟨v, rfl, by simpa [outcomeView] using h⟩
  | fault | refused => simp [outcomeView] at h

/-- Runs from states that agree on what the block reads, and are observed alike, end in states that are observed alike. -/
theorem run_view {k : Nat} {s u t : State} (h : s.Unasked) (hview : u.view = s.view) (hobs : observe u = observe s)
    (hrun : Host.Core.run core k s = .next t) : ∃ v, Host.Core.run core k u = .next v ∧ observe v = observe t := by
  induction k generalizing s u with
  | zero =>
    obtain rfl : s = t := Host.Outcome.next.inj hrun
    exact ⟨u, rfl, hobs⟩
  | succ k ih =>
    have hstep : outcomeView (step u) = outcomeView (step s) := by
      have hu := h.of_view hview.symm
      rw [← step_view hu.1 hu.2, hview, step_view h.1 h.2]
    simp only [Host.Core.run, show core.step s = step s from rfl, show core.step u = step u from rfl] at hrun ⊢
    cases hs : step s with
    | next s' =>
      rw [hs] at hstep hrun
      obtain ⟨u', hu', hview', hobs'⟩ := outcomeView_eq_next hstep
      rw [hu']
      exact ih (h.after_step hs) hview' hobs' hrun
    | fault | refused => rw [hs] at hrun; contradiction

/-! ### The start -/

theorem jobStart_unasked {c : Command} {s : State} (h : s.Ready c) (cfg : Config) : (jobStart cfg c s).Unasked := by
  obtain ⟨-, -, -, hreset⟩ := h
  rw [jobStart]
  split
  · exact ⟨hreset, rfl⟩
  · cases c <;> exact ⟨hreset, rfl⟩

/-- ADMIT reads the input, the tokens and the overlap alone (rule R281). -/
theorem admission_congr {s u : State} (cfg : Config) (c : Command) (hlen : u.inLen = s.inLen)
    (hover : u.inOverlapsOut = s.inOverlapsOut) (htokens : u.tokens = s.tokens) : admission cfg c u = admission cfg c s := by
  rw [admission, admission, hlen, hover, htokens]

/-- A start writes every register that its job reads before writing it (rules R41 and R280). -/
theorem outcomeView_jobStart {c : Command} {s u : State} (hs : s.Ready c) (hu : u.Ready c) (hmem : u.inMem = s.inMem)
    (hlen : u.inLen = s.inLen) (hover : u.inOverlapsOut = s.inOverlapsOut) (htokens : u.tokens = s.tokens) (cfg : Config) :
    outcomeView (.next (jobStart cfg c u)) = outcomeView (.next (jobStart cfg c s)) := by
  obtain ⟨hscmd, -, -, hsreset⟩ := hs
  obtain ⟨hucmd, -, -, hureset⟩ := hu
  rw [jobStart, jobStart, admission_congr cfg c hlen hover htokens]
  cases admission cfg c s with
  | some r => simp [outcomeView, State.view, observe, hsreset, hureset]
  | none =>
    cases c with
    | compress =>
      refine outcomeView_enc ⟨rfl, rfl⟩ ⟨rfl, rfl⟩ ?_
      simp [begin, beginCompress, beginJob, State.encView, State.withoutResult, *]
    | decompress =>
      refine outcomeView_dec ⟨rfl, rfl⟩ ⟨rfl, rfl⟩ ?_
      simp [begin, beginDecompress, beginJob, State.decView, State.withoutResult, *]
    | encodeTokens =>
      refine outcomeView_enc ⟨rfl, rfl⟩ ⟨rfl, rfl⟩ ?_
      simp [begin, beginTokens, beginJob, State.encView, State.withoutResult, *]

theorem busy_of_observe {s u : State} (h : observe u = observe s) (hb : s.busy = false) : u.busy = false := by
  by_contra hu
  rw [observe_running (by simpa using hu)] at h
  simp [observe, hb] at h

/-- Settles O51: the start writes what its job reads, and from there on the runs of the two blocks agree on it. -/
theorem nothingCarriesOverBetweenJobs : Obligations.NothingCarriesOverBetweenJobs := by
  intro c s u t hs hu hmem hlen hover htokens hruns
  obtain ⟨k, hrun, hb⟩ := hruns
  obtain ⟨_, hnext, hview, hobs⟩ :=
    outcomeView_eq_next (outcomeView_jobStart hs hu hmem hlen hover htokens Config.here)
  cases hnext
  simp only [Host.Core.run, show core.step s = _ from hs.step_start] at hrun
  obtain ⟨v, hv, hend⟩ := run_view (jobStart_unasked hs Config.here) hview hobs hrun
  refine ⟨v, ⟨k, ?_, busy_of_observe hend hb⟩, hend⟩
  simpa only [Host.Core.run, show core.step u = _ from hu.step_start] using hv

end Sys2Proof.Machine
end

section
/-! SUPPORT. DECOMPRESS reads the stream and nothing behind it (rules R60, R152 and R169): its operations commute with putting
another content into `IN`, and a read sees only the bytes before `N_in`. -/

namespace Sys2Proof.Machine

/-! ### Another content of `IN` -/

/-- The state with another content of `IN` and the same `N_in`. -/
def State.withIn (m : Memory) (s : State) : State := { s with inMem := m }

@[simp] theorem withIn_outLen (m : Memory) (s : State) : (s.withIn m).outLen = s.outLen := rfl
@[simp] theorem withIn_dlen (m : Memory) (s : State) : (s.withIn m).dlen = s.dlen := rfl
@[simp] theorem withIn_inLen (m : Memory) (s : State) : (s.withIn m).inLen = s.inLen := rfl
@[simp] theorem withIn_busy (m : Memory) (s : State) : (s.withIn m).busy = s.busy := rfl
@[simp] theorem withIn_phase (m : Memory) (s : State) : (s.withIn m).phase = s.phase := rfl

/-- The outcome with another content of `IN` in its next state. -/
def outcomeWithIn (m : Memory) : Host.Outcome State Fault Refusal → Host.Outcome State Fault Refusal
  | .next t => .next (t.withIn m)
  | .fault f => .fault f
  | .refused r => .refused r

theorem State.Running.withIn {s : State} {p : Phase} (h : s.Running p) (m : Memory) : (s.withIn m).Running p :=
  ⟨h.noReset, h.busy, h.phase⟩

/-! ### The operations of DECOMPRESS do not read `IN` -/

section
variable (m : Memory) (s : State)

theorem decMagic_withIn : decMagic (s.withIn m) = (decMagic s).withIn m := by
  by_cases hlen : s.inLen < 4 <;> simp only [decMagic, withIn_inLen, hlen, reduceIte] <;> rfl

theorem decSize_withIn (cfg : Config) (hdrLen : Nat) (d : BitVec 32) :
    decSize cfg hdrLen d (s.withIn m) = (decSize cfg hdrLen d s).withIn m := by
  simp only [decSize]
  split <;> rfl

/-- BACKREF_COPY reads `OUT`, and so does not see `IN` (rule R160). -/
theorem backrefCopy_withIn (d n : Nat) :
    backrefCopy d n (s.withIn m) = ((backrefCopy d n s).1.withIn m, (backrefCopy d n s).2) := by
  induction n generalizing s with
  | zero => rfl
  | succ n ih =>
    by_cases hfull : s.outLen = s.dlen.toNat <;>
      simp only [backrefCopy, withIn_outLen, withIn_dlen, hfull, reduceIte]
    exact ih (copyByte d s)

theorem endCopy_withIn (o : Overrun) (r : State × Bool) :
    endCopy o (r.1.withIn m, r.2) = (endCopy o r).withIn m := by
  obtain ⟨u, overrun⟩ := r
  cases overrun <;> cases o <;> rfl

theorem decMatch_withIn (cfg : Config) (i : Instr) (d l : Nat) :
    decMatch cfg i d l (s.withIn m) = (decMatch cfg i d l s).withIn m := by
  by_cases hd : s.outLen < d <;>
    simp only [decMatch, decBackref, noteMatch_outLen, withIn_outLen, hd, reduceIte]
  · rfl
  · rw [← endCopy_withIn, ← backrefCopy_withIn]
    rfl

theorem decodeFailure_withIn (pl : Place) (e : DecodeError) (got : List Byte) :
    decodeFailure pl e got (s.withIn m) = (decodeFailure pl e got s).withIn m := by
  cases pl with
  | magic => cases e <;> rfl
  | size | groupHdr => rfl
  | token tag => cases tag <;> rfl

end

section
variable {m : Memory} {s : State} {p : DecPoint}

/-- No element's meaning in DECOMPRESS reads `IN`: its bytes are its operands. -/
theorem exec_withIn (h : s.Running (.dec p)) (i : Instr) : exec i (s.withIn m) = outcomeWithIn m (exec i s) := by
  have hp := h.phase
  cases i with
  | compress | decompress | encodeTokens =>
    simp only [exec, execCompress, execDecompress, execEncodeTokens, startCommand, withIn_busy, h.busy, if_true,
      outcomeWithIn]
  | magic =>
    simp only [exec, execMagic, withIn_phase, hp]
    cases p with
    | magic => rw [decMagic_withIn, outcomeWithIn]
    | size | loop => rfl
  | sizeShort | sizeEscape =>
    simp only [exec, execSizeShort, execSizeEscape, withIn_phase, hp]
    cases p with
    | size => rw [decSize_withIn, outcomeWithIn]
    | magic | loop => rfl
  | groupHdr | lit =>
    simp only [exec, execGroupHdr, execLit, withIn_phase, hp]
    cases p <;> rfl
  | match2 | match3 | match4 =>
    simp only [exec, execMatch2, execMatch3, execMatch4, matchToken, withIn_phase, hp]
    cases p with
    | loop => rw [decMatch_withIn, outcomeWithIn]
    | magic | size => rfl

/-! ### A read sees only the bytes before `N_in` -/

theorem memory_readBytes_congr {m m' : Memory} {a n : Nat}
    (h : ∀ i, i < n → Memory.read m (a + i) = Memory.read m' (a + i)) :
    Memory.readBytes m a n = Memory.readBytes m' a n := by
  refine List.ext_getElem? fun i => ?_
  by_cases hi : i < n
  · rw [memory_readBytes_getElem _ _ _ _ hi, memory_readBytes_getElem _ _ _ _ hi, h i hi]
  · rw [List.getElem?_eq_none (by simpa using hi), List.getElem?_eq_none (by simpa using hi)]

variable (hm : ∀ a, a < s.inLen → Memory.read m a = Memory.read s.inMem a)
include hm

/-- A bounded read stops at `N_in`, wherever it starts (rule R152). -/
theorem inBytes_withIn (a n : Nat) : (s.withIn m).inBytes a n = s.inBytes a n :=
  memory_readBytes_congr fun i hi => hm (a + i) (by rw [withIn_inLen] at hi; omega)

theorem fetch_withIn (h : s.Running (.dec p)) (pl : Place) :
    (fetch pl (s.withIn m)).outcome = outcomeWithIn m (fetch pl s).outcome := by
  have hoffset : placeOffset (s.withIn m) pl = placeOffset s pl := by cases pl <;> rfl
  have hbytes : fetchBytes pl (s.withIn m) = fetchBytes pl s := by
    rw [fetchBytes, fetchBytes, hoffset, inBytes_withIn hm]
  simp only [fetch, hbytes]
  cases decode pl (fetchBytes pl s) with
  | ok i n => exact exec_withIn h i
  | bad e => rw [Action.outcome, Action.outcome, decodeFailure_withIn, outcomeWithIn]

/-- A step of DECOMPRESS from a content of `IN` that agrees before `N_in` differs in that content alone. -/
theorem State.Running.step_withIn (h : s.Running (.dec p)) : step (s.withIn m) = outcomeWithIn m (step s) := by
  rw [h.step_dec, (h.withIn m).step_dec]
  cases p with
  | magic | size => exact fetch_withIn hm h _
  | loop =>
    by_cases hlt : s.outLen < s.dlen.toNat <;>
      simp only [selectDec, withIn_outLen, withIn_dlen, hlt, reduceIte]
    · exact fetch_withIn hm h (loopPlace s)
    · rfl

end

/-- Settles O50: every read of `IN` is bounded by `N_in`, and nothing else in a step of DECOMPRESS looks at its content. -/
theorem decompressReadsOnlyItsInput : Obligations.DecompressReadsOnlyItsInput := by
  intro s t m p hreset hbusy hphase hm hstep
  have h : s.Running (.dec p) := ⟨hreset, hbusy, hphase⟩
  have hwith : step (s.withIn m) = outcomeWithIn m (step s) := h.step_withIn hm
  rwa [hstep] at hwith

end Sys2Proof.Machine
end

section
/-! SUPPORT. The encodings of 30_encoding.md: the round trips of decoder and encoder (rule R87), and the fields and bytes of
each tier and of the size header as numbers (rules R74, R85 and R101 to R104). -/

namespace Sys2Proof.Machine

/-! ### The encoder after the decoder -/

/-- The 24-bit field is 0 for three zero bytes only. -/
theorem le24_eq_zero {a b c : Byte} (h : le24 a b c = 0) : a = 0 ∧ b = 0 ∧ c = 0 := by
  obtain ⟨ha, hb, hc⟩ := bytes_le24 a b c
  rw [h] at ha hb hc
  exact ⟨ha.symm, hb.symm, hc.symm⟩

/-- A size header that decodes encodes to the bytes it was read from (rules R72, R73 and R75). -/
theorem encode_of_decodeSize {bs : List Byte} {i : Instr} {n : Nat} (h : decodeSize bs = .ok i n) :
    encode i = bs.take n := by
  match bs, h with
  | [], h | [_], h | [_, _], h => simp [decodeSize] at h
  | [b1, b2, b3], h | [b1, b2, b3, _], h | [b1, b2, b3, _, _], h | [b1, b2, b3, _, _, _], h =>
    simp only [decodeSize, DecodeResult.ok.injEq] at h
    obtain ⟨rfl, rfl⟩ := h
    simp [encode, bytes_le24]
  | b1 :: b2 :: b3 :: b4 :: b5 :: b6 :: b7 :: rest, h =>
    simp only [decodeSize] at h
    split at h
    · rename_i hzero
      simp only [DecodeResult.ok.injEq] at h
      obtain ⟨rfl, rfl⟩ := h
      obtain ⟨rfl, rfl, rfl⟩ := le24_eq_zero hzero
      simp [encode, bytes_le32]
    · simp only [DecodeResult.ok.injEq] at h
      obtain ⟨rfl, rfl⟩ := h
      simp [encode, bytes_le24]

/-- A match token that decodes encodes to the bytes it was read from (rules R81 to R83 and R85). -/
theorem encode_of_decodeMatch {bs : List Byte} {i : Instr} {n : Nat} (h : decodeMatch bs = .ok i n) :
    encode i = bs.take n := by
  match bs, h with
  | [], h | [_], h => simp [decodeMatch] at h
  | b0 :: b1 :: rest, h =>
    have hb0 := nibbles_append b0
    simp only [decodeMatch] at h
    split at h
    · rename_i htier
      match rest, h with
      | [], h => simp at h
      | b2 :: _, h =>
        simp only [DecodeResult.ok.injEq] at h
        obtain ⟨rfl, rfl⟩ := h
        rw [htier] at hb0
        simpa [encode, append_fields_4_4, append_fields_4_8, nibbles_append] using hb0
    · split at h
      · rename_i htier
        match rest, h with
        | [], h | [_], h => simp at h
        | b2 :: b3 :: _, h =>
          simp only [DecodeResult.ok.injEq] at h
          obtain ⟨rfl, rfl⟩ := h
          rw [htier] at hb0
          simpa [encode, append_fields_4_8_4, append_fields_4_8, nibbles_append] using hb0
      · simp only [DecodeResult.ok.injEq] at h
        obtain ⟨rfl, rfl⟩ := h
        simp [encode, append_fields_4_8, hb0]

/-- Settles O1, which the round trip of each element gives (`decode_encode`). -/
theorem decodeOfEncodeIsTheElement : Obligations.DecodeOfEncodeIsTheElement := by
  intro i pl rest hw hp h0
  exact decode_encode hw hp h0

/-- Settles O2: a place of one byte is read as that byte; the size header and the match tiers take their fields apart into
the bytes they were put together from. -/
theorem encodeOfDecodeIsTheBytes : Obligations.EncodeOfDecodeIsTheBytes := by
  intro pl bs i n h
  cases pl with
  | magic =>
    cases bs with
    | nil => simp [decode] at h
    | cons b bs =>
      simp only [decode] at h
      split at h
      · rename_i hb
        cases h
        exact ⟨rfl, rfl, by simp, by simp [encode, hb], rfl⟩
      · contradiction
  | size =>
    have hbytes := encode_of_decodeSize h
    rcases decodeSize_ok h with ⟨v, rfl, rfl, hlen⟩ | ⟨v, rfl, rfl, hlen⟩ <;>
      exact ⟨rfl, rfl, hlen, hbytes, rfl⟩
  | groupHdr =>
    cases bs with
    | nil => simp [decode] at h
    | cons b bs => cases h; exact ⟨rfl, rfl, by simp, rfl, rfl⟩
  | token tag =>
    cases tag with
    | false =>
      cases bs with
      | nil => simp [decode] at h
      | cons b bs => cases h; exact ⟨rfl, rfl, by simp, rfl, rfl⟩
    | true =>
      obtain ⟨hw, hn, hlen, htier⟩ := decodeMatch_ok h
      have hp : placeOf i = some (.token true) := by
        rcases htier with ⟨_, _, rfl⟩ | ⟨_, _, rfl⟩ | ⟨_, _, rfl⟩ <;> rfl
      exact ⟨hw, hp, hlen, encode_of_decodeMatch h, hn⟩

/-! ### Fields as numbers -/

theorem hiNibble_eq_iff (b : Byte) (k : BitVec 4) : hiNibble b = k ↔ b.toNat / 16 = k.toNat := by
  rw [← BitVec.toNat_inj, hiNibble_value]

/-- The distance of a match from its two distance fields (rule R85). -/
theorem matchDist_append (a : BitVec 4) (b : Byte) : matchDist (a ++ b) = a.toNat * 256 + b.toNat + 1 := by
  rw [matchDist, append_value]; rfl

/-- The length of a Tier B match from its two length fields (rule R85). -/
theorem lenB_append (a b : BitVec 4) : lenB (a ++ b) = a.toNat * 16 + b.toNat + 17 := by
  rw [lenB, append_value]; rfl

/-- The length of a Tier C match from its three length fields (rule R85). -/
theorem lenC_append (a : BitVec 4) (b : Byte) (c : BitVec 4) :
    lenC (a ++ b ++ c) = a.toNat * 4096 + b.toNat * 16 + c.toNat + 273 := by
  rw [lenC, append_value, append_value]
  omega

/-- Settles O4: the high nibble selects the tier, and its fields are put together high part first. -/
theorem decodedFieldsOfEachTier : Obligations.DecodedFieldsOfEachTier := by
  intro b0 b1 rest
  refine ⟨fun htier b2 => ?_, fun htier b2 b3 => ?_, fun htier => ?_⟩
  · have h0 : hiNibble b0 = 0 := (hiNibble_eq_iff b0 0).2 htier
    refine ⟨.match3 (loNibble b0 ++ hiNibble b1) (loNibble b1 ++ b2), ?_, ?_⟩
    · simp only [decode, decodeMatch, if_pos h0]
    · rw [instrToken, matchDist_append, lenB_append, loNibble_value, loNibble_value, hiNibble_value]
  · have h1 : hiNibble b0 = 1 := (hiNibble_eq_iff b0 1).2 htier
    have h0 : hiNibble b0 ≠ 0 := by rw [h1]; decide
    refine ⟨.match4 (loNibble b0 ++ b1 ++ hiNibble b2) (loNibble b2 ++ b3), ?_, ?_⟩
    · simp only [decode, decodeMatch, if_neg h0, if_pos h1]
    · rw [instrToken, matchDist_append, lenC_append, loNibble_value, loNibble_value, hiNibble_value]
  · have hne (k : BitVec 4) (hk : k.toNat < 2) : hiNibble b0 ≠ k := fun h => by
      have := (hiNibble_eq_iff b0 k).1 h
      omega
    refine ⟨.match2 (hiNibble b0) (loNibble b0 ++ b1), ?_, ?_⟩
    · simp only [decode, decodeMatch, if_neg (hne 0 (by decide)), if_neg (hne 1 (by decide))]
    · rw [instrToken, matchDist_append, lenA, loNibble_value, hiNibble_value]

/-! ### Bytes as numbers -/

/-- The bytes of Tier A (rule R101). -/
theorem encode_match2_values (la : BitVec 4) (da : BitVec 12) :
    (encode (.match2 la da)).map BitVec.toNat = [la.toNat * 16 + da.toNat / 256, da.toNat % 256] := by
  simp only [encode, List.map_cons, List.map_nil, append_value, field_value, List.cons.injEq, and_true]
  omega

/-- The bytes of Tier B (rule R102). -/
theorem encode_match3_values (lb : BitVec 8) (da : BitVec 12) :
    (encode (.match3 lb da)).map BitVec.toNat =
      [lb.toNat / 16, lb.toNat % 16 * 16 + da.toNat / 256, da.toNat % 256] := by
  simp only [encode, List.map_cons, List.map_nil, append_value, field_value, BitVec.ofNat_eq_ofNat, BitVec.toNat_ofNat,
    List.cons.injEq, and_true]
  omega

/-- The bytes of Tier C (rule R103). -/
theorem encode_match4_values (lc : BitVec 16) (da : BitVec 12) :
    (encode (.match4 lc da)).map BitVec.toNat =
      [16 + lc.toNat / 4096, lc.toNat / 16 % 256, lc.toNat % 16 * 16 + da.toNat / 256, da.toNat % 256] := by
  simp only [encode, List.map_cons, List.map_nil, append_value, field_value, BitVec.ofNat_eq_ofNat, BitVec.toNat_ofNat,
    List.cons.injEq, and_true]
  omega

/-- The bytes of the short size header (rule R72). -/
theorem encode_sizeShort_values (n : BitVec 24) :
    (encode (.sizeShort n)).map BitVec.toNat = [n.toNat % 256, n.toNat / 256 % 256, n.toNat / 65536] := by
  simp only [encode, byteOf, List.map_cons, List.map_nil, field_value, List.cons.injEq, and_true]
  omega

/-- The bytes of the escaped size header (rule R73). -/
theorem encode_sizeEscape_values (n : BitVec 32) :
    (encode (.sizeEscape n)).map BitVec.toNat =
      [0, 0, 0, n.toNat % 256, n.toNat / 256 % 256, n.toNat / 65536 % 256, n.toNat / 16777216] := by
  simp only [encode, byteOf, List.map_cons, List.map_nil, field_value, BitVec.ofNat_eq_ofNat, BitVec.toNat_ofNat,
    List.cons.injEq, true_and, and_true]
  omega

/-- Settles O5: the operands fit the fields of the tier that the length selects. -/
theorem encodedBytesOfEachTier : Obligations.EncodedBytesOfEachTier := by
  refine ⟨fun d l hd hd' hl hl' => ?_, fun b => rfl⟩
  have hdist : (BitVec.ofNat 12 (d - 1)).toNat = d - 1 := Nat.mod_eq_of_lt (by omega)
  simp only [tokenBytes, tokenInstr, matchInstr]
  split
  · have hlen : (BitVec.ofNat 4 (l - 1)).toNat = l - 1 := Nat.mod_eq_of_lt (by omega)
    rw [encode_match2_values, hlen, hdist]
  split
  · have hlen : (BitVec.ofNat 8 (l - 17)).toNat = l - 17 := Nat.mod_eq_of_lt (by omega)
    rw [encode_match3_values, hlen, hdist]
  · have hlen : (BitVec.ofNat 16 (l - 273)).toNat = l - 273 := Nat.mod_eq_of_lt (by omega)
    rw [encode_match4_values, hlen, hdist]

/-- Settles O6: the length fits the form that is chosen for it, and the zero short size is read back where no escape can
follow. -/
theorem sizeHeaderWritten : Obligations.SizeHeaderWritten := by
  refine ⟨fun n hn => ?_, fun rest hrest => decodeSize_short 0 fun _ => hrest⟩
  rw [sizeInstr]
  by_cases hshort : n < 0xFFFFFF
  · have hval : (BitVec.ofNat 24 n).toNat = n := Nat.mod_eq_of_lt (by omega)
    rw [if_pos hshort, if_pos hshort, if_pos hshort, encode_sizeShort_values, hval]
    exact ⟨rfl, rfl⟩
  · have hval : (BitVec.ofNat 32 n).toNat = n := Nat.mod_eq_of_lt (by omega)
    rw [if_neg hshort, if_neg hshort, if_neg hshort, encode_sizeEscape_values, hval]
    exact ⟨rfl, rfl⟩

end Sys2Proof.Machine
end

section
/-! SUPPORT. ENCODE_TOKENS writes the framed stream of its tokens (rules R77, R135 and R232): each step of its loop frames the
next token of the sequence. -/

namespace Sys2Proof.Machine

/-- An ENCODE_TOKENS at the head of its token loop, which has framed the tokens before `j` after this header. -/
structure State.EncodingTokens (s : State) (hdr : List Byte) : Prop where
  running : s.Running (.enc .tokens .loop)
  framed : s.Framed hdr (s.tokens.take s.tokIdx)

/-- While tokens are left, a step of ENCODE_TOKENS frames the next one. -/
theorem State.EncodingTokens.step_token {s : State} {hdr : List Byte} (h : s.EncodingTokens hdr)
    (hlt : s.tokIdx < s.tokens.length) :
    ∃ t, step s = .next t ∧ t.EncodingTokens hdr ∧ t.tokens = s.tokens ∧ t.tokIdx = s.tokIdx + 1 := by
  have hget : s.tokens[s.tokIdx]? = some s.tokens[s.tokIdx] := List.getElem?_eq_getElem hlt
  have hnext : nextToken Config.here.hash4 .tokens s = some (tokenInstr s.tokens[s.tokIdx], s) := by
    rw [nextToken, hget, Option.map_some]
  obtain ⟨tok, htok⟩ := nextToken_token hnext
  have hframe := emit_frame (tokenInstr s.tokens[s.tokIdx]) s
  have hframed := h.framed.emit_token s.tokens[s.tokIdx]
  rw [List.take_append_getElem] at hframed
  refine ⟨encToken Config.here.hash4 (tokenInstr s.tokens[s.tokIdx]) tok.size .tokens s, ?_, ⟨?_, ?_⟩, ?_, rfl⟩
  · simp only [h.running.step_enc, selectEnc, hnext, Action.outcome, exec_token_enc h.running.phase htok]
  · rw [encToken, hframe]
    exact ⟨h.running.noReset, h.running.busy, h.running.phase⟩
  · rw [encToken, show (emit (tokenInstr s.tokens[s.tokIdx]) s).tokens = s.tokens by rw [hframe]]
    exact hframed.congr rfl rfl rfl rfl rfl
  · rw [encToken, hframe]

/-- ENCODE_TOKENS finishes from the head of its loop, with all its tokens framed (rule R232). -/
theorem State.EncodingTokens.finishes {s : State} {hdr : List Byte} (h : s.EncodingTokens hdr) :
    FinishesWith s (hdr ++ frame s.tokens) := by
  by_cases hlt : s.tokIdx < s.tokens.length
  · obtain ⟨t, hstep, ht, htokens, hidx⟩ := h.step_token hlt
    obtain ⟨v, hrun, hv⟩ := ht.finishes
    exact ⟨v, hrun.head hstep, htokens ▸ hv⟩
  · have hnext : nextToken Config.here.hash4 .tokens s = none := by
      rw [nextToken, List.getElem?_eq_none (Nat.le_of_not_lt hlt), Option.map_none]
    have hstep : step s = .next (finish (State.rewrite s.ph (accFinish s.acc s.cnt) s)) := by
      simp only [h.running.step_enc, selectEnc, hnext, Action.outcome, exec, execGroupHdr, h.running.phase, framerFinish]
    have hframed := h.framed
    rw [List.take_of_length_le (Nat.le_of_not_lt hlt)] at hframed
    exact (Reaches.refl s).finishesWith hstep hframed.close
termination_by s.tokens.length - s.tokIdx
decreasing_by rw [htokens]; omega

/-- Settles O53: the start is admitted, the header declares the tokens' length, and the loop frames them all. -/
theorem encodeTokensWritesTheFramedStream : Obligations.EncodeTokensWritesTheFramedStream := by
  intro s h ho hin hok
  have hstart := h.step_start
  rw [jobStart_admitted ho hin (by simp) fun _ => hok] at hstart
  have hrun : (beginTokens s).Running (.enc .tokens .magic) := ⟨h.2.2.2, rfl, rfl⟩
  obtain ⟨t, hreach, htrun, hframed, ht⟩ := hrun.writes_header ⟨rfl, fun x => by simp [beginTokens, State.outByte]⟩
  have htokens : t.tokens = s.tokens := by rw [ht]; rfl
  have hidx : t.tokIdx = 0 := by rw [ht]; rfl
  have henc : t.EncodingTokens (encode .magic ++ encode (sizeInstr (tokensLength s.tokens))) :=
    ⟨htrun, by rw [hidx]; exact hframed⟩
  obtain ⟨v, hv, hres⟩ := henc.finishes
  rw [htokens] at hres
  exact ⟨v, (hreach.runsTo hv).head hstart, hres⟩

end Sys2Proof.Machine
end

section
/-! SUPPORT. The elements that DECOMPRESS reads: where its steps fetch them, and what MAGIC, the size headers and GROUP_HDR do
there (rules R153 to R157). -/

namespace Sys2Proof.Machine

/-! ### The fetched element -/

/-- An element that the bytes at a place decode to is run on the state it was fetched in. -/
theorem fetch_of_decode {s : State} {pl : Place} {i : Instr} {n : Nat} (h : decode pl (fetchBytes pl s) = .ok i n) :
    fetch pl s = .exec i s := by
  rw [fetch, h]

/-- While output is needed, the token loop runs the element at its place (rules R155 to R157). -/
theorem State.Running.step_loop_of_decode {s : State} (h : s.Running (.dec .loop)) (hlt : s.outLen < s.dlen.toNat)
    {pl : Place} (hpl : loopPlace s = pl) {i : Instr} {n : Nat} (hd : decode pl (fetchBytes pl s) = .ok i n) :
    step s = exec i s := by
  rw [h.step_dec, selectDec, if_pos hlt, hpl, fetch_of_decode hd, Action.outcome]

/-- Settles O8: at each point the decoder reads the bytes that the statement names, and `step` runs what they decode to. -/
theorem stepRunsTheFetchedElement : Obligations.StepRunsTheFetchedElement := by
  intro s i n hreset hbusy
  refine ⟨fun hp hd => ?_, fun hp hd => ?_, fun hp hlt hr hd => ?_, fun hp hlt hr htag hd => ?_,
    fun hp hlt hr htag hd => ?_⟩
  · rw [State.Running.step_dec ⟨hreset, hbusy, hp⟩, selectDec, fetch_of_decode hd, Action.outcome]
  · rw [State.Running.step_dec ⟨hreset, hbusy, hp⟩, selectDec, fetch_of_decode hd, Action.outcome]
  · exact State.Running.step_loop_of_decode ⟨hreset, hbusy, hp⟩ hlt (if_pos hr) hd
  · exact State.Running.step_loop_of_decode ⟨hreset, hbusy, hp⟩ hlt (by rw [loopPlace, if_neg hr, htag]) hd
  · exact State.Running.step_loop_of_decode ⟨hreset, hbusy, hp⟩ hlt (by rw [loopPlace, if_neg hr, htag]) hd

/-! ### The header and the group header -/

/-- Settles O15: the minimum-length test after the magic byte passes (rule R153). -/
theorem magicIsParsed : Obligations.MagicIsParsed := by
  intro s hp hlen
  simp only [exec, execMagic, hp, decMagic, if_neg (Nat.not_lt.2 hlen)]

/-- The parse of a declared length opens the token loop, or rejects a length above MAX_OUT with only `D`, `pos` and the result
fields written (rule R154). -/
theorem decSize_outcome (cfg : Config) (hdrLen : Nat) (d : BitVec 32) (s : State) :
    if d.toNat ≤ cfg.maxOut then
      decSize cfg hdrLen d s =
        { s with dlen := d, pos := hdrLen, outLen := 0, hdr := 0, rem := 0, phase := .dec .loop }
    else
      decSize cfg hdrLen d s =
        { s with dlen := d, pos := hdrLen, status := .rejected, errPayload := Reason.outputTooLarge.code
                 payloadGiven := true, outLenReg := (decSize cfg hdrLen d s).outLenReg, busy := false
                 phase := .idle, draws := (decSize cfg hdrLen d s).draws } := by
  simp only [decSize]
  by_cases hmax : d.toNat ≤ cfg.maxOut
  · rw [if_pos hmax, if_neg (Nat.not_lt.2 hmax)]
  · rw [if_neg hmax, if_pos (Nat.lt_of_not_le hmax)]
    rfl

/-- Settles O16: both forms are the parse of the length they declare; the short one is widened without loss. -/
theorem sizeHeaderIsParsed : Obligations.SizeHeaderIsParsed := by
  intro s hp
  refine ⟨fun n => ⟨decSize Config.here hdrLenShort (n.setWidth 32) s, ?_, ?_⟩,
    fun n => ⟨decSize Config.here hdrLenEscape n s, ?_, decSize_outcome Config.here hdrLenEscape n s⟩⟩
  · simp only [exec, execSizeShort, hp]
  · have hval : (n.setWidth 32).toNat = n.toNat := BitVec.toNat_setWidth_of_le (by decide)
    have hout := decSize_outcome Config.here hdrLenShort (n.setWidth 32) s
    rwa [hval] at hout
  · simp only [exec, execSizeEscape, hp]

/-- Settles O19: GROUP_HDR in the token loop is HEADER_LOAD (rule R156). -/
theorem groupHeaderIsLoaded : Obligations.GroupHeaderIsLoaded := by
  intro s tags hp
  simp only [exec, execGroupHdr, hp, headerLoad]

end Sys2Proof.Machine
end

section
/-! SUPPORT. The token codec of 40_token_codec.md: the round trip of a token (rule R116), and what LIT and the match tiers do
in the token loop of DECOMPRESS (rules R110 to R114 and R158 to R162). -/

namespace Sys2Proof.Machine

/-! ### The round trip of a token -/

/-- The bytes of a token in the operand range read back as its element under its tag, whatever follows them (rule R116). -/
theorem decode_tokenBytes {t : Token} (ht : t.encodable = true) (rest : List Byte) :
    decode (.token (tokenTag t)) (tokenBytes t ++ rest) = .ok (tokenInstr t) (tokenBytes t).length :=
  decode_encode (tokenInstr_wf ht) (placeOf_tokenInstr t) fun h => by simpa [h, placeOf] using placeOf_tokenInstr t

/-- Settles O3: every such token is in the operand range, and its element stands for it. -/
theorem tokenRoundTrip : Obligations.TokenRoundTrip := by
  refine ⟨fun d l rest hd hd' hl hl' => ?_, fun b rest => decode_tokenBytes (t := .lit b) rfl rest⟩
  have ht : (Token.copy d l).encodable = true := decide_eq_true ⟨hd, hd', hl, hl'⟩
  exact ⟨tokenInstr (.copy d l), decode_tokenBytes ht rest, instrToken_tokenInstr ht⟩

/-! ### Tokens in DECOMPRESS -/

/-- The shift of TAG_ADVANCE as a number (rule R162). -/
theorem shiftHdr_value (hdr : Byte) : (shiftHdr hdr).toNat = 2 * hdr.toNat % 256 := by
  rw [shiftHdr, BitVec.toNat_shiftLeft, Nat.shiftLeft_eq, Nat.mul_comm]

/-- Settles O24: the byte is appended, and its tag is shifted out. -/
theorem literalIsDecoded : Obligations.LiteralIsDecoded := by
  intro s v hp
  refine ⟨decLit v s, ?_, rfl, shiftHdr_value s.hdr, fun x => memory_read_write s.outMem s.outLen x v⟩
  simp only [exec, execLit, hp]

/-- BACKREF_COPY within the declared length copies and counts every byte, and never reaches OVERRUN_HANDLE (rules R160 and
R161). -/
theorem backrefCopy_of_fits (d : Nat) {l : Nat} {s : State} (hl : s.outLen + l ≤ s.dlen.toNat) :
    (backrefCopy d l s).1.outLen = s.outLen + l ∧ (backrefCopy d l s).2 = false ∧
      (backrefCopy d l s).1.temps = { s.temps with k := s.temps.k + BitVec.ofNat 17 l } := by
  obtain ⟨hlen, hover⟩ := backrefCopy_outLen d l s (Nat.le_of_add_right_le hl)
  refine ⟨hlen.trans (Nat.min_eq_left hl), Bool.eq_false_iff.2 fun h => ?_, (backrefCopy_temps d l s).2 hl⟩
  exact Nat.not_lt.2 hl (hover.1 h)

/-- A match that passes BACKREF_CHECK and fits the declared length is copied whole and uses up its tag (rules R159, R160 and
R162). -/
theorem decMatch_of_fits (cfg : Config) (i : Instr) {d l : Nat} {s : State} (hd : d ≤ s.outLen)
    (hl : s.outLen + l ≤ s.dlen.toNat) :
    decMatch cfg i d l s = tagAdvance (backrefCopy d l (beginCopy d (noteMatch (encode i) d l s))).1 := by
  obtain ⟨-, hflag, -⟩ := backrefCopy_of_fits d (s := beginCopy d (noteMatch (encode i) d l s)) hl
  simp only [decMatch, decBackref, noteMatch_outLen, if_neg (Nat.not_lt.2 hd), endCopy, hflag]

/-- Settles O25: the copy is whole, so that the facts about BACKREF_COPY give its bytes and the registers, whose widths hold the
operands of a well-formed match. -/
theorem matchIsCopied : Obligations.MatchIsCopied := by
  intro s i d l hp hw hi hd hl
  obtain ⟨hd1, hd4096, -, hl65808⟩ := instrToken_range hw hi
  obtain ⟨hlen, -, htemps⟩ := backrefCopy_of_fits d (s := beginCopy d (noteMatch (encode i) d l s)) hl
  rw [beginCopy_outLen, noteMatch_outLen] at hlen
  refine ⟨_, (exec_match_dec hp hi).trans (congrArg _ (decMatch_of_fits _ _ hd hl)), ?_, ?_, ?_, ?_, ?_, ?_,
    fun x hx hx' => ?_, fun x hx => ?_⟩
  · rw [← hlen, backrefCopy_frame]; rfl
  · rw [tagAdvance_hdr, backrefCopy_frame]; exact shiftHdr_value s.hdr
  · rw [tagAdvance_temps, htemps]; exact Nat.mod_eq_of_lt (by omega)
  · rw [tagAdvance_temps, htemps]; exact Nat.mod_eq_of_lt (by omega)
  · rw [tagAdvance_temps, htemps]; rfl
  · rw [tagAdvance_temps, htemps]
    exact (congrArg BitVec.toNat (BitVec.zero_add _)).trans (Nat.mod_eq_of_lt (by omega))
  · refine backrefCopy_bytes d l _ hd1 ?_ x ?_ (by rwa [hlen])
    · exact hd
    · exact hx
  · exact (backrefCopy_keeps d l _).2 x (by rwa [hlen])

end Sys2Proof.Machine
end

section
/-! SUPPORT. The group framer of 41_group_framer.md: PUSH_TAG, EMIT and the two ends of the framer as next states, the
registrations of a span, and the length of a framed stream. -/

namespace Sys2Proof.Machine

/-! ### PUSH_TAG (rule R132) -/

theorem tagBit_value (tag : Bool) : (tagBit tag).toNat = tag.toNat := by
  cases tag <;> rfl

/-- The shift leaves bit 0 free for the tag. -/
theorem accPush_value (acc : Byte) (tag : Bool) : (accPush acc tag).toNat = (2 * acc.toNat + tag.toNat) % 256 := by
  have htag : tag.toNat < 2 := Bool.toNat_lt tag
  have hshift : acc.toNat * 2 ^ 1 % 2 ^ 8 = 2 ^ 1 * (acc.toNat % 128) := by omega
  rw [accPush, BitVec.toNat_or, BitVec.toNat_shiftLeft, Nat.shiftLeft_eq, tagBit_value, hshift,
    ← Nat.two_pow_add_eq_or_of_lt htag]
  omega

theorem pushTag_open (tag : Bool) {s : State} (h : s.cnt ≠ 8) :
    pushTag tag s = { s with acc := accPush s.acc tag, cnt := s.cnt + 1 } := by
  simp only [pushTag, flushIfFull, if_neg h]

theorem pushTag_full (tag : Bool) {s : State} (h : s.cnt = 8) :
    pushTag tag s =
      { s with outMem := Memory.write (Memory.write s.outMem s.ph s.acc) s.outLen 0, outLen := s.outLen + 1,
               ph := s.outLen, acc := accPush 0 tag, cnt := 1 } := by
  simp only [pushTag, flushIfFull, if_pos h]
  rfl

/-- Settles O23: the two cases of the flush. The placeholder of a full group lies below `out_len`, so that the new placeholder
does not overwrite the header. -/
theorem tagIsPushed : Obligations.TagIsPushed := by
  refine fun s tag => ⟨fun hopen => ?_, fun hfull hph => ?_⟩
  · rw [pushTag_open tag hopen]
    exact ⟨rfl, accPush_value s.acc tag⟩
  · rw [pushTag_full tag hfull]
    refine ⟨rfl, ?_, fun x => ?_⟩
    · have htag : tag.toNat < 2 := Bool.toNat_lt tag
      have hacc := accPush_value 0 tag
      simp only [BitVec.ofNat_eq_ofNat, BitVec.toNat_ofNat] at hacc ⊢
      omega
    · simp only [State.outByte, memory_read_write]
      by_cases hx : x = s.ph
      · rw [if_neg (by omega), if_pos hx, if_pos hx]
      · rw [if_neg hx, if_neg hx]

/-! ### The first placeholder and the last header (rules R131 and R134) -/

/-- Settles O22: FRAMER_INIT writes one byte, at `out_len`. -/
theorem firstPlaceholderIsReserved : Obligations.FirstPlaceholderIsReserved := by
  intro s j hreset hbusy hp
  exact ⟨_, State.Running.step_encInit ⟨hreset, hbusy, hp⟩, rfl, fun x => memory_read_write s.outMem s.outLen x 0⟩

/-- Settles O21. -/
theorem lastGroupHeaderIsLeftAligned : Obligations.LastGroupHeaderIsLeftAligned := by
  intro acc cnt _
  rw [accFinish, BitVec.toNat_shiftLeft, Nat.shiftLeft_eq]

/-- Settles O20: GROUP_HDR in an encoder's loop is FRAMER_FINISH, which writes one byte, at `ph`. -/
theorem lastGroupHeaderEndsTheJob : Obligations.LastGroupHeaderEndsTheJob := by
  intro s j tags hp
  refine ⟨framerFinish tags s, ?_, rfl, fun x => memory_read_write s.outMem s.ph x tags⟩
  simp only [exec, execGroupHdr, hp]

/-! ### EMIT (rule R133) -/

/-- The bytes appended stand in `OUT` in their order, from the old `out_len` on. -/
theorem appendBytes_outByte {bs : List Byte} {k : Nat} (s : State) (hk : k < bs.length) :
    bs[k]? = some ((State.appendBytes bs s).outByte (s.outLen + k)) := by
  rw [appendBytes_eq, State.outByte, memory_read_writeBytes, if_pos (by omega), Nat.add_sub_cancel_left,
    List.getD_eq_getElem _ _ hk, List.getElem?_eq_getElem hk]

/-- Appending leaves every byte of `OUT` outside the appended range alone. -/
theorem appendBytes_outByte_outside {bs : List Byte} {x : Nat} (s : State)
    (hx : x < s.outLen ∨ (State.appendBytes bs s).outLen ≤ x) :
    (State.appendBytes bs s).outByte x = s.outByte x := by
  rw [appendBytes_eq] at hx ⊢
  have hrange : ¬ (s.outLen ≤ x ∧ x < s.outLen + bs.length) := by
    rintro ⟨hle, hlt⟩
    exact hx.elim (Nat.not_lt.2 hle) (Nat.not_le.2 hlt)
  rw [State.outByte, memory_read_writeBytes, if_neg hrange, State.outByte]

/-- The tag of a token's element is the tag of the token (rule R15). -/
theorem instrTag_of_instrToken {i : Instr} {tok : Token} (h : instrToken i = some tok) : instrTag i = tokenTag tok := by
  cases i <;> simp only [instrToken, reduceCtorEq, Option.some.injEq] at h <;> subst h <;> rfl

/-- Settles O30: ENCODE_TOKENS only emits, and EMIT appends the token's bytes to what PUSH_TAG leaves. -/
theorem tokenIsEncoded : Obligations.TokenIsEncoded := by
  intro s i tok hp hi
  have hemit : emit i s = State.appendBytes (encode i) (pushTag (tokenTag tok) s) := by
    rw [emit, instrTag_of_instrToken hi]
  refine ⟨{ emit i s with tokIdx := s.tokIdx + 1 }, ?next, ?frame, ?acc, ?cnt, ?ph, ?length, fun k hk => ?inside,
    fun x hx => ?outside⟩
  case next => rw [exec_token_enc hp hi, encToken, emit_frame]
  case frame => rw [emit_frame]
  case acc | cnt | ph | length => rw [hemit, appendBytes_eq]
  case inside =>
    rw [hemit]
    exact appendBytes_outByte _ hk
  case outside =>
    rw [hemit] at hx ⊢
    exact appendBytes_outByte_outside _ hx

/-! ### The registrations of a span (rules R194 and R197) -/

@[simp] theorem hasWindow_register (h4 : Hash4) (p q : Nat) (s : State) :
    HasWindow (register h4 p s) q ↔ HasWindow s q := by
  rw [register_frame]

@[simp] theorem hashWindow_register (h4 : Hash4) (p q : Nat) (s : State) :
    hashWindow h4 (register h4 p s) q = hashWindow h4 s q := by
  rw [register_frame]
  rfl

/-- REGISTER writes the slot of the window at its position, if there is one, and no other slot. -/
theorem lookup_register (h4 : Hash4) (p : Nat) (s : State) (h : BitVec 16) :
    lookup (register h4 p s) h = if HasWindow s p ∧ hashWindow h4 s p = h then some p else lookup s h := by
  by_cases hwin : HasWindow s p
  · rw [register, if_pos hwin, lookup, table_lookup_insert]
    simp only [BitVec.toNat_inj, eq_comm, hwin, true_and, lookup]
  · rw [register, if_neg hwin, if_neg fun hp => hwin hp.1, lookup, lookup]

/-- A slot that no window of the span hashes to is as before. -/
theorem lookup_registerSpan_other {h4 : Hash4} {p n : Nat} {s : State} {h : BitVec 16}
    (hne : ∀ q, p ≤ q → q < p + n → HasWindow s q → hashWindow h4 s q ≠ h) :
    lookup (registerSpan h4 p n s) h = lookup s h := by
  induction n generalizing p s with
  | zero => rfl
  | succ n ih =>
    rw [registerSpan, ih, lookup_register, if_neg fun hp => hne p (Nat.le_refl p) (by omega) hp.1 hp.2]
    intro q hq hq' hwin
    rw [hashWindow_register]
    exact hne q (by omega) (by omega) ((hasWindow_register h4 p q s).1 hwin)

/-- The last window of the span that hashes to a slot is the one the slot holds. -/
theorem lookup_registerSpan_last {h4 : Hash4} {p n q : Nat} {s : State} (hq : p ≤ q) (hq' : q < p + n)
    (hwin : HasWindow s q)
    (hlast : ∀ r, q < r → r < p + n → HasWindow s r → hashWindow h4 s r ≠ hashWindow h4 s q) :
    lookup (registerSpan h4 p n s) (hashWindow h4 s q) = some q := by
  induction n generalizing p s with
  | zero => omega
  | succ n ih =>
    have hlast' : ∀ r, q < r → r < p + 1 + n → HasWindow (register h4 p s) r →
        hashWindow h4 (register h4 p s) r ≠ hashWindow h4 s q := by
      intro r hr hr' hwin'
      rw [hashWindow_register]
      exact hlast r hr (by omega) ((hasWindow_register h4 p r s).1 hwin')
    rw [registerSpan]
    rcases Nat.eq_or_lt_of_le hq with rfl | hlt
    · rw [lookup_registerSpan_other hlast', lookup_register, if_pos ⟨hwin, rfl⟩]
    · rw [← hashWindow_register h4 p q s] at hlast' ⊢
      exact ih hlt (by omega) ((hasWindow_register h4 p q s).2 hwin) hlast'

@[simp] theorem hasWindow_emit (i : Instr) (s : State) (p : Nat) : HasWindow (emit i s) p ↔ HasWindow s p := by
  rw [emit_frame]

@[simp] theorem lookup_emit (i : Instr) (s : State) (h : BitVec 16) : lookup (emit i s) h = lookup s h := by
  rw [emit_frame]
  rfl

@[simp] theorem hashWindow_emit (h4 : Hash4) (i : Instr) (s : State) (p : Nat) :
    hashWindow h4 (emit i s) p = hashWindow h4 s p := by
  rw [emit_frame]
  rfl

/-- Settles O31: a token in COMPRESS is emitted, and then its span is registered, which EMIT does not disturb. -/
theorem tokenIsEmittedAndRegistered : Obligations.TokenIsEmittedAndRegistered := by
  intro s i tok hp hi
  refine ⟨finderEmit Config.here.hash4 i tok.size s, exec_token_enc hp hi, finderEmit_frame _ i tok.size s,
    fun p hcur hend hwin hlast => ?_, fun h hne => ?_⟩
  · have hspan := lookup_registerSpan_last (h4 := Config.here.hash4) (s := emit i s) hcur hend
    simp only [hasWindow_emit, hashWindow_emit] at hspan
    exact hspan hwin hlast
  · have hspan := lookup_registerSpan_other (h4 := Config.here.hash4) (s := emit i s) (p := s.cur) (n := tok.size) (h := h)
    simp only [hasWindow_emit, hashWindow_emit, lookup_emit] at hspan
    exact hspan hne

/-! ### The length of a framed stream (rules R135 and R223) -/

theorem groupBytes_length (ts : List Token) :
    (groupBytes ts).length = 1 + (ts.map fun t => (tokenBytes t).length).sum := by
  rw [groupBytes, List.length_cons, List.length_flatten, List.map_map, Nat.add_comm]
  rfl

/-- One header for each group of 8 tokens, and one for the empty sequence. -/
theorem frame_length (ts : List Token) :
    (frame ts).length = max 1 ((ts.length + 7) / 8) + (ts.map fun t => (tokenBytes t).length).sum := by
  by_cases hle : ts.length ≤ 8
  · rw [frame_of_length_le hle, groupBytes_length, Nat.max_eq_left (by omega)]
  · have hgroup : (ts.take 8).length = 8 := by rw [List.length_take]; omega
    have hrest : (ts.drop 8).length = ts.length - 8 := List.length_drop
    have hne : ts.drop 8 ≠ [] := List.ne_nil_of_length_pos (by omega)
    have hsum : (ts.map fun t => (tokenBytes t).length).sum =
        ((ts.take 8).map fun t => (tokenBytes t).length).sum +
          ((ts.drop 8).map fun t => (tokenBytes t).length).sum := by
      rw [← List.sum_append, ← List.map_append, List.take_append_drop]
    calc (frame ts).length
        = (groupBytes (ts.take 8)).length + (frame (ts.drop 8)).length := by
          rw [← List.length_append, ← frame_append hgroup hne, List.take_append_drop]
      _ = max 1 ((ts.length + 7) / 8) + (ts.map fun t => (tokenBytes t).length).sum := by
          rw [groupBytes_length, frame_length (ts.drop 8), hsum, hrest]
          omega
termination_by ts.length

/-- The length of the size header is that of the form the length selects (rule R74). -/
theorem encode_sizeInstr_length_eq (n : Nat) : (encode (sizeInstr n)).length = if n < 0xFFFFFF then 3 else 7 := by
  rw [sizeInstr]
  split <;> rfl

/-- Settles O57: the magic byte, the size header and the frame. -/
theorem framedStreamLength : Obligations.FramedStreamLength := by
  intro ts
  rw [streamOf, List.length_append, List.length_append, frame_length, encode_sizeInstr_length_eq, ← Nat.add_assoc,
    show (encode .magic).length = 1 from rfl, apply_ite (1 + ·)]

end Sys2Proof.Machine
end

section
/-! SUPPORT. DECOMPRESS ends on any input (rule R167): a step of a running DECOMPRESS always has a next state, and each one that
does not end the job leaves fewer steps to make. -/

namespace Sys2Proof.Machine

/-! ### A step always has a next state -/

/-- The point of a DECOMPRESS at which the element at a place is read (rules R153 to R157). -/
def pointOfPlace : Place → DecPoint
  | .magic => .magic
  | .size => .size
  | .groupHdr => .loop
  | .token _ => .loop

/-- An element is never refused at the point of its place. -/
theorem exec_dec_next {i : Instr} {pl : Place} (hi : placeOf i = some pl) {s : State}
    (hp : s.phase = .dec (pointOfPlace pl)) : ∃ t, exec i s = .next t := by
  cases i with
  | magic | sizeShort | sizeEscape | groupHdr | lit =>
    cases hi
    simp [exec, execMagic, execSizeShort, execSizeEscape, execGroupHdr, execLit, hp, pointOfPlace]
  | match2 | match3 | match4 =>
    cases hi
    exact ⟨_, exec_match_dec hp rfl⟩
  | compress | decompress | encodeTokens => simp [placeOf] at hi

/-- What is fetched at a point of a DECOMPRESS has a next state, whether or not the bytes there are an element. -/
theorem fetch_next (pl : Place) {s : State} (hp : s.phase = .dec (pointOfPlace pl)) :
    ∃ t, (fetch pl s).outcome = .next t := by
  rw [fetch]
  cases hd : decode pl (fetchBytes pl s) with
  | ok i n =>
    obtain ⟨-, hi, -⟩ := encodeOfDecodeIsTheBytes pl _ i n hd
    exact exec_dec_next hi hp
  | bad e => exact ⟨_, rfl⟩

theorem pointOfPlace_loopPlace (s : State) : pointOfPlace (loopPlace s) = .loop := by
  rw [loopPlace]
  split <;> rfl

/-- A running DECOMPRESS is never stuck. -/
theorem State.Running.dec_next {s : State} {p : DecPoint} (h : s.Running (.dec p)) : ∃ t, step s = .next t := by
  rw [h.step_dec]
  cases p with
  | magic => exact fetch_next .magic h.phase
  | size => exact fetch_next .size h.phase
  | loop =>
    by_cases hlt : s.outLen < s.dlen.toNat
    · rw [selectDec, if_pos hlt]
      exact fetch_next (loopPlace s) (pointOfPlace_loopPlace s ▸ h.phase)
    · rw [selectDec, if_neg hlt]
      exact ⟨_, rfl⟩

/-- Of the next states of a step, those of a running DECOMPRESS are the ones listed for its point. -/
theorem State.Running.step_decNext {s : State} {p : DecPoint} (h : s.Running (.dec p)) :
    ∃ t, step s = .next t ∧ DecNext s p t := by
  obtain ⟨t, hstep⟩ := h.dec_next
  exact ⟨t, hstep, selectDec_next h.phase (h.step_dec ▸ hstep)⟩

/-! ### Each step ends the job or comes closer to its end -/

/-- A running DECOMPRESS that has not passed its declared length (rule R161). -/
structure State.Decompressing (s : State) (p : DecPoint) : Prop where
  running : s.Running (.dec p)
  within : p = .loop → s.outLen ≤ s.dlen.toNat

/-- The end of a DECOMPRESS: after OK the output has the declared length (rule R164). -/
structure State.Decompressed (s : State) : Prop where
  idle : s.busy = false
  declared : s.status = .ok → s.outLenReg = s.dlen.toNat

/-- An upper bound of the steps that do not end the job: in the token loop each of them reads a byte (rule R167). -/
def State.decWork (s : State) : DecPoint → Nat
  | .magic => s.inLen + 2
  | .size => s.inLen + 1
  | .loop => s.inLen - s.pos

/-- From a point of a DECOMPRESS, a state that ends the job or goes on with less work left. -/
def State.Advances (s : State) (p : DecPoint) (t : State) : Prop :=
  t.Decompressed ∨ ∃ q, t.Decompressing q ∧ t.decWork q < s.decWork p

/-- The size header ends the job or opens the token loop with nothing produced (rule R154). -/
theorem State.Decompressing.decSize_advances {s : State} (h : s.Decompressing .size) (cfg : Config) (hdrLen : Nat)
    (d : BitVec 32) : s.Advances .size (decSize cfg hdrLen d s) := by
  rw [decSize]
  split
  · exact .inl ⟨rfl, nofun⟩
  · exact .inr ⟨.loop, ⟨⟨h.running.noReset, h.running.busy, rfl⟩, fun _ => Nat.zero_le _⟩,
      Nat.lt_succ_of_le (Nat.sub_le _ _)⟩

theorem encode_match_length_pos {i : Instr} {d l : Nat} (hi : instrToken i = some (.copy d l)) :
    0 < (encode i).length := by
  cases i with
  | match2 | match3 | match4 => exact Nat.succ_pos _
  | _ => simp [instrToken] at hi

/-- A match token ends the job or is passed, with no more produced than declared (rules R159 to R162). -/
theorem State.Decompressing.decMatch_advances {s : State} (h : s.Decompressing .loop) (cfg : Config) {i : Instr}
    {d l : Nat} (hi : instrToken i = some (.copy d l)) (hpos : s.pos + (encode i).length ≤ s.inLen) :
    s.Advances .loop (decMatch cfg i d l s) := by
  obtain ⟨n, c, u, hc, hu, e | e⟩ := decMatch_cases cfg i d l s <;> rw [e]
  · obtain ⟨hlen, -⟩ := backrefCopy_outLen d n (beginCopy d (noteMatch (encode i) d l s)) (h.within rfl)
    have hwithin : c.outLen ≤ s.dlen.toNat := by
      rw [hc, hlen]
      exact Nat.min_le_right _ _
    have hread := encode_match_length_pos hi
    have hwork : s.inLen - (s.pos + (encode i).length) < s.inLen - s.pos := by omega
    rw [hu]
    exact .inr ⟨.loop, ⟨⟨h.running.noReset, h.running.busy, h.running.phase⟩, fun _ => hwithin⟩, hwork⟩
  · exact .inl ⟨rfl, nofun⟩

/-- Every step of DECOMPRESS ends the job or leaves less work (rules R153 to R163). -/
theorem State.Decompressing.advances {s t : State} {p : DecPoint} (h : s.Decompressing p) (hn : DecNext s p t) :
    s.Advances p t := by
  have hrun := h.running
  cases hn with
  | noMagic | badMagic | noSize | noHeader | noLit | noMatch => exact .inl ⟨rfl, nofun⟩
  | magic =>
    rw [decMagic]
    split
    · exact .inl ⟨rfl, nofun⟩
    · exact .inr ⟨.size, ⟨⟨hrun.noReset, hrun.busy, rfl⟩, nofun⟩, Nat.lt_succ_self _⟩
  | short | escape => exact h.decSize_advances _ _ _
  | done hge => exact .inl ⟨rfl, fun _ => Nat.le_antisymm (h.within rfl) hge⟩
  | header tags hlt hr hpos =>
    exact .inr ⟨.loop, ⟨⟨hrun.noReset, hrun.busy, hrun.phase⟩, h.within⟩, Nat.sub_succ_lt_self _ _ hpos⟩
  | lit v hlt hr hpos =>
    exact .inr ⟨.loop, ⟨⟨hrun.noReset, hrun.busy, hrun.phase⟩, fun _ => hlt⟩, Nat.sub_succ_lt_self _ _ hpos⟩
  | token i d l hlt hr hi hd hl hpos => exact h.decMatch_advances _ hi hpos

/-- DECOMPRESS ends from each of its points. -/
theorem State.Decompressing.ends {s : State} {p : DecPoint} (h : s.Decompressing p) :
    ∃ t, RunsTo s t ∧ t.Decompressed := by
  obtain ⟨u, hstep, hn⟩ := h.running.step_decNext
  obtain hu | ⟨q, hu, hwork⟩ := h.advances hn
  · exact ⟨u, runsTo_of_step hstep hu.idle, hu⟩
  · obtain ⟨t, hrun, ht⟩ := hu.ends
    exact ⟨t, hrun.head hstep, ht⟩
termination_by s.decWork p

/-- A start of DECOMPRESS is rejected or opens the job (rules R280 and R281). -/
theorem State.Ready.decompress_ends {s : State} (h : s.Ready .decompress) : ∃ t, RunsTo s t ∧ t.Decompressed := by
  have hstart := h.step_start
  rw [jobStart] at hstart
  obtain ⟨-, -, -, hreset⟩ := h
  split at hstart
  · exact ⟨_, runsTo_of_step hstart rfl, rfl, nofun⟩
  · have hbegin : (beginDecompress s).Decompressing .magic := ⟨⟨hreset, rfl, rfl⟩, nofun⟩
    obtain ⟨t, hrun, ht⟩ := hbegin.ends
    exact ⟨t, hrun.head hstart, ht⟩

/-- Settles O52: the job ends whether or not its start is admitted, and what it hands over has OUT_LEN bytes. -/
theorem decompressAlwaysEnds : Obligations.DecompressAlwaysEnds := by
  intro s h
  obtain ⟨t, hrun, ht⟩ := h.decompress_ends
  refine ⟨t, hrun, fun hok => ⟨ht.declared hok, ?_⟩⟩
  rw [State.result, memory_readBytes_length, ht.declared hok]

end Sys2Proof.Machine
end

section
/-! SUPPORT. The header of a DECOMPRESS from the bytes of `IN` (rules R153, R154 and R75). -/

namespace Sys2Proof.Machine

/-! ### The input byte by byte -/

/-- What is left of the input at a position within it. -/
theorem input_drop_of_lt {s : State} {a : Nat} (h : a < s.inLen) : s.input.drop a = s.inByte a :: s.input.drop (a + 1) := by
  rw [← List.getElem_cons_drop (by rwa [input_length])]
  exact congrArg (· :: _) (Option.some.inj ((List.getElem?_eq_getElem _).symm.trans (input_getElem? h)))

theorem input_drop_of_le {s : State} {a : Nat} (h : s.inLen ≤ a) : s.input.drop a = [] :=
  List.drop_eq_nil_of_le (by rwa [input_length])

/-! ### The magic byte (rule R153) -/

section
variable {s : State} (h : s.Running (.dec .magic))
include h

theorem State.Running.step_noMagic (hlen : s.inLen = 0) : step s = .next (raise .tooShort none s) := by
  have hbytes : fetchBytes .magic s = [] := by
    rw [fetchBytes, inBytes_eq_input, input_drop_of_le (hlen ▸ Nat.zero_le _)]; rfl
  rw [h.step_dec, selectDec, fetch, hbytes]; rfl

theorem State.Running.step_badMagic (hlen : 0 < s.inLen) (hb : s.inByte 0 ≠ 0x11) :
    step s = .next (raise .invalidMagic none s) := by
  have hbytes : fetchBytes .magic s = [s.inByte 0] := by
    rw [fetchBytes, inBytes_eq_input, placeOffset, input_drop_of_lt hlen]; rfl
  have hdec : decode .magic [s.inByte 0] = .bad .badMagic := if_neg hb
  rw [h.step_dec, selectDec, fetch, hbytes, hdec]; rfl

theorem State.Running.step_goodMagic (hlen : 0 < s.inLen) (hb : s.inByte 0 = 0x11) : step s = .next (decMagic s) := by
  have hin : s.input.drop 0 = encode .magic ++ s.input.drop 1 := by rw [input_drop_of_lt hlen, hb]; rfl
  have hf : fetch .magic s = .exec .magic s := fetch_element hin rfl rfl nofun
  simp only [h.step_dec, selectDec, hf, Action.outcome, exec, execMagic, h.phase]

end

/-- Settles O14: an empty stream has no magic byte to test; any other is tested before the minimum length. -/
theorem headerErrorsInOrder : Obligations.HeaderErrorsInOrder := by
  intro s hreset hbusy hp
  have h : s.Running (.dec .magic) := ⟨hreset, hbusy, hp⟩
  rcases Nat.eq_zero_or_pos s.inLen with hempty | hlen
  · refine ⟨_, h.step_noMagic hempty, ?_⟩
    rw [if_pos (.inl hempty)]
    rfl
  by_cases hb : s.inByte 0 = 0x11
  · refine ⟨_, h.step_goodMagic hlen hb, ?_⟩
    by_cases hshort : s.inLen < 4
    · rw [if_pos (.inr ⟨hb, hshort⟩), decMagic, if_pos hshort]
      rfl
    · rw [if_neg (by omega), if_neg (not_not_intro hb), decMagic, if_neg hshort]
  · refine ⟨_, h.step_badMagic hlen hb, ?_⟩
    rw [if_neg (by rintro (h0 | ⟨h0, -⟩); exacts [hlen.ne' h0, hb h0]), if_pos hb]
    rfl

/-! ### The size header (rules R75 and R154) -/

theorem le24_value (a b c : Byte) : (le24 a b c).toNat = a.toNat + 256 * b.toNat + 65536 * c.toNat := by
  rw [le24, append_value, append_value]
  omega

theorem le32_value (a b c d : Byte) :
    (le32 a b c d).toNat = a.toNat + 256 * b.toNat + 65536 * c.toNat + 16777216 * d.toNat := by
  rw [le32, append_value, append_value, append_value]
  omega

theorem encode_sizeShort_le24 (a b c : Byte) : encode (.sizeShort (le24 a b c)) = [a, b, c] := by
  obtain ⟨ha, hb, hc⟩ := bytes_le24 a b c
  rw [encode, ha, hb, hc]

theorem encode_sizeEscape_le32 (a b c d : Byte) : encode (.sizeEscape (le32 a b c d)) = [0, 0, 0, a, b, c, d] := by
  obtain ⟨ha, hb, hc, hd⟩ := bytes_le32 a b c d
  rw [encode, ha, hb, hc, hd]

section
variable {s : State} (h : s.Running (.dec .size))
include h

/-- A nonzero 24-bit field, or one that nothing can follow as an escape, is the declared length (rule R75). -/
theorem State.Running.step_sizeShort (hlen : 4 ≤ s.inLen)
    (hshort : le24 (s.inByte 1) (s.inByte 2) (s.inByte 3) = 0 → s.inLen < 8) :
    step s = .next
      (decSize Config.here hdrLenShort ((le24 (s.inByte 1) (s.inByte 2) (s.inByte 3)).setWidth 32) s) := by
  have hin : s.input.drop 1 =
      encode (.sizeShort (le24 (s.inByte 1) (s.inByte 2) (s.inByte 3))) ++ s.input.drop 4 := by
    simp (disch := omega) only [encode_sizeShort_le24, input_drop_of_lt, List.cons_append, List.nil_append]
  have hf := fetch_element (pl := .size) hin rfl rfl fun e => by
    have := hshort (Instr.sizeShort.inj e)
    rw [List.length_drop, input_length]
    omega
  simp only [h.step_dec, selectDec, hf, Action.outcome, exec, execSizeShort, h.phase]

/-- A zero 24-bit field that four bytes follow is an escape (rule R75). -/
theorem State.Running.step_sizeEscape (hlen : 8 ≤ s.inLen)
    (hzero : le24 (s.inByte 1) (s.inByte 2) (s.inByte 3) = 0) :
    step s = .next
      (decSize Config.here hdrLenEscape (le32 (s.inByte 4) (s.inByte 5) (s.inByte 6) (s.inByte 7)) s) := by
  obtain ⟨h1, h2, h3⟩ := le24_eq_zero hzero
  have hin : s.input.drop 1 =
      encode (.sizeEscape (le32 (s.inByte 4) (s.inByte 5) (s.inByte 6) (s.inByte 7))) ++ s.input.drop 8 := by
    simp (disch := omega) only [encode_sizeEscape_le32, input_drop_of_lt, h1, h2, h3, List.cons_append, List.nil_append]
  have hf := fetch_element (pl := .size) hin rfl rfl nofun
  simp only [h.step_dec, selectDec, hf, Action.outcome, exec, execSizeEscape, h.phase]

end

/-- What the parse of a declared length answers, within MAX_OUT and above it (rule R154). -/
theorem decSize_answer (cfg : Config) (hdrLen : Nat) (d : BitVec 32) (s : State) :
    (decSize cfg hdrLen d s).dlen = d ∧ (decSize cfg hdrLen d s).pos = hdrLen ∧
      (d.toNat ≤ cfg.maxOut → decSize cfg hdrLen d s =
        { s with dlen := d, pos := hdrLen, outLen := 0, hdr := 0, rem := 0, phase := .dec .loop }) ∧
      (cfg.maxOut < d.toNat → (decSize cfg hdrLen d s).status = .rejected ∧ (decSize cfg hdrLen d s).errPayload = 3 ∧
        (decSize cfg hdrLen d s).busy = false) := by
  have hout := decSize_outcome cfg hdrLen d s
  split at hout
  · rename_i hmax
    rw [hout]
    exact ⟨rfl, rfl, fun _ => rfl, fun hgt => absurd hmax (Nat.not_le.2 hgt)⟩
  · rename_i hmax
    rw [hout]
    exact ⟨rfl, rfl, fun hle => absurd hle hmax, fun _ => ⟨rfl, rfl, rfl⟩⟩

/-- Settles O17: the form of the header is chosen by the 24-bit field and the length of the stream, and both forms are the parse
of the length they declare. -/
theorem declaredLengthFromTheStream : Obligations.DeclaredLengthFromTheStream := by
  intro s hreset hbusy hp hlen n24 n32 h24 h32
  have h : s.Running (.dec .size) := ⟨hreset, hbusy, hp⟩
  rw [← le24_value] at h24
  rw [← le32_value] at h32
  have hzero : n24 = 0 ↔ le24 (s.inByte 1) (s.inByte 2) (s.inByte 3) = 0 := by
    rw [h24]
    exact BitVec.toNat_inj (y := 0)
  have hparse : ∃ hdrLen d, step s = .next (decSize Config.here hdrLen d s) ∧
      d.toNat = (if n24 = 0 ∧ 8 ≤ s.inLen then n32 else n24) ∧ hdrLen = if n24 = 0 ∧ 8 ≤ s.inLen then 8 else 4 := by
    by_cases hesc : n24 = 0 ∧ 8 ≤ s.inLen
    · rw [if_pos hesc, if_pos hesc]
      exact ⟨_, _, h.step_sizeEscape hesc.2 (hzero.1 hesc.1), h32.symm, rfl⟩
    · rw [if_neg hesc, if_neg hesc]
      refine ⟨_, _, h.step_sizeShort hlen fun h0 => ?_, ?_, rfl⟩
      · exact Nat.lt_of_not_le fun h8 => hesc ⟨hzero.2 h0, h8⟩
      · rw [h24, BitVec.toNat_setWidth_of_le (by decide)]
  obtain ⟨hdrLen, d, hstep, hval, hlenHdr⟩ := hparse
  obtain ⟨hd, hpos, hfit, hrej⟩ := decSize_answer Config.here hdrLen d s
  refine ⟨_, hstep, ?_⟩
  rw [hd, hpos]
  exact ⟨hval, hlenHdr, hfit, hrej⟩

end Sys2Proof.Machine
end

section
/-! SUPPORT. The token loop of DECOMPRESS at its limits: a distance beyond the output (rule R159), a match beyond the declared
length (rule R161), a stream that ends too early (rule R152), and the end of the job (rule R163). -/

namespace Sys2Proof.Machine

/-! ### BACKREF_CHECK (rule R159) -/

theorem decMatch_of_far (cfg : Config) (i : Instr) {d l : Nat} {s : State} (hd : s.outLen < d) :
    decMatch cfg i d l s = raise .invalidIndex none (noteMatch (encode i) d l s) :=
  if_pos hd

/-- A match that passes the check is copied as far as the declared length allows (rules R160 and R161). -/
theorem decMatch_of_near (cfg : Config) (i : Instr) {d l : Nat} {s : State} (hd : d ≤ s.outLen) :
    decMatch cfg i d l s = endCopy cfg.overrun (backrefCopy d l (beginCopy d (noteMatch (encode i) d l s))) :=
  if_neg (Nat.not_lt.2 hd)

/-- Settles O26: past the check neither the copy nor what follows it writes the source index. -/
theorem backreferenceIsChecked : Obligations.BackreferenceIsChecked := by
  intro s i d l hp hw hi
  refine ⟨_, exec_match_dec hp hi, fun hfar => ?_, fun hnear => ?_⟩
  · rw [decMatch_of_far _ _ hfar]
    rfl
  · obtain ⟨hsrc, -⟩ := backrefCopy_temps d l (beginCopy d (noteMatch (encode i) d l s))
    rw [decMatch_of_near _ _ hnear]
    rcases endCopy_cases Config.here.overrun (backrefCopy d l (beginCopy d (noteMatch (encode i) d l s))) with e | e <;>
      rw [e] <;> exact hsrc

/-! ### OVERRUN_HANDLE (rule R161) -/

/-- A match that would pass the declared length is copied up to it; under Truncate its tag is used up, under Error the job
ends. -/
theorem decMatch_of_overrun (cfg : Config) (i : Instr) {d l : Nat} {s c : State} (hd : d ≤ s.outLen)
    (hle : s.outLen ≤ s.dlen.toNat) (hlt : s.dlen.toNat < s.outLen + l)
    (hc : (backrefCopy d l (beginCopy d (noteMatch (encode i) d l s))).1 = c) :
    c.outLen = s.dlen.toNat ∧ (cfg.overrun = .truncate → decMatch cfg i d l s = tagAdvance c) ∧
      (cfg.overrun = .error → decMatch cfg i d l s = raise .invalidIndex none c) := by
  obtain ⟨hlen, hover⟩ := backrefCopy_outLen d l (beginCopy d (noteMatch (encode i) d l s)) hle
  have hflag := hover.2 hlt
  rw [decMatch_of_near cfg i hd, ← hc]
  refine ⟨hlen.trans (Nat.min_eq_right (Nat.le_of_lt hlt)), fun ho => ?_, fun ho => ?_⟩ <;> simp only [endCopy, hflag, ho]

/-- Settles O27: BACKREF_COPY stops at the declared length, and what follows it leaves the output alone. -/
theorem overrunStopsAtTheDeclaredLength : Obligations.OverrunStopsAtTheDeclaredLength := by
  intro s i d l hp hw hi hd hle hlt
  obtain ⟨hd1, -⟩ := instrToken_range hw hi
  have hframe := backrefCopy_frame d l (beginCopy d (noteMatch (encode i) d l s))
  have hbytes := backrefCopy_bytes d l (beginCopy d (noteMatch (encode i) d l s)) hd1 hd
  obtain ⟨-, hkeeps⟩ := backrefCopy_keeps d l (beginCopy d (noteMatch (encode i) d l s))
  generalize hc : (backrefCopy d l (beginCopy d (noteMatch (encode i) d l s))).1 = c at hframe hbytes hkeeps
  obtain ⟨hlen, htruncate, herror⟩ := decMatch_of_overrun Config.here i hd hle hlt hc
  rw [hlen] at hframe hbytes hkeeps
  refine ⟨_, exec_match_dec hp hi, ?_⟩
  cases ho : Config.here.overrun with
  | truncate =>
    rw [htruncate ho]
    refine ⟨hlen, hbytes, hkeeps, ?_, ?_⟩
    · rw [hframe]; rfl
    · rw [hframe]; exact shiftHdr_value s.hdr
  | error =>
    rw [herror ho]
    refine ⟨hlen, hbytes, hkeeps, ?_⟩
    rw [hframe]; rfl

/-! ### A read past the end of the stream (rule R152) -/

/-- A match token whose bytes end before its tier does (rules R111 to R114). -/
theorem decodeMatch_truncated {b0 : Byte} {rest : List Byte}
    (h : rest.length < 1 ∨ (hiNibble b0 = 0 ∧ rest.length < 2) ∨ (hiNibble b0 = 1 ∧ rest.length < 3)) :
    decodeMatch (b0 :: rest) = .bad .truncated := by
  rcases h with hlen | ⟨h0, hlen⟩ | ⟨h1, hlen⟩
  · match rest, hlen with
    | [], _ => rfl
  · match rest, hlen with
    | [], _ => rfl
    | [_], _ => simp only [decodeMatch, if_pos h0]
  · have h0 : hiNibble b0 ≠ 0 := by rw [h1]; decide
    match rest, hlen with
    | [], _ => rfl
    | [_], _ | [_, _], _ => simp only [decodeMatch, if_neg h0, if_pos h1]

/-- The bytes that the token loop reads end with the stream, before the element does. -/
theorem State.RunsOut.truncated {s : State} (h : s.RunsOut) (hpos : s.pos ≤ s.inLen) :
    decode (loopPlace s) (fetchBytes (loopPlace s) s) = .bad .truncated ∧
      s.pos + (fetchBytes (loopPlace s) s).length = s.inLen := by
  rcases h with ⟨hr, hend⟩ | ⟨hr, htag, hend⟩ | ⟨hr, htag, hshort⟩
  · have hpl : loopPlace s = .groupHdr := if_pos hr
    rw [hpl, fetchBytes, inBytes_eq_input, placeOffset, input_drop_of_le hend.ge]
    exact ⟨rfl, hend⟩
  · have hpl : loopPlace s = .token false := by rw [loopPlace, if_neg hr, htag]
    rw [hpl, fetchBytes, inBytes_eq_input, placeOffset, input_drop_of_le hend.ge]
    exact ⟨rfl, hend⟩
  · have hpl : loopPlace s = .token true := by rw [loopPlace, if_neg hr, htag]
    refine ⟨?_, by rw [fetchBytes_length, hpl, placeBytes, placeOffset]; omega⟩
    rw [hpl, fetchBytes, inBytes_eq_input, placeOffset, placeBytes]
    rcases Nat.eq_or_lt_of_le hpos with hend | hlt
    · rw [input_drop_of_le hend.ge]
      rfl
    · rw [input_drop_of_lt hlt, List.take_succ_cons]
      have h0 : hiNibble (s.inByte s.pos) = 0 ↔ (s.inByte s.pos).toNat / 16 = 0 := hiNibble_eq_iff _ 0
      have h1 : hiNibble (s.inByte s.pos) = 1 ↔ (s.inByte s.pos).toNat / 16 = 1 := hiNibble_eq_iff _ 1
      refine decodeMatch_truncated ?_
      rw [h0, h1, List.length_take, List.length_drop, input_length]
      omega

theorem decodeFailure_loop (s : State) (e : DecodeError) (got : List Byte) :
    ∃ tmp, decodeFailure (loopPlace s) e got s = readPastEnd got { s with temps := tmp } := by
  rw [loopPlace]
  split
  · exact ⟨s.temps, rfl⟩
  · cases tagOf s.hdr with
    | false => exact ⟨s.temps, rfl⟩
    | true => exact ⟨_, rfl⟩

/-- Settles O28: the bytes that are there are read, so that the read that fails is at N_in. -/
theorem readPastTheEndRaises : Obligations.ReadPastTheEndRaises := by
  intro s hreset hbusy hp hlt hpos hout
  have h : s.Running (.dec .loop) := ⟨hreset, hbusy, hp⟩
  obtain ⟨hdec, hlen⟩ := hout.truncated hpos
  obtain ⟨tmp, hfail⟩ := decodeFailure_loop s .truncated (fetchBytes (loopPlace s) s)
  have hstep : step s = .next (readPastEnd (fetchBytes (loopPlace s) s) { s with temps := tmp }) := by
    rw [h.step_dec, selectDec, if_pos hlt, fetch, hdec]
    exact congrArg _ hfail
  refine ⟨_, hstep, ?_⟩
  simp only [readPastEnd, hlen]
  rfl

/-! ### The end of the job (rule R163) -/

/-- Settles O29: with no output needed the token loop finishes. -/
theorem decompressFinishesAtTheDeclaredLength : Obligations.DecompressFinishesAtTheDeclaredLength := by
  intro s hreset hbusy hp hout
  have h : s.Running (.dec .loop) := ⟨hreset, hbusy, hp⟩
  refine ⟨finish s, ?_, ?_⟩
  · rw [h.step_dec, selectDec, if_neg (Nat.not_lt.2 hout.ge), Action.outcome]
  · rw [← hout]; rfl

end Sys2Proof.Machine
end

section
/-! SUPPORT. The match finder of 43_match_finder.md: where COMMON_PREFIX stops, what the search decides on, the positions that are
not registered, and the stream of COMPRESS. -/

namespace Sys2Proof.Machine

/-- Settles O54, by the run of the whole job (`compress_finishes`). -/
theorem compressWritesAFaithfulStream : Obligations.CompressWritesAFaithfulStream :=
  fun _ hready hoverlap hin hmax => compress_finishes hready hoverlap hin hmax

/-! ### Registration (rules R190 and R194) -/

theorem register_ht_of_no_window (h4 : Hash4) {p : Nat} {s : State} (hwin : ¬ HasWindow s p) :
    (register h4 p s).ht = s.ht := by
  rw [register, if_neg hwin]

/-- Settles O32, by induction on the span: a position after one without a window has none either. -/
theorem noWindowNoRegistration : Obligations.NoWindowNoRegistration := by
  intro h4 s p n hp
  induction n generalizing s p with
  | zero => rfl
  | succ n ih =>
    have hlen : (register h4 p s).inLen = s.inLen := by rw [register_frame]
    rw [registerSpan, ih _ _ (by omega), register_ht_of_no_window h4 (Nat.not_le.2 hp)]

/-! ### COMMON_PREFIX (rule R196) -/

/-- The count of equal bytes stops at its cap, at the end of the input, or at a byte that differs. -/
theorem commonBytes_stops (s : State) (fuel a b : Nat) (hb : b ≤ s.inLen) :
    commonBytes s fuel a b = fuel ∨ b + commonBytes s fuel a b = s.inLen ∨
      s.inByte (a + commonBytes s fuel a b) ≠ s.inByte (b + commonBytes s fuel a b) := by
  induction fuel generalizing a b with
  | zero => exact .inl rfl
  | succ fuel ih =>
    rw [commonBytes]
    split
    · rename_i hmore
      rw [Nat.add_right_cancel_iff, ← Nat.add_assoc b, ← Nat.add_assoc a, Nat.add_right_comm b, Nat.add_right_comm a]
      exact ih (a + 1) (b + 1) hmore.1
    · rename_i hstop
      rcases Nat.eq_or_lt_of_le hb with hend | hlt
      · exact .inr (.inl hend)
      · exact .inr (.inr fun heq => hstop ⟨hlt, heq⟩)

/-- Settles O33: the bytes that are counted agree, and the count stops for one of its three reasons. -/
theorem commonPrefixIsLongest : Obligations.CommonPrefixIsLongest := by
  intro s c hcur
  obtain ⟨hcap, hend, hbytes⟩ := commonBytes_spec s Config.maxMatch c s.cur hcur
  exact ⟨hcap, hend, hbytes, commonBytes_stops s Config.maxMatch c s.cur hcur⟩

/-! ### The decision of MF_STEP (rules R197 to R199) -/

/-- Settles O35: the table holds only positions before `cur`, so that a match is genuine, and its operands are in the range in
which the element stands for them. -/
theorem emittedTokensAreGenuine : Obligations.EmittedTokensAreGenuine := by
  rintro cfg s ⟨-, -, htable⟩ hcur
  rcases search_genuine (h4 := cfg.hash4) (fun c hc => (htable c hc).1) hcur with hlit | ⟨d, l, hmatch, hgenuine⟩
  · rw [hlit]
    exact ⟨rfl, .inl rfl⟩
  · have henc : (Token.copy d l).encodable = true := encodable_of_inContract hgenuine.tokenAt.contract
    obtain ⟨hd, hl, hsource, hwithin, hbytes⟩ := hgenuine
    rw [hmatch]
    exact ⟨tokenInstr_wf henc,
      .inr ⟨d, l, instrToken_tokenInstr henc, hd.1, hd.2, hl.1, hl.2, hwithin, hsource, hbytes⟩⟩

/-- Settles O34: with a window at `cur`, the element of the search (`search_element`) is that of the lookup. -/
theorem matchFinderDecides : Obligations.MatchFinderDecides :=
  fun h4 s hwin => (search_element h4 s).trans (if_pos hwin)

/-- Settles O36: without a window at `cur` nothing is looked up. -/
theorem lastBytesAreLiterals : Obligations.LastBytesAreLiterals := by
  intro h4 s hshort
  rw [search, if_neg (Nat.not_le.2 hshort)]

end Sys2Proof.Machine
end

section
/-! SUPPORT. The validation of TOKENS (rule R231), the header elements in the encoder jobs (rule R221), what a step of those jobs
runs, and DECOMPRESS of any framed stream (rule R234). -/

namespace Sys2Proof.Machine

/-! ### DECOMPRESS of a framed stream (rule R234) -/

/-- Settles O55: a stream that MAX_IN lets in is read to the end or rejected for its declared length (rules R154 and R234). -/
theorem decompressExpandsAFramedStream : Obligations.DecompressExpandsAFramedStream := by
  intro s ts extra n h ho hw hn hin hx
  by_cases hmax : s.inLen ≤ Config.here.maxIn
  · by_cases hout : n ≤ Config.here.maxOut
    · rw [if_pos ⟨hmax, hout⟩]
      exact decompress_finishes h ho hw hn hin hx hmax hout
    · rw [if_neg fun hboth => hout hboth.2, if_pos hmax]
      exact decompress_rejects_output h ho hw hn hin hx hmax (Nat.lt_of_not_le hout)
  · rw [if_neg fun hboth => hmax hboth.1, if_neg hmax]
    exact decompress_rejects_input h ho (Nat.lt_of_not_le hmax)

/-! ### The validation of TOKENS (rule R231) -/

/-- The walk passes the tokens that are each inside the contract after the bytes of those before it. -/
theorem walkTokens_eq_some_iff {ts : List Token} {p n : Nat} :
    walkTokens ts p = some n ↔
      (∀ (j : Nat) (t : Token), ts[j]? = some t → t.inContract (p + tokensLength (ts.take j)) = true) ∧
        p + tokensLength ts = n := by
  induction ts generalizing p with
  | nil => simp [walkTokens, tokensLength]
  | cons t ts ih =>
    rw [walkTokens_cons, ih, tokensLength_cons, ← Nat.add_assoc, ← and_assoc]
    refine and_congr_left fun _ => Iff.trans ?_ Nat.and_forall_add_one
    simp [tokensLength, Nat.add_assoc]

theorem tokensOk_iff {maxIn : Nat} {ts : List Token} :
    tokensOk maxIn ts = true ↔ ∃ n, walkTokens ts 0 = some n ∧ n ≤ Config.maxDeclared ∧ n ≤ maxIn := by
  rw [tokensOk]
  cases walkTokens ts 0 <;> simp

/-- Only a match can break the contract. -/
theorem inContract_iff {t : Token} {p : Nat} :
    t.inContract p = true ↔ ∀ d l, t = .copy d l → 1 ≤ d ∧ d ≤ 4095 ∧ 3 ≤ l ∧ l ≤ 65808 ∧ d ≤ p := by
  cases t with
  | lit b => simp [Token.inContract]
  | copy d l =>
    rw [Token.inContract, decide_eq_true_eq]
    constructor
    · rintro h _ _ ⟨⟩
      exact h
    · exact fun h => h d l rfl

/-- Settles O39: the walk from 0 asks each match for the contract, and its end is the total. -/
theorem tokensAreValidated : Obligations.TokensAreValidated := by
  intro maxIn ts
  simp only [tokensOk_iff, walkTokens_eq_some_iff, inContract_iff, Nat.zero_add, and_assoc, exists_and_left,
    exists_eq_left', tokensLength]
  refine and_congr_left fun _ => ⟨fun h j d l hj => h j _ hj d l rfl, ?_⟩
  rintro h j _ hj d l rfl
  exact h j d l hj

/-! ### The header elements in the encoder jobs (rule R221) -/

/-- Byte `k` of a value, as a number (rule R11). -/
theorem byteOf_value {w : Nat} (v : BitVec w) (k : Nat) : (byteOf v k).toNat = v.toNat / 256 ^ k % 256 := by
  rw [byteOf, field_value, Nat.pow_mul]
  rfl

/-- WRITE_HEADER advances `out_len` by the length of the element, and writes nothing else but bytes of `OUT` and the point. -/
theorem encHeader_eq (j : EncJob) (i : Instr) (next : EncPoint) (s : State) :
    encHeader j i next s =
      { s with outMem := (encHeader j i next s).outMem, outLen := s.outLen + (encode i).length, phase := .enc j next } := by
  rw [encHeader, appendBytes_eq]

/-- The bytes of a header element stand in `OUT` from the old `out_len` on. -/
theorem encHeader_outByte {i : Instr} {k : Nat} {b : Byte} (j : EncJob) (next : EncPoint) (s : State)
    (hb : (encode i)[k]? = some b) : (encHeader j i next s).outByte (s.outLen + k) = b := by
  obtain ⟨hk, -⟩ := List.getElem?_eq_some_iff.1 hb
  exact Option.some.inj ((appendBytes_outByte s hk).symm.trans hb)

/-- A header element leaves every other byte of `OUT` alone. -/
theorem encHeader_outByte_outside {i : Instr} {x : Nat} (j : EncJob) (next : EncPoint) (s : State)
    (hx : x < s.outLen ∨ s.outLen + (encode i).length ≤ x) : (encHeader j i next s).outByte x = s.outByte x :=
  appendBytes_outByte_outside s (by rwa [appendBytes_eq])

theorem encode_sizeShort_getElem? (n : BitVec 24) {k : Nat} (hk : k < 3) :
    (encode (.sizeShort n))[k]? = some (byteOf n k) := by
  rw [show encode (.sizeShort n) = (List.range 3).map (byteOf n) from rfl, List.getElem?_map, List.getElem?_range hk]
  rfl

theorem encode_sizeEscape_getElem? (n : BitVec 32) {k : Nat} (hk : k < 4) :
    (encode (.sizeEscape n))[3 + k]? = some (byteOf n k) := by
  rw [show encode (.sizeEscape n) = List.replicate 3 0 ++ (List.range 4).map (byteOf n) from rfl,
    List.getElem?_append_right (Nat.le_add_right 3 k), List.length_replicate, Nat.add_sub_cancel_left, List.getElem?_map,
    List.getElem?_range hk]
  rfl

/-- The escape starts with a zero field of 24 bits (rule R73). -/
theorem encode_sizeEscape_getElem?_zero (n : BitVec 32) {k : Nat} (hk : k < 3) :
    (encode (.sizeEscape n))[k]? = some 0 := by
  rw [show encode (.sizeEscape n) = List.replicate 3 0 ++ (List.range 4).map (byteOf n) from rfl,
    List.getElem?_append_left (by rwa [List.length_replicate]), List.getElem?_replicate, if_pos hk]

/-- Settles O18: all three elements are WRITE_HEADER of their bytes (`encHeader`), at their points of the job. -/
theorem headerElementsAreWritten : Obligations.HeaderElementsAreWritten := by
  refine fun s j => ⟨fun hp => ?magic, fun hp => ⟨fun n => ?short, fun n => ?escape⟩⟩
  case magic =>
    refine ⟨encHeader j .magic .size s, by simp only [exec, execMagic, hp], encHeader_eq j .magic .size s, fun x => ?_⟩
    exact memory_read_write s.outMem s.outLen x 0x11
  case short =>
    refine ⟨encHeader j (.sizeShort n) .init s, by simp only [exec, execSizeShort, hp],
      encHeader_eq j (.sizeShort n) .init s, fun k hk => ?_, fun x hx => encHeader_outByte_outside j .init s hx⟩
    rw [encHeader_outByte j .init s (encode_sizeShort_getElem? n hk), byteOf_value]
  case escape =>
    refine ⟨encHeader j (.sizeEscape n) .init s, by simp only [exec, execSizeEscape, hp],
      encHeader_eq j (.sizeEscape n) .init s,
      fun k hk => encHeader_outByte j .init s (encode_sizeEscape_getElem?_zero n hk), fun k hk => ?_,
      fun x hx => encHeader_outByte_outside j .init s hx⟩
    rw [Nat.add_assoc, encHeader_outByte j .init s (encode_sizeEscape_getElem? n hk), byteOf_value]

/-! ### What a step of an encoder job runs -/

/-- Settles O10: at each point `select` answers the element that the statement names. -/
theorem stepEmitsTheNextElement : Obligations.StepEmitsTheNextElement := by
  intro s j hreset hbusy
  have hrun : ∀ {p : EncPoint}, s.phase = .enc j p → s.Running (.enc j p) := fun hp => ⟨hreset, hbusy, hp⟩
  refine ⟨fun hp => ?magic, fun hp => ?size, fun hp => (hrun hp).step_encInit, fun hp i s' hnext => ?token,
    fun hp hnext => ?done⟩
  case magic | size => rw [(hrun hp).step_enc, selectEnc, Action.outcome]
  case token | done => rw [(hrun hp).step_enc, selectEnc, hnext, Action.outcome]

end Sys2Proof.Machine
end

section
/-! SUPPORT. The starts that are rejected (rule R281): what each check of ADMIT answers, and the steps that end there. -/

namespace Sys2Proof.Machine

/-! ### The checks of ADMIT in their order -/

/-- A length fails the size check when it is above MAX_IN or, for COMPRESS, above what a header can declare. -/
theorem inputOk_eq_false_iff {maxIn n : Nat} {c : Command} :
    inputOk maxIn c n = false ↔ maxIn < n ∨ (c = .compress ∧ Config.maxDeclared < n) := by
  simp [inputOk, imp_iff_not_or]

theorem admission_of_overlap (cfg : Config) (c : Command) {s : State} (ho : s.inOverlapsOut = true) :
    admission cfg c s = some .aliased := by
  rw [admission, if_pos ho]

/-- The size is what counts once there is no overlap, whatever the tokens are. -/
theorem admission_of_inputTooLarge {cfg : Config} {c : Command} {s : State} (ho : s.inOverlapsOut = false)
    (hin : inputOk cfg.maxIn c s.inLen = false) : admission cfg c s = some .inputTooLarge := by
  simp [admission, ho, hin]

/-- The tokens are looked at last. -/
theorem admission_of_badTokens {cfg : Config} {s : State} (ho : s.inOverlapsOut = false) (hin : s.inLen ≤ cfg.maxIn)
    (ht : tokensOk cfg.maxIn s.tokens = false) : admission cfg .encodeTokens s = some .badToken := by
  have hok : inputOk cfg.maxIn .encodeTokens s.inLen = true := by simp [inputOk, hin]
  simp [admission, ho, hok, ht]

/-! ### The rejected starts -/

/-- While no job runs, the element of a command is its start (rule R290). -/
theorem exec_toInstr_of_idle (c : Command) {s : State} (hb : s.busy = false) :
    exec c.toInstr s = .next (jobStart Config.here c s) := by
  have hstart : startCommand c s = .next (jobStart Config.here c s) := by simp [startCommand, hb]
  cases c <;> exact hstart

/-- The reason that ADMIT gives is the one the start is rejected with. -/
theorem exec_toInstr_rejected {c : Command} {s : State} {r : Reason} (hb : s.busy = false)
    (hr : admission Config.here c s = some r) : exec c.toInstr s = .next (rejectAtStart r s) := by
  rw [exec_toInstr_of_idle c hb, jobStart, hr]

/-- Settles O38: each clause is one check of ADMIT, reached because those before it pass. -/
theorem rejectionOrder : Obligations.RejectionOrder := by
  refine fun s c hb => ⟨fun ho => ?overlap, fun ho hin => ?input, fun ho hin hc ht => ?tokens⟩
  case overlap => exact exec_toInstr_rejected hb (admission_of_overlap Config.here c ho)
  case input => exact exec_toInstr_rejected hb (admission_of_inputTooLarge ho (inputOk_eq_false_iff.2 hin))
  case tokens =>
    subst hc
    exact exec_toInstr_rejected hb (admission_of_badTokens ho hin ht)

/-- Settles O13: of an idle block that is asked for a start, `select` answers the rejection, there being no command. -/
theorem unknownCommandIsRejected : Obligations.UnknownCommandIsRejected := by
  intro s n hreset hbusy hstart hcmd
  have hselect : select Config.here s = .move (rejectAtStart .unknownCommand s) := by
    simp [select, selectIdle, selectStart, hreset, hbusy, hstart, hcmd]
  rw [step_eq, hselect]
  rfl

end Sys2Proof.Machine
end

section
/-! SUPPORT. What the block does while no job runs: no step without a start (rule R283), the platform reset (rule R284), and the
starts that ADMIT lets in (rules R280 and R281). -/

namespace Sys2Proof.Machine

theorem step_of_idle {s : State} (hbusy : s.busy = false) (hstart : s.startReq = false) (hreset : s.resetReq = false) :
    step s = .fault .idle := by
  have hselect : select Config.here s = .stuck .idle := by simp [select, selectIdle, hreset, hbusy, hstart]
  rw [step_eq, hselect, Action.outcome]

/-- Settles O11: the state at power-on is one of those in which nothing is asked for. -/
theorem noStepWithoutAStart : Obligations.NoStepWithoutAStart :=
  ⟨rfl, step_of_idle rfl rfl rfl, fun _ => step_of_idle⟩

theorem step_of_reset {s : State} (hreset : s.resetReq = true) : step s = .next (platformReset s) := by
  rw [step_eq, select, if_pos hreset, Action.outcome]

/-- Settles O12: whatever the unspecified state is, the reset leaves it idle, with its buffers and table in canonical form. -/
theorem resetAbandonsTheJob : Obligations.ResetAbandonsTheJob := fun s hreset =>
  ⟨platformReset s, step_of_reset hreset, rfl, rfl, rfl, rfl, memory_wf_canon _ _, memory_wf_canon _ _, table_wf_canon _⟩

/-- A start that ADMIT lets in is the start of the command's job (rules R280 and R281). -/
theorem exec_toInstr_admitted {c : Command} {s : State} (hb : s.busy = false) (ho : s.inOverlapsOut = false)
    (hin : s.inLen ≤ Config.here.maxIn) (hc : c = .compress → s.inLen ≤ Config.maxDeclared)
    (ht : c = .encodeTokens → tokensOk Config.here.maxIn s.tokens = true) : exec c.toInstr s = .next (begin c s) := by
  rw [exec_toInstr_of_idle c hb, jobStart_admitted ho hin hc ht]

/-- Settles O37: the three commands differ in what ADMIT asks of them and in what they begin with. -/
theorem admittedJobStarts : Obligations.AdmittedJobStarts := by
  refine fun s hb ho hin => ⟨fun hlen => ⟨begin .compress s, ?compress, rfl⟩, ⟨begin .decompress s, ?decompress, rfl⟩,
    fun htok => ⟨begin .encodeTokens s, ?encodeTokens, rfl⟩⟩
  case compress => exact exec_toInstr_admitted (c := .compress) hb ho hin (fun _ => hlen) nofun
  case decompress => exact exec_toInstr_admitted (c := .decompress) hb ho hin nofun nofun
  case encodeTokens => exact exec_toInstr_admitted (c := .encodeTokens) hb ho hin nofun (fun _ => htok)

end Sys2Proof.Machine
end

section
/-! SUPPORT. What the host observes when a DECOMPRESS ends (rule R298): the payload where a rule gives it, and the result after
OK. -/

namespace Sys2Proof.Machine

/-- The observation of a job that ends (rules R252, R282 and R298): its status, the payload that a rule gave it, and the output
only after OK. -/
theorem observe_jobEnd (st : Status) (payload : Option Nat) (s : State) :
    observe (jobEnd st payload s) = some
      { status := st
        payload := if st = .invalidIndex ∨ st = .rejected then payload else none
        result := if st = .ok then some (Memory.readBytes s.outMem 0 s.outLen) else none } := by
  by_cases hok : st = .ok <;> cases payload <;> simp [observe, State.result, hok]

/-- A failed job without a given payload shows its status alone. -/
theorem observe_raise_none {k : Status} (hk : k ≠ .ok) (s : State) :
    observe (raise k none s) = some { status := k, payload := none, result := none } := by
  rw [raise, observe_jobEnd, if_neg hk, ite_self]

/-- A declared length above MAX_OUT ends the job with the payload that rule R154 gives. -/
theorem observe_decSize_rejected {cfg : Config} {hdrLen : Nat} {d : BitVec 32} (hmax : cfg.maxOut < d.toNat) (s : State) :
    observe (decSize cfg hdrLen d s) = some { status := .rejected, payload := some 3, result := none } := by
  rw [decSize, if_pos hmax, reject, observe_jobEnd]
  rfl

/-- Settles O42: each end is a `jobEnd`, whose payload is `none` where no rule gives one. -/
theorem onlyGivenPayloadsAreObserved : Obligations.OnlyGivenPayloadsAreObserved := by
  refine ⟨fun s i d l hp hw hi => ?backref, fun s hreset hbusy hp hlt hpos hout => ?pastEnd,
    fun s hreset hbusy hp hlen => ?noMagic, fun s hreset hbusy hp hlen hb => ?badMagic,
    fun s hreset hbusy hp hlen hb hshort => ?short, fun s hp => ⟨fun n hmax => ?sizeShort, fun n hmax => ?sizeEscape⟩,
    fun s hreset hbusy hp hout => ?done⟩
  case backref =>
    refine ⟨_, exec_match_dec hp hi, fun hfar => ?_, fun hnear hle hlt ho => ?_⟩
    · rw [decMatch_of_far _ _ hfar]
      exact observe_raise_none (by decide) _
    · obtain ⟨-, -, herror⟩ := decMatch_of_overrun Config.here i hnear hle hlt rfl
      rw [herror ho]
      exact observe_raise_none (by decide) _
  case pastEnd =>
    obtain ⟨t, hstep, ht⟩ := readPastTheEndRaises s hreset hbusy hp hlt hpos hout
    refine ⟨t, hstep, ?_⟩
    rw [ht]
    rfl
  case noMagic => exact ⟨_, State.Running.step_noMagic ⟨hreset, hbusy, hp⟩ hlen, observe_raise_none (by decide) s⟩
  case badMagic => exact ⟨_, State.Running.step_badMagic ⟨hreset, hbusy, hp⟩ hlen hb, observe_raise_none (by decide) s⟩
  case short =>
    refine ⟨_, State.Running.step_goodMagic ⟨hreset, hbusy, hp⟩ hlen hb, ?_⟩
    rw [decMagic, if_pos hshort]
    exact observe_raise_none (by decide) s
  case sizeShort =>
    have hval : (n.setWidth 32).toNat = n.toNat := BitVec.toNat_setWidth_of_le (by decide)
    exact ⟨decSize Config.here hdrLenShort (n.setWidth 32) s, by simp only [exec, execSizeShort, hp],
      observe_decSize_rejected (hval ▸ hmax) s⟩
  case sizeEscape =>
    exact ⟨decSize Config.here hdrLenEscape n s, by simp only [exec, execSizeEscape, hp], observe_decSize_rejected hmax s⟩
  case done =>
    obtain ⟨t, hstep, ht⟩ := decompressFinishesAtTheDeclaredLength s hreset hbusy hp hout
    refine ⟨t, hstep, ?_⟩
    rw [ht]
    simp [observe, State.result]

end Sys2Proof.Machine
end

section
/-! SUPPORT. A start while a job runs (rule R290): the port and the meanings of the commands refuse it, and the operations of a
running job commute with setting the start event, which none of them reads. -/

namespace Sys2Proof.Machine

/-! ### The start event set or cleared -/

/-- The state with the start event set or cleared. -/
def State.withStart (b : Bool) (s : State) : State := { s with startReq := b }

@[simp] theorem withStart_inLen (b : Bool) (s : State) : (s.withStart b).inLen = s.inLen := rfl
@[simp] theorem withStart_outLen (b : Bool) (s : State) : (s.withStart b).outLen = s.outLen := rfl
@[simp] theorem withStart_dlen (b : Bool) (s : State) : (s.withStart b).dlen = s.dlen := rfl
@[simp] theorem withStart_cur (b : Bool) (s : State) : (s.withStart b).cur = s.cur := rfl
@[simp] theorem withStart_busy (b : Bool) (s : State) : (s.withStart b).busy = s.busy := rfl
@[simp] theorem withStart_phase (b : Bool) (s : State) : (s.withStart b).phase = s.phase := rfl

/-- The outcome with the start event set or cleared in its next state. -/
def outcomeWithStart (b : Bool) : Host.Outcome State Fault Refusal → Host.Outcome State Fault Refusal
  | .next t => .next (t.withStart b)
  | .fault f => .fault f
  | .refused r => .refused r

theorem State.Running.withStart {s : State} {p : Phase} (h : s.Running p) (b : Bool) : (s.withStart b).Running p :=
  ⟨h.noReset, h.busy, h.phase⟩

section
variable (b : Bool) (s : State)

/-! ### The operations of DECOMPRESS -/

theorem decMagic_withStart : decMagic (s.withStart b) = (decMagic s).withStart b := by
  simp only [decMagic, apply_ite (State.withStart b)]
  rfl

theorem decSize_withStart (cfg : Config) (hdrLen : Nat) (d : BitVec 32) :
    decSize cfg hdrLen d (s.withStart b) = (decSize cfg hdrLen d s).withStart b := by
  simp only [decSize, apply_ite (State.withStart b)]
  rfl

theorem backrefCopy_withStart (d n : Nat) :
    backrefCopy d n (s.withStart b) = ((backrefCopy d n s).1.withStart b, (backrefCopy d n s).2) := by
  induction n generalizing s with
  | zero => rfl
  | succ n ih =>
    by_cases hfull : s.outLen = s.dlen.toNat <;>
      simp only [backrefCopy, withStart_outLen, withStart_dlen, hfull, reduceIte]
    exact ih (copyByte d s)

theorem endCopy_withStart (o : Overrun) (r : State × Bool) :
    endCopy o (r.1.withStart b, r.2) = (endCopy o r).withStart b := by
  simp only [endCopy]
  split <;> rfl

theorem decMatch_withStart (cfg : Config) (i : Instr) (d l : Nat) :
    decMatch cfg i d l (s.withStart b) = (decMatch cfg i d l s).withStart b := by
  rcases Nat.lt_or_ge s.outLen d with hfar | hnear
  · rw [decMatch_of_far cfg i hfar, decMatch_of_far cfg i (withStart_outLen b s ▸ hfar)]
    rfl
  · rw [decMatch_of_near cfg i hnear, decMatch_of_near cfg i (withStart_outLen b s ▸ hnear), ← endCopy_withStart,
      ← backrefCopy_withStart]
    rfl

theorem decodeFailure_withStart (pl : Place) (e : DecodeError) (got : List Byte) :
    decodeFailure pl e got (s.withStart b) = (decodeFailure pl e got s).withStart b := by
  cases pl with
  | magic => cases e <;> rfl
  | size | groupHdr => rfl
  | token tag => cases tag <;> rfl

/-! ### The operations of the encoder jobs -/

theorem encHeader_withStart (j : EncJob) (i : Instr) (next : EncPoint) :
    encHeader j i next (s.withStart b) = (encHeader j i next s).withStart b := by
  rw [encHeader, encHeader, appendBytes_eq, appendBytes_eq]
  rfl

theorem emit_withStart (i : Instr) : emit i (s.withStart b) = (emit i s).withStart b := by
  by_cases hfull : s.cnt = 8
  · rw [emit_full i s hfull, emit_full i (s.withStart b) hfull]
    rfl
  · rw [emit_open i s hfull, emit_open i (s.withStart b) hfull]
    rfl

theorem register_withStart (h4 : Hash4) (p : Nat) : register h4 p (s.withStart b) = (register h4 p s).withStart b := by
  simp only [register, apply_ite (State.withStart b)]
  rfl

theorem registerSpan_withStart (h4 : Hash4) (p n : Nat) :
    registerSpan h4 p n (s.withStart b) = (registerSpan h4 p n s).withStart b := by
  induction n generalizing p s with
  | zero => rfl
  | succ n ih => rw [registerSpan, register_withStart, ih, registerSpan]

theorem encToken_withStart (h4 : Hash4) (i : Instr) (len : Nat) (j : EncJob) :
    encToken h4 i len j (s.withStart b) = (encToken h4 i len j s).withStart b := by
  cases j with
  | compress =>
    simp only [encToken, finderEmit, emit_withStart, registerSpan_withStart]
    rfl
  | tokens =>
    simp only [encToken, emit_withStart]
    rfl

theorem commonPrefix_withStart (c : Nat) : commonPrefix (s.withStart b) c = commonPrefix s c := by
  have hbytes : ∀ fuel a q, commonBytes (s.withStart b) fuel a q = commonBytes s fuel a q := by
    intro fuel
    induction fuel with
    | zero => exact fun _ _ => rfl
    | succ fuel ih => intro a q; simp only [commonBytes, ih]; rfl
  exact hbytes _ _ _

/-- The search writes its temporaries alike, with or without a start event (rule R197). -/
theorem search_withStart (h4 : Hash4) :
    search h4 (s.withStart b) = ((search h4 s).1, (search h4 s).2.withStart b) := by
  have hlookup (h : BitVec 16) : lookup (s.withStart b) h = lookup s h := rfl
  have hhash (p : Nat) : hashWindow h4 (s.withStart b) p = hashWindow h4 s p := rfl
  simp only [search, searchWindow, HasWindow, Usable, withStart_inLen, withStart_cur, hlookup, hhash,
    commonPrefix_withStart]
  repeat' split
  all_goals rfl

theorem nextToken_withStart (h4 : Hash4) (j : EncJob) :
    nextToken h4 j (s.withStart b) = (nextToken h4 j s).map fun r => (r.1, r.2.withStart b) := by
  cases j with
  | compress =>
    simp only [nextToken, withStart_inLen, withStart_cur, search_withStart]
    split <;> rfl
  | tokens =>
    simp only [nextToken, Option.map_map]
    rfl

end

/-! ### The step of a running job -/

section
variable (b : Bool) {s : State}

/-- No element reads the start event while a job runs: a command is refused, whatever the event (rule R290). -/
theorem exec_withStart (hb : s.busy = true) (i : Instr) : exec i (s.withStart b) = outcomeWithStart b (exec i s) := by
  cases i with
  | compress | decompress | encodeTokens =>
    simp only [exec, execCompress, execDecompress, execEncodeTokens, startCommand, withStart_busy, hb, if_true,
      outcomeWithStart]
  | magic =>
    simp only [exec, execMagic, withStart_phase, decMagic_withStart, encHeader_withStart]
    split <;> rfl
  | sizeShort | sizeEscape =>
    simp only [exec, execSizeShort, execSizeEscape, withStart_phase, decSize_withStart, encHeader_withStart]
    split <;> rfl
  | groupHdr =>
    simp only [exec, execGroupHdr, withStart_phase]
    split <;> rfl
  | lit =>
    simp only [exec, execLit, withStart_phase, encToken_withStart]
    split <;> rfl
  | match2 | match3 | match4 =>
    simp only [exec, execMatch2, execMatch3, execMatch4, matchToken, withStart_phase, decMatch_withStart,
      encToken_withStart]
    split <;> rfl

theorem fetch_withStart (hb : s.busy = true) (pl : Place) :
    (fetch pl (s.withStart b)).outcome = outcomeWithStart b (fetch pl s).outcome := by
  have hbytes : fetchBytes pl (s.withStart b) = fetchBytes pl s := by cases pl <;> rfl
  simp only [fetch, hbytes]
  cases decode pl (fetchBytes pl s) with
  | ok i n => exact exec_withStart b hb i
  | bad e => rw [Action.outcome, Action.outcome, decodeFailure_withStart, outcomeWithStart]

theorem selectDec_withStart (hb : s.busy = true) (p : DecPoint) :
    (selectDec p (s.withStart b)).outcome = outcomeWithStart b (selectDec p s).outcome := by
  cases p with
  | magic | size => exact fetch_withStart b hb _
  | loop =>
    by_cases hlt : s.outLen < s.dlen.toNat <;>
      simp only [selectDec, withStart_outLen, withStart_dlen, hlt, reduceIte]
    · exact fetch_withStart b hb (loopPlace s)
    · rfl

theorem selectEnc_withStart (hb : s.busy = true) (h4 : Hash4) (j : EncJob) (p : EncPoint) :
    (selectEnc h4 j p (s.withStart b)).outcome = outcomeWithStart b (selectEnc h4 j p s).outcome := by
  cases p with
  | magic => exact exec_withStart b hb .magic
  | size =>
    have hlen : encLength j (s.withStart b) = encLength j s := by cases j <;> rfl
    rw [selectEnc, hlen]
    exact exec_withStart b hb (sizeInstr (encLength j s))
  | init => rfl
  | loop =>
    simp only [selectEnc, nextToken_withStart]
    cases hnext : nextToken h4 j s with
    | none => exact exec_withStart b hb (.groupHdr (accFinish s.acc s.cnt))
    | some r =>
      have hb' : r.2.busy = true := by rw [nextToken_frame (i := r.1) (s' := r.2) hnext]; exact hb
      exact exec_withStart b hb' r.1

/-- The step of a running job is the same with and without a start event, which stays as it is (rule R290). -/
theorem step_withStart (hb : s.busy = true) (hreset : s.resetReq = false) :
    step (s.withStart b) = outcomeWithStart b (step s) := by
  cases hp : s.phase with
  | idle => simp [step_eq, select, selectBusy, State.withStart, hb, hreset, hp, Action.outcome, outcomeWithStart]
  | dec p =>
    have h : s.Running (.dec p) := ⟨hreset, hb, hp⟩
    rw [h.step_dec, (h.withStart b).step_dec, selectDec_withStart b hb]
  | enc j p =>
    have h : s.Running (.enc j p) := ⟨hreset, hb, hp⟩
    rw [h.step_enc, (h.withStart b).step_enc, selectEnc_withStart b hb]

end

/-! ### The refusals -/

theorem exec_toInstr_of_busy (c : Command) {s : State} (hb : s.busy = true) :
    exec c.toInstr s = .refused .startWhileBusy := by
  have hstart : startCommand c s = .refused .startWhileBusy := if_pos hb
  cases c <;> exact hstart

/-- Settles O40: the commands and the port are refused, and the step of the running job commutes with setting the event. -/
theorem noStartWhileBusy : Obligations.NoStartWhileBusy := by
  refine fun s c hb => ⟨exec_toInstr_of_busy c hb, if_pos hb, fun hreset t hstep => ?_⟩
  have hset : step { s with startReq := true } = outcomeWithStart true (step { s with startReq := false }) :=
    step_withStart true (s := { s with startReq := false }) hb hreset
  rw [hset, hstep]
  rfl

end Sys2Proof.Machine
end

section
/-! SUPPORT. Words that the spec writes out (rules R71 to R73, R78 and R80 to R83): each is the encoding of its element, which the
round trip (`decode_encode`) reads back. -/

namespace Sys2Proof.Machine

/-- Bytes that begin with the encoding of an element decode to it (rule R87). -/
theorem decode_of_encode_append {pl : Place} {bs rest : List Byte} {i : Instr} (hbs : encode i ++ rest = bs)
    (hw : i.wf = true) (hp : placeOf i = some pl) (h0 : i ≠ .sizeShort 0) : decode pl bs = .ok i (encode i).length :=
  hbs ▸ decode_encode hw hp fun h => absurd h h0

/-- A word of the opcode table that holds the encoding of an element for its place decodes to it. -/
theorem decodeTableWord_of_encode_append {nbits w : Nat} {rest : List Byte} {i : Instr}
    (hbs : encode i ++ rest = tableBytes nbits w) (hw : i.wf = true) (hp : placeOf i = some (tablePlace nbits w))
    (h0 : i ≠ .sizeShort 0) : decodeTableWord nbits w = some i := by
  rw [decodeTableWord, decode_of_encode_append hbs hw hp h0]

/-- Any other byte at offset 0 is no magic byte (rule R71). -/
theorem decode_magic_of_ne {b : Byte} (hb : b ≠ 0x11) (rest : List Byte) :
    decode .magic (b :: rest) = .bad .badMagic :=
  if_neg hb

/-- Settles O7: each word is the encoding of its element, followed in the opcode table by the zero bytes above its width. -/
theorem specWordsDecode : Obligations.SpecWordsDecode := by
  refine ⟨?magic, decode_magic_of_ne (by decide) [], ?short, ?escape, ?groupHdr, ?lit, ?match2, ?match3, ?match4,
    ?tableMagic, ?tableMatch4⟩
  case tableMagic => exact decodeTableWord_of_encode_append (rest := List.replicate 6 0) rfl rfl rfl (by decide)
  case tableMatch4 => exact decodeTableWord_of_encode_append (rest := List.replicate 3 0) rfl rfl rfl (by decide)
  all_goals exact decode_of_encode_append (rest := []) rfl rfl rfl (by decide)

end Sys2Proof.Machine
end
